-- ==== Sys2Proof/Syntax.lean ====
section
/-! DEFINITION. The commands of the block (spec/30_encoding.md R92): one constructor per row of spec/opcode_table.json.
A command carries no operand field (R91), so no constructor has an argument. -/

namespace Sys2Proof

/-- The ten commands. -/
inductive Instr where
  /-- No operation (43_control.md R190). -/
  | nop
  /-- Frequency counter (41_encoder.md R121). -/
  | count
  /-- Prefix-tree builder (41_encoder.md R124). -/
  | build
  /-- Code generator (41_encoder.md R133). -/
  | gencode
  /-- Bitstream packer and container writer (41_encoder.md R140). -/
  | pack
  /-- Whole compression run (41_encoder.md R150). -/
  | compress
  /-- Table parser (42_decoder.md R160). -/
  | parse
  /-- Bitstream unpacker and symbol reconstruction (42_decoder.md R170). -/
  | decode
  /-- Whole decompression run (42_decoder.md R180). -/
  | decompress
  /-- Return the stage results to their empty state (43_control.md R191). -/
  | clear
deriving DecidableEq, Repr

end Sys2Proof
end

