-- ==== Sys2Proof/Word.lean ====
section
/-! DEFINITION. The word types of the block and the byte values of the characters its container format uses
(spec/00_scope.md R10, R11, R13). -/

namespace Sys2Proof

/-- A register value or the data of a host transaction: an unsigned 32-bit number (R8, R10). -/
abbrev Word := BitVec 32

/-- One byte of a buffer, and one symbol of the alphabet (R8: values 0 to 255, unsigned, D43). -/
abbrev Byte := BitVec 8

/-- A bit string, first bit first (R11): `true` is 1. The first bit of a code is the one nearest the root. -/
abbrev Bits := List Bool

namespace Ascii

/-- Line feed (R13). PRESUMED by the spec itself, from general knowledge (log 18). -/
def LF : Byte := 0x0A

/-- Space (R13; log 18). -/
def SP : Byte := 0x20

/-- The character of the bit 0, and the digit zero (R13; log 18). -/
def zero : Byte := 0x30

/-- The character of the bit 1 (R13; log 18). -/
def one : Byte := 0x31

end Ascii

end Sys2Proof
end

