-- ==== Sys2Proof/Decode.lean ====
section
/-! DEFINITION. The command word (spec/30_encoding.md R90 to R95): decoding, total on every 32-bit word, and encoding. -/

namespace Sys2Proof

/-- Why a word is no command. -/
inductive Illegal where
  /-- A bit of `CMD[31:4]` is set (R94). -/
  | reservedBits
  /-- The opcode is 0x6, 0x7, 0xB, 0xC, 0xD or 0xE (R93). -/
  | reservedOpcode (op : BitVec 4)
deriving DecidableEq, Repr

/-- `OP`, bits 3:0 of a command word (R90). -/
def opField (w : Word) : BitVec 4 := w.extractLsb' 0 4

/-- Bits 31:4 of a command word (R90). -/
def rsvdField (w : Word) : BitVec 28 := w.extractLsb' 4 28

/-- The opcode map (R92); the reserved opcodes are refused by name (R93). -/
def decodeOp (op : BitVec 4) : Except Illegal Instr :=
  match op.toNat with
  | 0x0 => .ok .nop
  | 0x1 => .ok .count
  | 0x2 => .ok .build
  | 0x3 => .ok .gencode
  | 0x4 => .ok .pack
  | 0x5 => .ok .compress
  | 0x8 => .ok .parse
  | 0x9 => .ok .decode
  | 0xA => .ok .decompress
  | 0xF => .ok .clear
  | _ => .error (.reservedOpcode op)

/-- Decoding a command word (R95: total). -/
def decode (w : Word) : Except Illegal Instr :=
  if rsvdField w = 0 then decodeOp (opField w) else .error .reservedBits

/-- The opcode of a command (R92). -/
def opcodeOf : Instr → BitVec 4
  | .nop => 0x0
  | .count => 0x1
  | .build => 0x2
  | .gencode => 0x3
  | .pack => 0x4
  | .compress => 0x5
  | .parse => 0x8
  | .decode => 0x9
  | .decompress => 0xA
  | .clear => 0xF

/-- The command word of a command: the opcode with bits 31:4 zero (R90, R92, R94). -/
def encode (i : Instr) : Word := (opcodeOf i).setWidth 32

/-- The command word of an opcode-table row given as its bits: a command word is the 32-bit data of one CMD write, bit 0
the least significant, so the row's numbering is the word's own, and every bit from `nbits` up is 0. -/
def tableWord (nbits w : Nat) : Word := BitVec.ofNat 32 (w % 2 ^ nbits)

/-- What the decoder reads from an opcode-table row's bits. -/
def decodeTableWord (nbits w : Nat) : Option Instr := (decode (tableWord nbits w)).toOption

end Sys2Proof
end

