-- ==== Sys2Proof/Config.lean ====
section
/-! DEFINITION. What a part fixes (spec/00_scope.md R7, R8) and the free values: what the spec calls UNSPEC (R12, "a free
input, no law"). Each free value is an uninterpreted constant, so nothing can be proved about one. -/

namespace Sys2Proof

/-- The two parameters that vary between parts (R7). -/
structure Params where
  /-- `IBUF_BYTES`, the size in bytes of the input buffer. -/
  ibufBytes : Nat
  /-- `OBUF_BYTES`, the size in bytes of the output buffer. -/
  obufBytes : Nat
deriving DecidableEq, Repr

namespace Config

/-- The suggested sizes of R7: 65536 and 131072. DESIGN CHOICE as the sizes of `State.reset` (log 1). -/
def suggested : Params := ⟨65536, 131072⟩

/-- The greatest legal `IBUF_BYTES` (R7). -/
def maxIbufBytes : Nat := 2 ^ 24

/-- The greatest legal `OBUF_BYTES` (R7). -/
def maxObufBytes : Nat := 2 ^ 28

/-- The constant of the ID register (10_state.md R21). -/
def idValue : Word := 0x48554601

/-- The node index that names no node (R8, glossary). -/
def NIL : BitVec 9 := 0x1FF

/-- The longest code (R8), also the parser's limit (42_decoder.md R163). -/
def maxCodeLen : Nat := 255

/-- A free value: `FREQ[s]` of draw `d` (10_state.md R43, R52; log 5). -/
opaque unspecFreq (d s : Nat) : Word

/-- A free value: the 59 bits of `NODE[i]` of draw `d` (10_state.md R44, R52; 60_exceptions.md R207; log 5, log 7). -/
opaque unspecNode (d i : Nat) : BitVec 59

/-- A free value: `CBITS[s]` of draw `d`, cut to 255 bits where it is stored (10_state.md R45, R52; 60_exceptions.md
R207; log 5, log 7). -/
opaque unspecCode (d s : Nat) : Bits

/-- A free value: `IBUF[k]` as the reset named by draw `d` left it (10_state.md R47, R52; log 6). -/
opaque unspecIbuf (d k : Nat) : Byte

/-- A free value: `OBUF[k]` as the reset or the failed command named by draw `d` left it (10_state.md R48, R52;
60_exceptions.md R207; log 6, log 7). -/
opaque unspecObuf (d k : Nat) : Byte

/-- A free value: the register at register-page offset `off` after the failed command named by draw `d` (60_exceptions.md
R207; log 7, log 23). -/
opaque unspecReg (d off : Nat) : Word

/-- A free value: what the read named by draw `d` returns while the engine is busy (20_memory.md R72; log 8). -/
opaque unspecRead (d : Nat) : Word

end Config

end Sys2Proof
end

