-- ==== Sys2Proof/Transaction.lean ====
section
/-! DEFINITION. What reaches the block from outside (spec/20_memory.md R60; spec/70_reset_and_hazards.md R230) and what it
answers: host transactions, their responses, and the events of the single total order of R73 and R74. -/

namespace Sys2Proof

/-- The size of a host access: 1, 2 or 4 bytes (R60). -/
inductive Size where
  | byte
  | half
  | word
deriving DecidableEq, Repr

/-- The size as a number of bytes. -/
def Size.bytes : Size → Nat
  | .byte => 1
  | .half => 2
  | .word => 4

/-- A host transaction (R60). `addr` is a byte address relative to the block's base; of `data` only the low
`size.bytes` bytes exist (log 19). -/
inductive Txn where
  | read (addr : Word) (size : Size)
  | write (addr : Word) (size : Size) (data : Word)
deriving DecidableEq, Repr

/-- The response of a transaction (R60): OK or ERR, and for a read its data, zero when the response is ERR. -/
structure Response where
  /-- The response is OK. -/
  ok : Bool
  /-- The data of a read, absent for a write. -/
  data : Option Word
deriving DecidableEq, Repr

/-- One event of the order in which the block sees the world (R73, R74; log 2). -/
inductive Event where
  /-- The host issues a transaction. -/
  | host (t : Txn)
  /-- The engine takes its turn: it executes the command in progress, if there is one (R74). -/
  | engine
  /-- The platform resets the block (R230; log 20). -/
  | hardReset
deriving DecidableEq, Repr

end Sys2Proof
end

