-- ==== Sys2Proof/Machine/State.lean ====
section
/-! DEFINITION. Everything the spec gives the machine (spec/10_state.md R20 to R52), as plain data, and the state right
after a hard reset (R52; spec/70_reset_and_hazards.md R230). -/

namespace Sys2Proof.Machine

/-- Why the machine stops. It never does: the block reports every error in STATUS and goes on (60_exceptions.md R205 to
R209), and a bad access is answered with ERR (20_memory.md R60). So there is no constructor (log 22; safe or unsafe does
not arise: nobody raises one). -/
inductive Fault where
deriving DecidableEq, Repr

/-- Why the model has no meaning for a command. -/
inductive Refusal where
  /-- Raised only by an arm of `exec` whose command has no meaning yet; every command has one, so nobody raises it.
  Safe: the model stops where the hardware goes on. -/
  | notModelled (mnemonic : String)
deriving DecidableEq, Repr

/-- The engine phase (R49). -/
inductive Phase where
  | idle
  | busy (op : Instr)
deriving DecidableEq, Repr

/-- One entry of the node arena (R44). -/
structure Node where
  leaf : Bool
  weight : Word
  /-- Meaningful when `leaf` holds. -/
  symbol : Byte
  left : BitVec 9
  right : BitVec 9
deriving DecidableEq, Repr

/-- The zero entry: every field 0 (R44; 41_encoder.md R128; 43_control.md R191). -/
def Node.zero : Node := ⟨false, 0, 0, 0, 0⟩

/-- A buffer (R47, R48). `cells` lists, by rising offset, the bytes written since the buffer last became UNSPEC as a
whole; an offset it does not list holds the free value named by `epoch` (log 6). -/
structure Memory where
  cells : List Host.Cell
  epoch : Nat
deriving DecidableEq, Repr

/-- The canonical form: offsets strictly rising, so no offset is listed twice. -/
abbrev Memory.wf (m : Memory) : Prop := (m.cells.map Prod.fst).Pairwise (· < ·)

/-- The machine. Registers are named as in 10_state.md section 2; a register the spec gives fewer than 32 bits holds just
its field, and its other bits read zero. -/
structure State where
  /-- The sizes of this part (00_scope.md R7); the registers IBUF_SIZE and OBUF_SIZE (R22, R23). Never written. -/
  params : Params
  /-- CMD (R24). -/
  cmd : Word
  /-- STATUS.DONE (R27). -/
  done : Bool
  /-- STATUS.ERR (R28). -/
  err : Bool
  /-- STATUS.WIGN (R29). -/
  wign : Bool
  /-- STATUS.ERRCODE (R25). -/
  errcode : BitVec 4
  /-- STATUS.ERRINFO (R25). -/
  errinfo : BitVec 8
  /-- IRQ_EN.DONE_IE (R30). -/
  doneIE : Bool
  /-- IRQ_EN.ERR_IE (R30). -/
  errIE : Bool
  /-- VALID.FREQ_V (R31). -/
  freqV : Bool
  /-- VALID.TREE_V (R31). -/
  treeV : Bool
  /-- VALID.CODE_V (R31). -/
  codeV : Bool
  /-- VALID.CSRC (R31). -/
  csrc : Bool
  /-- IN_LEN (R32). -/
  inLen : Word
  /-- OUT_LEN (R33). -/
  outLen : Word
  /-- NSYM (R34). -/
  nsym : BitVec 9
  /-- NCODE (R35). -/
  ncode : BitVec 9
  /-- NNODES (R36). -/
  nnodes : BitVec 10
  /-- ROOT (R37). -/
  root : BitVec 9
  /-- MAXLEN (R38). -/
  maxlen : BitVec 8
  /-- TOTAL_BITS (R39). -/
  totalBits : Word
  /-- PAD (R40). -/
  pad : BitVec 3
  /-- HDR_LEN (R41). -/
  hdrLen : Word
  /-- FREQ (R43). -/
  freq : Vector Word 256
  /-- NODE (R44). -/
  node : Vector Node 511
  /-- CBITS (R45); CLEN[s] is the length of entry s (log 16). -/
  code : Vector Bits 256
  /-- IBUF (R47). -/
  ibuf : Memory
  /-- OBUF (R48). -/
  obuf : Memory
  /-- The engine phase (R49); STATUS.BUSY is computed from it (R26). -/
  phase : Phase
  /-- The model's own: what is still to come from outside, next event first (log 2). -/
  events : List Event
  /-- The model's own: the response to the last host transaction (log 10). -/
  resp : Option Response
  /-- The model's own: the number that names the next free value (log 9). -/
  draw : Nat
deriving DecidableEq, Repr

/-- A table of `n` entries, entry `i` being `f i`. -/
def tabulate {α : Type} (n : Nat) (f : Nat → α) : Vector α n :=
  ⟨((List.range n).map f).toArray, by simp⟩

/-- The node entry whose fields are the parts of 59 bits, LEAF first. -/
def Node.ofBits (v : BitVec 59) : Node :=
  ⟨v.getLsbD 58, v.extractLsb' 26 32, v.extractLsb' 18 8, v.extractLsb' 9 9, v.extractLsb' 0 9⟩

/-- The state right after a hard reset of a part (R52): listed registers at their values; arrays and buffers UNSPEC,
their free values named by draw `d` (log 5, log 6). -/
def State.resetWith (p : Params) (d : Nat) (events : List Event) : State where
  params := p
  cmd := 0
  done := false
  err := false
  wign := false
  errcode := 0
  errinfo := 0
  doneIE := false
  errIE := false
  freqV := false
  treeV := false
  codeV := false
  csrc := false
  inLen := 0
  outLen := 0
  nsym := 0
  ncode := 0
  nnodes := 0
  root := Config.NIL
  maxlen := 0
  totalBits := 0
  pad := 0
  hdrLen := 0
  freq := tabulate 256 (Config.unspecFreq d)
  node := tabulate 511 (fun i => Node.ofBits (Config.unspecNode d i))
  code := tabulate 256 (fun s => (Config.unspecCode d s).take Config.maxCodeLen)
  ibuf := ⟨[], d⟩
  obuf := ⟨[], d⟩
  phase := .idle
  events := events
  resp := none
  draw := d + 1

/-- The machine right after reset: a part of the suggested sizes (log 1), no event pending (log 2). -/
def State.reset : State := State.resetWith Config.suggested 0 []

end Sys2Proof.Machine
end

