-- ==== Sys2Proof/Machine/Ops.lean ====
section
/-! DEFINITION. The named operations every command shares: buffers and arrays (spec/10_state.md R43 to R48), errors
(spec/60_exceptions.md R200, R201), the launch check, launch, completion and the taking of an error (R202 to R207), the
outputs an error leaves UNSPEC (R207), and hard reset (spec/70_reset_and_hazards.md R230, R231). -/

namespace Sys2Proof.Machine

/-! ### Buffers -/

/-- Put byte `v` at offset `k`, keeping the offsets rising. -/
def insertCell (k : Nat) (v : Byte) : List Host.Cell → List Host.Cell
  | [] => [(k, v)]
  | c :: cs =>
    if k < c.1 then (k, v) :: c :: cs
    else if k = c.1 then (k, v) :: cs
    else c :: insertCell k v cs

/-- The byte the buffer lists at offset `k`, if any. -/
def Memory.get? (m : Memory) (k : Nat) : Option Byte := m.cells.lookup k

/-- Store one byte. -/
def Memory.put (m : Memory) (k : Nat) (v : Byte) : Memory := { m with cells := insertCell k v m.cells }

/-- Store consecutive bytes from offset `k`. -/
def Memory.putBytes (m : Memory) (k : Nat) : List Byte → Memory
  | [] => m
  | b :: bs => (m.put k b).putBytes (k + 1) bs

/-- Every byte becomes UNSPEC: nothing listed, the free values those of draw `d` (log 6, log 7). -/
def Memory.unspecified (d : Nat) : Memory := ⟨[], d⟩

/-- `IBUF[k]` (R47): the byte stored, or the free value it has held since the last reset (log 6). -/
def State.ibufByte (s : State) (k : Nat) : Byte := (s.ibuf.get? k).getD (Config.unspecIbuf s.ibuf.epoch k)

/-- `OBUF[k]` (R48): the byte stored, or the free value it has held since it last became UNSPEC (log 6). -/
def State.obufByte (s : State) (k : Nat) : Byte := (s.obuf.get? k).getD (Config.unspecObuf s.obuf.epoch k)

/-- `IBUF[k..k+n-1]`. -/
def State.ibufBytes (s : State) (k n : Nat) : List Byte := (List.range n).map fun i => s.ibufByte (k + i)

/-- `IBUF[0..IN_LEN-1]`, the input of COUNT, PACK and PARSE (R47). -/
def State.input (s : State) : List Byte := s.ibufBytes 0 s.inLen.toNat

/-! ### Arrays -/

/-- An entry of a table indexed by symbol. -/
def atSymbol {α : Type} (t : Vector α 256) (b : Byte) : α := t[b.toNat]'b.isLt

/-- A table indexed by symbol with one entry replaced. -/
def setSymbol {α : Type} (t : Vector α 256) (b : Byte) (v : α) : Vector α 256 := t.set b.toNat v b.isLt

/-- The code table without an entry (R45). -/
def emptyTable : Vector Bits 256 := Vector.replicate 256 []

/-- The number of entries of a code table: the symbols with CLEN ≠ 0 (41_encoder.md R133). -/
def tableSize (t : Vector Bits 256) : Nat := t.toList.countP fun c => c ≠ []

/-- The greatest code length of a code table (R38; 41_encoder.md R133). -/
def tableMaxLen (t : Vector Bits 256) : Nat := (t.toList.map List.length).foldl max 0

/-! ### Errors -/

/-- The causes of a FormatError (42_decoder.md R166). -/
inductive FormatError where
  | truncated
  | badNumber
  | badSeparator
  | badCount
  | badSymbol
  | badCode
  | codeTooLong
  | dupSymbol
  | prefixConflict
  | countMismatch
  | badPad
  | padNoData
deriving DecidableEq, Repr

/-- The sub-code of a FormatError (42_decoder.md R166). -/
def FormatError.info : FormatError → BitVec 8
  | .truncated => 1
  | .badNumber => 2
  | .badSeparator => 3
  | .badCount => 4
  | .badSymbol => 5
  | .badCode => 6
  | .codeTooLong => 7
  | .dupSymbol => 8
  | .prefixConflict => 9
  | .countMismatch => 10
  | .badPad => 11
  | .padNoData => 12

/-- The errors the block reports, with their sub-codes (R200, R201). Code 4, IOError, is never raised (R200). -/
inductive Error where
  /-- EmptyInputError. -/
  | emptyInput
  /-- FormatError. -/
  | format (cause : FormatError)
  /-- CorruptStreamError DEAD: the candidate is a prefix of no code. -/
  | dead
  /-- CorruptStreamError LEFTOVER: the stream ended with a non-empty candidate. -/
  | leftover
  /-- IllegalCommand. -/
  | illegalCommand
  /-- SequenceError. -/
  | sequence
  /-- CapacityError IN: IN_LEN > IBUF_BYTES. -/
  | capacityIn
  /-- CapacityError OUT: the output does not fit in OBUF_BYTES. -/
  | capacityOut
deriving DecidableEq, Repr

/-- The error code (R200). -/
def Error.code : Error → BitVec 4
  | .emptyInput => 1
  | .format _ => 2
  | .dead => 3
  | .leftover => 3
  | .illegalCommand => 5
  | .sequence => 6
  | .capacityIn => 7
  | .capacityOut => 7

/-- The sub-code (R201). -/
def Error.info : Error → BitVec 8
  | .emptyInput => 0
  | .format c => c.info
  | .dead => 1
  | .leftover => 2
  | .illegalCommand => 0
  | .sequence => 0
  | .capacityIn => 1
  | .capacityOut => 2

/-- Taking an error: what a launch error does at the CMD write (R205) and an execution error at the engine step (R207).
At a launch error the phase is IDLE already. -/
def State.takeError (s : State) (e : Error) : State :=
  { s with phase := .idle, done := true, err := true, errcode := e.code, errinfo := e.info }

/-! ### Launch and completion -/

/-- Successful completion (R206). -/
def State.complete (s : State) : State := { s with phase := .idle, done := true }

/-- A successful launch (R204). -/
def State.launch (s : State) (op : Instr) : State :=
  { s with phase := .busy op, done := false, err := false, errcode := 0, errinfo := 0 }

/-- IN_LEN > IBUF_BYTES is a CapacityError (R202). -/
def State.checkInput (s : State) : Option Error :=
  if s.inLen.toNat > s.params.ibufBytes then some .capacityIn else none

/-- A stage whose required valid bits do not hold is a SequenceError (R202). -/
def checkStage (ready : Bool) : Option Error := if ready then none else some .sequence

/-- The launch check of a legal command (R202; the launch check column of 30_encoding.md R92). -/
def launchCheck (op : Instr) (s : State) : Option Error :=
  match op with
  | .nop => none
  | .count => s.checkInput
  | .build => checkStage s.freqV
  | .gencode => checkStage s.treeV
  | .pack => checkStage (s.freqV && s.codeV && !s.csrc)
  | .compress => s.checkInput
  | .parse => s.checkInput
  | .decode => checkStage (s.codeV && s.csrc)
  | .decompress => s.checkInput
  | .clear => none

/-- Launch or launch error (R202), CMD holding the word already. -/
def launchOrReject (op : Instr) (s : State) : State :=
  match launchCheck op s with
  | none => s.launch op
  | some e => s.takeError e

/-- How a command's pseudocode ends: at its end, or at a `raise` (00_scope.md R12). -/
inductive Run where
  | done (s : State)
  | raised (e : Error) (s : State)
deriving DecidableEq, Repr

/-- The next part of a composite command runs when the part before it did not raise (R203). -/
def Run.andThen (r : Run) (next : State → Run) : Run :=
  match r with
  | .done s => next s
  | .raised e s => .raised e s

/-- Completion of a command (R206, R207). -/
def Run.finish : Run → State
  | .done s => s.complete
  | .raised e s => s.takeError e

/-- A command at the point the machine has reached (log 4). While the engine is IDLE the command is the word just written
to CMD: it is launched or rejected (R202). While the engine is BUSY the engine executes it, in one atomic step, and completes
it (20_memory.md R74; R206, R207). -/
def runCommand (op : Instr) (body : State → Run) (s : State) : Host.Outcome State Fault Refusal :=
  match s.phase with
  | .idle => .next (launchOrReject op s)
  | .busy _ => .next (body s).finish

/-! ### UNSPEC outputs of a failing command (R207's table; log 7) -/

/-- A register's value after an error that leaves it UNSPEC (log 23). -/
def State.unspecReg (s : State) (off : Nat) : Word := Config.unspecReg s.draw off

/-- BUILD (EmptyInputError): NODE, NNODES, ROOT. -/
def State.unspecTree (s : State) : State :=
  { s with
    node := tabulate 511 (fun i => Node.ofBits (Config.unspecNode s.draw i))
    nnodes := (s.unspecReg 0x030).setWidth 10
    root := (s.unspecReg 0x034).setWidth 9
    draw := s.draw + 1 }

/-- PACK (CapacityError 2): OBUF, OUT_LEN, TOTAL_BITS, PAD, HDR_LEN. -/
def State.unspecContainer (s : State) : State :=
  { s with
    obuf := Memory.unspecified s.draw
    outLen := s.unspecReg 0x024
    totalBits := s.unspecReg 0x03C
    pad := (s.unspecReg 0x040).setWidth 3
    hdrLen := s.unspecReg 0x044
    draw := s.draw + 1 }

/-- PARSE (FormatError): CLEN, CBITS, NCODE, MAXLEN, PAD, HDR_LEN, TOTAL_BITS. -/
def State.unspecTable (s : State) : State :=
  { s with
    code := tabulate 256 (fun i => (Config.unspecCode s.draw i).take Config.maxCodeLen)
    ncode := (s.unspecReg 0x02C).setWidth 9
    maxlen := (s.unspecReg 0x038).setWidth 8
    totalBits := s.unspecReg 0x03C
    pad := (s.unspecReg 0x040).setWidth 3
    hdrLen := s.unspecReg 0x044
    draw := s.draw + 1 }

/-- DECODE (CorruptStreamError, CapacityError 2): OBUF, OUT_LEN. -/
def State.unspecOutput (s : State) : State :=
  { s with
    obuf := Memory.unspecified s.draw
    outLen := s.unspecReg 0x024
    draw := s.draw + 1 }

/-! ### Hard reset -/

/-- A hard reset at any point (70_reset_and_hazards.md R230, R231): the reset state of this part, with new free values, so
that nothing says the UNSPEC state of two resets is equal (log 5, log 20). -/
def State.hardReset (s : State) : State := State.resetWith s.params s.draw s.events

end Sys2Proof.Machine
end

