-- ==== Sys2Proof/Machine/Control.lean ====
section
/-! DEFINITION. The control commands (spec/43_control.md R190, R191). -/

namespace Sys2Proof.Machine

/-- NOP's pseudocode: nothing (R190). -/
def nopBody (s : State) : Run := .done s

/-- NOP (R190). -/
def execNop (s : State) : Host.Outcome State Fault Refusal := runCommand .nop nopBody s

/-- CLEAR's pseudocode (R191): the stage results return to their empty state. -/
def clearBody (s : State) : Run :=
  .done { s with
    freq := Vector.replicate 256 0
    code := emptyTable
    node := Vector.replicate 511 Node.zero
    freqV := false
    treeV := false
    codeV := false
    csrc := false
    outLen := 0
    nsym := 0
    ncode := 0
    nnodes := 0
    maxlen := 0
    totalBits := 0
    pad := 0
    hdrLen := 0
    root := Config.NIL }

/-- CLEAR (R191). -/
def execClear (s : State) : Host.Outcome State Fault Refusal := runCommand .clear clearBody s

end Sys2Proof.Machine
end

