-- ==== Sys2Proof/Machine/Operands.lean ====
section
/-! DEFINITION. The forms in which commands and transactions read and write their operands: bits of packed bytes
(spec/20_memory.md R66), little-endian words (R64), decimal numbers and codes as text (spec/30_encoding.md R103, R104),
and the window words of the internal arrays (spec/10_state.md R44, R45). -/

namespace Sys2Proof.Machine

/-! ### Bits, most significant first -/

/-- The number whose `n` bits, most significant first, are the first `n` of the string, zeros after its end. -/
def packNat : Nat → Bits → Nat
  | 0, _ => 0
  | n + 1, bs => (bs.headD false).toNat * 2 ^ n + packNat n bs.tail

/-- `pack8` (00_scope.md R11, 20_memory.md R66): the first bit of the string is bit 7. -/
def pack8 (bs : Bits) : Byte := BitVec.ofNat 8 (packNat 8 bs)

/-- The `n` packed bytes of a stream: byte `j` is `pack8(bits<8j..8j+8>)` (R66; 41_encoder.md R144). -/
def packBytes : Nat → Bits → List Byte
  | 0, _ => []
  | n + 1, bs => pack8 (bs.take 8) :: packBytes n (bs.drop 8)

/-- The eight bits of a byte, bit 7 first (R66; 42_decoder.md R171). -/
def byteBits (b : Byte) : Bits := (List.range 8).map fun t => b.getLsbD (7 - t)

/-- The first `n` bits of the raw bytes from offset `k` of IBUF: bit `j` is bit `7 − (j mod 8)` of byte `j / 8`
(42_decoder.md R171); the byte that holds bit `n − 1` is the last one read. -/
def State.streamBits (s : State) (k n : Nat) : Bits := ((s.ibufBytes k ((n + 7) / 8)).flatMap byteBits).take n

/-! ### Little-endian words -/

/-- `Σ byte_i × 256^i` (20_memory.md R64). -/
def leNat : List Byte → Nat
  | [] => 0
  | b :: bs => b.toNat + 256 * leNat bs

/-- The data of a read of bytes, lowest offset least significant (R64). -/
def leWord (bs : List Byte) : Word := BitVec.ofNat 32 (leNat bs)

/-- The `n` bytes a write of `v` stores: byte `i` is `v[8i+7:8i]` (R64). -/
def leBytes (n : Nat) (v : Word) : List Byte := (List.range n).map fun i => v.extractLsb' (8 * i) 8

/-! ### Text -/

/-- The ASCII digit of a number 0 to 9 (00_scope.md R13). -/
def digit (d : Nat) : Byte := BitVec.ofNat 8 (0x30 + d)

/-- The shortest decimal spelling of a number 0 to 999 (30_encoding.md R103). -/
def dec (v : Nat) : List Byte :=
  if v < 10 then [digit v]
  else if v < 100 then [digit (v / 10), digit (v % 10)]
  else [digit (v / 100), digit (v / 10 % 10), digit (v % 10)]

/-- A code as text, one character a bit (30_encoding.md R104). -/
def asciiCode (c : Bits) : List Byte := c.map fun b => if b then Ascii.one else Ascii.zero

/-- `isdigit` (42_decoder.md R161). -/
def isDigit (b : Byte) : Bool := decide (0x30 ≤ b.toNat) && decide (b.toNat ≤ 0x39)

/-! ### Window words of the arrays -/

/-- The two words of a node entry (10_state.md R44): word 0 is WEIGHT; word 1 holds LEFT in bits 8:0, RIGHT in bits 17:9,
SYMBOL in bits 25:18 (0 for an internal node, log 17), zeros in bits 30:26 and LEAF in bit 31. -/
def Node.word (nd : Node) (second : Bool) : Word :=
  if second then
    BitVec.ofBool nd.leaf ++ (0 : BitVec 5) ++ (if nd.leaf then nd.symbol else 0) ++ nd.right ++ nd.left
  else nd.weight

/-- Word `w` of the NODE window: entry `w / 2`; slot 511 is no entry and reads zero (R44). -/
def nodeWindowWord (nodes : Vector Node 511) (w : Nat) : Word :=
  match nodes[w / 2]? with
  | some nd => nd.word (w % 2 == 1)
  | none => 0

/-- Word `w` of the FREQ window: `FREQ[w]` (R43). -/
def freqWindowWord (freq : Vector Word 256) (w : Nat) : Word := freq[w]?.getD 0

/-- Code word `w` of a code (R45): its bit `31 − t` is code bit `32w + t`, zero past the end. -/
def codeWord (c : Bits) (w : Nat) : Word := BitVec.ofNat 32 (packNat 32 (c.drop (32 * w)))

/-- Word `w` of the CODE window: 16 words a symbol, CLEN, then the eight code words, then zeros (R45). -/
def codeWindowWord (code : Vector Bits 256) (w : Nat) : Word :=
  let c := code[w / 16]?.getD []
  match w % 16 with
  | 0 => (BitVec.ofNat 8 c.length).setWidth 32
  | j + 1 => if j < 8 then codeWord c j else 0

end Sys2Proof.Machine
end

