-- ==== Sys2Proof/Machine/Decoder.lean ====
section
/-! DEFINITION. The decoder commands (spec/42_decoder.md): PARSE, DECODE, DECOMPRESS. The parser reads the list of the
bytes from its offset `p` to the end of the container, so `p` is IN_LEN less that list's length and `need()` fails exactly
on the empty list (log 21). -/

namespace Sys2Proof.Machine

/-! ### PARSE (R160 to R168) -/

/-- The loop of `parse_num` (R161): `v` is the value so far and `d` the digits read. -/
def numLoop (v d : Nat) : List Byte → Except FormatError (Nat × List Byte)
  | [] => .error .truncated
  | c :: rest =>
    if isDigit c then
      if d = 3 ∨ (d = 1 ∧ v = 0) then .error .badNumber
      else numLoop (10 * v + (c.toNat - 0x30)) (d + 1) rest
    else .ok (v, c :: rest)

/-- `parse_num` (R161): a value and the bytes from its terminator on. -/
def parseNum : List Byte → Except FormatError (Nat × List Byte)
  | [] => .error .truncated
  | c :: rest => if isDigit c then numLoop 0 0 (c :: rest) else .error .badNumber

/-- The byte after a number must be `sep` (R162, R163): the bytes after it. -/
def expectByte (sep : Byte) : List Byte → Except FormatError (List Byte)
  | [] => .error .truncated
  | c :: rest => if c = sep then .ok rest else .error .badSeparator

/-- `parse_count_line` (R162). -/
def parseCountLine (bytes : List Byte) : Except FormatError (Nat × List Byte) := do
  let (count, rest) ← parseNum bytes
  let rest ← expectByte Ascii.LF rest
  if count = 0 ∨ count > 256 then .error .badCount else .ok (count, rest)

/-- The code characters of an entry line (R163): the code and the bytes after its LF. -/
def codeLoop (c : Bits) : List Byte → Except FormatError (Bits × List Byte)
  | [] => .error .truncated
  | b :: rest =>
    if b = Ascii.LF then if c = [] then .error .badCode else .ok (c, rest)
    else if b ≠ Ascii.zero ∧ b ≠ Ascii.one then .error .badCode
    else if c.length = Config.maxCodeLen then .error .codeTooLong
    else codeLoop (c ++ [decide (b = Ascii.one)]) rest

/-- `prefix(a, b) or prefix(b, a)` for some entry (R164). -/
def conflicts (table : Vector Bits 256) (c : Bits) : Bool :=
  table.toList.any fun e => e ≠ [] && (c.isPrefixOf e || e.isPrefixOf c)

/-- The second part of `parse_entry`: validate and store the entry (R164). -/
def storeEntry (table : Vector Bits 256) (v : Byte) (c : Bits) : Except FormatError (Vector Bits 256) :=
  if atSymbol table v ≠ [] then .error .dupSymbol
  else if conflicts table c then .error .prefixConflict
  else .ok (setSymbol table v c)

/-- `parse_entry(v)` (R163, R164): the table with the entry and the bytes after its line. -/
def parseEntry (table : Vector Bits 256) (v : Nat) (bytes : List Byte) :
    Except FormatError (Vector Bits 256 × List Byte) := do
  let rest ← expectByte Ascii.SP bytes
  if v > 255 then .error .badSymbol
  else
    let (c, rest) ← codeLoop [] rest
    let table ← storeEntry table (BitVec.ofNat 8 v) c
    .ok (table, rest)

/-- What the entry lines and the padding line hold. -/
structure Lines where
  table : Vector Bits 256
  /-- The number of entry lines. -/
  entries : Nat
  /-- The value of the padding line. -/
  pad : Nat
  /-- The bytes after the padding line: the raw section. -/
  raw : List Byte
deriving DecidableEq, Repr

/-- The loop of PARSE (R160): entry lines until the padding line. Each line takes bytes away, so a `fuel` above the number
of bytes is never used up (log 21). -/
def linesLoop : Nat → Vector Bits 256 → Nat → List Byte → Except FormatError Lines
  | 0, _, _, _ => .error .truncated
  | fuel + 1, table, entries, bytes =>
    match parseNum bytes with
    | .error e => .error e
    | .ok (v, rest) =>
      if rest.head? = some Ascii.LF then .ok ⟨table, entries, v, rest.tail⟩
      else
        match parseEntry table v rest with
        | .error e => .error e
        | .ok (table, rest) => linesLoop fuel table (entries + 1) rest

/-- `finish_header`'s checks (R165). -/
def checkLines (count : Nat) (l : Lines) : Except FormatError Lines :=
  if l.entries ≠ count then .error .countMismatch
  else if l.pad > 7 then .error .badPad
  else if l.raw.length = 0 ∧ l.pad ≠ 0 then .error .padNoData
  else .ok l

/-- The parse of a whole container (R160 to R165). -/
def parseContainer (bytes : List Byte) : Except FormatError Lines := do
  let (count, rest) ← parseCountLine bytes
  let lines ← linesLoop (rest.length + 1) emptyTable 0 rest
  checkLines count lines

/-- PARSE's pseudocode (R160). -/
def parseBody (s : State) : Run :=
  let s0 := { s with codeV := false }
  match parseContainer s.input with
  | .error e => .raised (.format e) s0.unspecTable
  | .ok l => .done { s0 with
      code := l.table
      ncode := BitVec.ofNat 9 l.entries
      maxlen := BitVec.ofNat 8 (tableMaxLen l.table)
      pad := BitVec.ofNat 3 l.pad
      hdrLen := BitVec.ofNat 32 (s.input.length - l.raw.length)
      totalBits := BitVec.ofNat 32 (8 * l.raw.length - l.pad)
      csrc := true
      codeV := true }

/-- PARSE (R160). -/
def execParse (s : State) : Host.Outcome State Fault Refusal := runCommand .parse parseBody s

/-! ### DECODE (R170 to R175) -/

/-- The symbol whose code is the candidate (R170, R172; log 15). -/
def matchCode (table : Vector Bits 256) (cand : Bits) : Option Byte :=
  (table.toList.findIdx? fun c => c ≠ [] && c == cand).map (BitVec.ofNat 8)

/-- The candidate is a prefix of some code (R170, R173). -/
def isLive (table : Vector Bits 256) (cand : Bits) : Bool :=
  table.toList.any fun c => c ≠ [] && cand.isPrefixOf c

/-- The decode loop (R170) with `o` bytes emitted before and `cand` the candidate: the bytes emitted from here on. -/
def decodeLoop (table : Vector Bits 256) (cap : Nat) : Nat → Bits → Bits → Except Error (List Byte)
  | _, cand, [] => if cand = [] then .ok [] else .error .leftover
  | o, cand, b :: bits =>
    match matchCode table (cand ++ [b]) with
    | some sym =>
      if o = cap then .error .capacityOut
      else (decodeLoop table cap (o + 1) [] bits).map (sym :: ·)
    | none =>
      if isLive table (cand ++ [b]) then decodeLoop table cap o (cand ++ [b]) bits
      else .error .dead

/-- DECODE's pseudocode (R170). -/
def decodeBody (s : State) : Run :=
  match decodeLoop s.code s.params.obufBytes 0 [] (s.streamBits s.hdrLen.toNat s.totalBits.toNat) with
  | .error e => .raised e s.unspecOutput
  | .ok out => .done { s with
      obuf := s.obuf.putBytes 0 out
      outLen := BitVec.ofNat 32 out.length }

/-- DECODE (R170). -/
def execDecode (s : State) : Host.Outcome State Fault Refusal := runCommand .decode decodeBody s

/-! ### DECOMPRESS (R180) -/

/-- DECOMPRESS's pseudocode: the two parts in order, the first error ending it (R180, R203). -/
def decompressBody (s : State) : Run := (parseBody s).andThen decodeBody

/-- DECOMPRESS (R180). -/
def execDecompress (s : State) : Host.Outcome State Fault Refusal := runCommand .decompress decompressBody s

end Sys2Proof.Machine
end

