-- ==== Sys2Proof/Machine/Encoder.lean ====
section
/-! DEFINITION. The encoder commands (spec/41_encoder.md): COUNT, BUILD, GENCODE, PACK, COMPRESS. -/

namespace Sys2Proof.Machine

/-! ### COUNT (R121) -/

/-- The frequency table of a byte sequence: one increment a byte, from all zeros. -/
def countTable (bytes : List Byte) : Vector Word 256 :=
  bytes.foldl (fun t b => setSymbol t b (atSymbol t b + 1)) (Vector.replicate 256 0)

/-- `#{ s : FREQ[s] ≠ 0 }`. -/
def presentSymbols (freq : Vector Word 256) : Nat := freq.toList.countP fun f => f ≠ 0

/-- COUNT's pseudocode (R121). -/
def countBody (s : State) : Run :=
  let freq := countTable s.input
  .done { s with
    freqV := true
    treeV := false
    codeV := false
    freq := freq
    nsym := BitVec.ofNat 9 (presentSymbols freq) }

/-- COUNT (R121). -/
def execCount (s : State) : Host.Outcome State Fault Refusal := runCommand .count countBody s

/-! ### BUILD (R124 to R130) -/

/-- A member of the priority collection: a node's weight and index (R126; 10_state.md R50). -/
structure Cand where
  weight : Word
  index : Nat
deriving DecidableEq, Repr

/-- The key order of R126, R129: by weight, then by index. -/
def Cand.less (a b : Cand) : Bool :=
  decide (a.weight.toNat < b.weight.toNat) || (a.weight == b.weight && decide (a.index < b.index))

/-- The member with the least key. -/
def leastCand : List Cand → Option Cand
  | [] => none
  | c :: cs =>
    match leastCand cs with
    | none => some c
    | some d => if d.less c then some d else some c

/-- Extract the member with the least key (R126). -/
def extractLeast (q : List Cand) : Option (Cand × List Cand) := (leastCand q).map fun c => (c, q.erase c)

/-- A leaf (R124). -/
def leafNode (s : Nat) (weight : Word) : Node := ⟨true, weight, BitVec.ofNat 8 s, Config.NIL, Config.NIL⟩

/-- The leaves of the symbols from `s` on, ascending, those with a nonzero frequency (R124). -/
def leafNodes : Nat → List Word → List Node
  | _, [] => []
  | s, f :: fs => if f ≠ 0 then leafNode s f :: leafNodes (s + 1) fs else leafNodes (s + 1) fs

/-- The internal node over two extracted nodes: the first extracted is LEFT (R126, R129). -/
def mergeNode (a b : Cand) : Node :=
  ⟨false, a.weight + b.weight, 0, BitVec.ofNat 9 a.index, BitVec.ofNat 9 b.index⟩

/-- The greedy minimum merge (R126) of the collection `q` over the arena `nodes`, at most `fuel` merges; a collection of
`n` members is done after `n − 1`. -/
def mergeAll : Nat → List Cand → List Node → List Node
  | 0, _, nodes => nodes
  | fuel + 1, q, nodes =>
    match extractLeast q with
    | none => nodes
    | some (a, q1) =>
      match extractLeast q1 with
      | none => nodes
      | some (b, q2) =>
        mergeAll fuel (q2 ++ [⟨a.weight + b.weight, nodes.length⟩]) (nodes ++ [mergeNode a b])

/-- The collection of the leaves (R126). -/
def leafCands (leaves : List Node) : List Cand := leaves.zipIdx.map fun (nd, i) => ⟨nd.weight, i⟩

/-- The node of the single-symbol tree over its leaf (R127). -/
def singleNode (leaf : Node) : Node := ⟨false, leaf.weight, 0, 0, Config.NIL⟩

/-- The nodes of the tree over the leaves, in arena order (R124, R126, R127; log 12). -/
def buildNodes (freq : Vector Word 256) : List Node :=
  let leaves := leafNodes 0 freq.toList
  match leaves with
  | [leaf] => [leaf, singleNode leaf]
  | _ => mergeAll leaves.length (leafCands leaves) leaves

/-- The arena holding the given nodes, every further entry zero (R128). -/
def arenaOf (nodes : List Node) : Vector Node 511 :=
  ⟨((nodes ++ List.replicate 511 Node.zero).take 511).toArray, by
    rw [List.size_toArray, List.length_take, List.length_append, List.length_replicate]; omega⟩

/-- `finish` (R128). -/
def State.finishTree (s : State) (nodes : List Node) : State :=
  { s with
    node := arenaOf nodes
    nnodes := BitVec.ofNat 10 nodes.length
    root := BitVec.ofNat 9 (nodes.length - 1)
    treeV := true }

/-- BUILD's pseudocode (R124, R125). -/
def buildBody (s : State) : Run :=
  let s0 := { s with treeV := false, codeV := false }
  if s.nsym = 0 then .raised .emptyInput s0.unspecTree
  else .done (s0.finishTree (buildNodes s.freq))

/-- BUILD (R124). -/
def execBuild (s : State) : Host.Outcome State Fault Refusal := runCommand .build buildBody s

/-! ### GENCODE (R133 to R135) -/

/-- `visit` (R133): the leaves below node `i` with their paths, left to right, at most `depth` levels (log 11). -/
def visit (nodes : Vector Node 511) : Nat → BitVec 9 → Bits → List (Byte × Bits)
  | 0, _, _ => []
  | depth + 1, i, p =>
    match nodes[i.toNat]? with
    | none => []
    | some nd =>
      if nd.leaf then [(nd.symbol, p)]
      else
        visit nodes depth nd.left (p ++ [false]) ++
          (if nd.right ≠ Config.NIL then visit nodes depth nd.right (p ++ [true]) else [])

/-- The code table of a list of symbols with their codes. -/
def tableOf (entries : List (Byte × Bits)) : Vector Bits 256 :=
  entries.foldl (fun t e => setSymbol t e.1 e.2) emptyTable

/-- The code table of the tree at `root` (R133). A leaf lies at most 255 levels below the root (R130). -/
def genTable (nodes : Vector Node 511) (root : BitVec 9) : Vector Bits 256 :=
  tableOf (visit nodes (Config.maxCodeLen + 1) root [])

/-- GENCODE's pseudocode (R133). -/
def gencodeBody (s : State) : Run :=
  let table := genTable s.node s.root
  .done { s with
    code := table
    ncode := BitVec.ofNat 9 (tableSize table)
    maxlen := BitVec.ofNat 8 (tableMaxLen table)
    csrc := false
    codeV := true }

/-- GENCODE (R133). -/
def execGencode (s : State) : Host.Outcome State Fault Refusal := runCommand .gencode gencodeBody s

/-! ### PACK (R140 to R145) -/

/-- `Σ_s FREQ[s] × CLEN[s]` (R141; log 13). -/
def bitTotal (freq : Vector Word 256) (code : Vector Bits 256) : Nat :=
  ((freq.toList.zip code.toList).map fun (f, c) => f.toNat * c.length).sum

/-- `(8 − total mod 8) mod 8` (R141). -/
def padOf (total : Nat) : Nat := (8 - total % 8) % 8

/-- The entry line of symbol `s` (R142; 30_encoding.md R101). -/
def entryLine (s : Nat) (c : Bits) : List Byte := dec s ++ [Ascii.SP] ++ asciiCode c ++ [Ascii.LF]

/-- The entry lines of the symbols from `s` on that have a code, ascending (R142; 30_encoding.md R102). -/
def entryLines : Nat → List Bits → List Byte
  | _, [] => []
  | s, c :: cs => (if c = [] then [] else entryLine s c) ++ entryLines (s + 1) cs

/-- `header(n, pad)` (R142). -/
def header (n pad : Nat) (code : Vector Bits 256) : List Byte :=
  dec n ++ [Ascii.LF] ++ entryLines 0 code.toList ++ dec pad ++ [Ascii.LF]

/-- The codes of the input bytes, in input order, and the padding (R144). -/
def packedBits (code : Vector Bits 256) (input : List Byte) (pad : Nat) : Bits :=
  input.flatMap (atSymbol code) ++ List.replicate pad false

/-- PACK's pseudocode (R140). -/
def packBody (s : State) : Run :=
  let total := bitTotal s.freq s.code
  let pad := padOf total
  let hdr := header s.ncode.toNat pad s.code
  let packed := (total + pad) / 8
  let nout := hdr.length + packed
  if nout > s.params.obufBytes then .raised .capacityOut s.unspecContainer
  else .done { s with
    obuf := s.obuf.putBytes 0 (hdr ++ packBytes packed (packedBits s.code s.input pad))
    outLen := BitVec.ofNat 32 nout
    totalBits := BitVec.ofNat 32 total
    pad := BitVec.ofNat 3 pad
    hdrLen := BitVec.ofNat 32 hdr.length }

/-- PACK (R140). -/
def execPack (s : State) : Host.Outcome State Fault Refusal := runCommand .pack packBody s

/-! ### COMPRESS (R150) -/

/-- COMPRESS's pseudocode: the four parts in order, the first error ending it (R150, R203). -/
def compressBody (s : State) : Run :=
  (((countBody s).andThen buildBody).andThen gencodeBody).andThen packBody

/-- COMPRESS (R150). -/
def execCompress (s : State) : Host.Outcome State Fault Refusal := runCommand .compress compressBody s

end Sys2Proof.Machine
end

