-- ==== Sys2Proof/Machine/Flags.lean ====
section
/-! DEFINITION. The status, valid and interrupt-enable bits as the host sees and writes them (spec/10_state.md R25 to
R31) and the interrupt output (spec/60_exceptions.md R210). -/

namespace Sys2Proof.Machine

/-- STATUS.BUSY: 1 exactly while the phase is BUSY(op) (R26). -/
def State.isBusy (s : State) : Bool :=
  match s.phase with
  | .idle => false
  | .busy _ => true

/-- The STATUS register as read (R25): reserved bits are zero. -/
def State.statusWord (s : State) : Word :=
  (0 : BitVec 8) ++ s.errinfo ++ (0 : BitVec 4) ++ s.errcode ++ (0 : BitVec 4) ++ BitVec.ofBool s.wign ++
    BitVec.ofBool s.err ++ BitVec.ofBool s.done ++ BitVec.ofBool s.isBusy

/-- A host write to STATUS (R25): write 1 to clear DONE, ERR (with ERRCODE and ERRINFO) and WIGN. -/
def State.writeStatus (s : State) (v : Word) : State :=
  { s with
    done := s.done && !v.getLsbD 1
    err := s.err && !v.getLsbD 2
    errcode := if v.getLsbD 2 then 0 else s.errcode
    errinfo := if v.getLsbD 2 then 0 else s.errinfo
    wign := s.wign && !v.getLsbD 3 }

/-- The IRQ_EN register as read (R30): DONE_IE in bit 1, ERR_IE in bit 2, every other bit zero. -/
def State.irqEnWord (s : State) : Word :=
  (0 : BitVec 29) ++ BitVec.ofBool s.errIE ++ BitVec.ofBool s.doneIE ++ (0 : BitVec 1)

/-- A host write to IRQ_EN (R30). -/
def State.writeIrqEn (s : State) (v : Word) : State := { s with doneIE := v.getLsbD 1, errIE := v.getLsbD 2 }

/-- The VALID register as read (R31). -/
def State.validWord (s : State) : Word :=
  (0 : BitVec 28) ++ BitVec.ofBool s.csrc ++ BitVec.ofBool s.codeV ++ BitVec.ofBool s.treeV ++ BitVec.ofBool s.freqV

/-- What an accepted write to IN_LEN or IBUF does to the valid bits (20_memory.md R69): CSRC stays. -/
def State.invalidate (s : State) : State := { s with freqV := false, treeV := false, codeV := false }

/-- An ignored write while busy (20_memory.md R71). -/
def State.ignoreWrite (s : State) : State := { s with wign := true }

/-- The interrupt output (60_exceptions.md R210), a level (log 24). -/
def State.irq (s : State) : Bool := (s.done && s.doneIE) || (s.err && s.errIE)

end Sys2Proof.Machine
end

