-- ==== Sys2Proof/Machine/Bus.lean ====
section
/-! DEFINITION. The host interface (spec/20_memory.md): the address map, legal accesses, reads, writes, and the CMD write
that hands a command to `exec`. -/

namespace Sys2Proof.Machine

/-- What a legal transaction addresses (R61). -/
inductive Target where
  /-- The register at a register-page offset. -/
  | reg (off : Nat)
  /-- A word of the FREQ window. -/
  | freq (w : Nat)
  /-- A word of the NODE window. -/
  | node (w : Nat)
  /-- A word of the CODE window. -/
  | code (w : Nat)
  /-- IBUF from an offset. -/
  | ibuf (k : Nat)
  /-- OBUF from an offset. -/
  | obuf (k : Nat)
deriving DecidableEq, Repr

/-- An access to the register page or an array window is a 4-byte aligned 32-bit access (R62). -/
def wordAccess (a : Nat) (size : Size) (t : Target) : Option Target :=
  if size = .word ∧ a % 4 = 0 then some t else none

/-- An access to a buffer of `len` bytes is naturally aligned and in bounds (R64). -/
def bufferAccess (k len : Nat) (size : Size) (t : Target) : Option Target :=
  if k % size.bytes = 0 ∧ k + size.bytes ≤ len then some t else none

/-- The address map (R61) with the access rules (R62, R64): nothing where the response is ERR. -/
def resolve (p : Params) (addr : Word) (size : Size) : Option Target :=
  let a := addr.toNat
  if a < 0x100 then wordAccess a size (.reg a)
  else if 0x400 ≤ a ∧ a < 0x800 then wordAccess a size (.freq ((a - 0x400) / 4))
  else if 0x1000 ≤ a ∧ a < 0x2000 then wordAccess a size (.node ((a - 0x1000) / 4))
  else if 0x4000 ≤ a ∧ a < 0x8000 then wordAccess a size (.code ((a - 0x4000) / 4))
  else if 0x01000000 ≤ a ∧ a < 0x01000000 + p.ibufBytes then
    bufferAccess (a - 0x01000000) p.ibufBytes size (.ibuf (a - 0x01000000))
  else if 0x10000000 ≤ a ∧ a < 0x10000000 + p.obufBytes then
    bufferAccess (a - 0x10000000) p.obufBytes size (.obuf (a - 0x10000000))
  else none

/-! ### Reads -/

/-- The value of the register at an offset (10_state.md R21 to R42); a reserved offset reads zero (R42). -/
def State.readReg (s : State) (off : Nat) : Word :=
  match off with
  | 0x000 => Config.idValue
  | 0x004 => BitVec.ofNat 32 s.params.ibufBytes
  | 0x008 => BitVec.ofNat 32 s.params.obufBytes
  | 0x010 => s.cmd
  | 0x014 => s.statusWord
  | 0x018 => s.irqEnWord
  | 0x01C => s.validWord
  | 0x020 => s.inLen
  | 0x024 => s.outLen
  | 0x028 => s.nsym.setWidth 32
  | 0x02C => s.ncode.setWidth 32
  | 0x030 => s.nnodes.setWidth 32
  | 0x034 => s.root.setWidth 32
  | 0x038 => s.maxlen.setWidth 32
  | 0x03C => s.totalBits
  | 0x040 => s.pad.setWidth 32
  | 0x044 => s.hdrLen
  | _ => 0

/-- The value of a location (R62, R64). -/
def State.readTarget (s : State) (t : Target) (size : Size) : Word :=
  match t with
  | .reg off => s.readReg off
  | .freq w => freqWindowWord s.freq w
  | .node w => nodeWindowWord s.node w
  | .code w => codeWindowWord s.code w
  | .ibuf k => leWord ((List.range size.bytes).map fun i => s.ibufByte (k + i))
  | .obuf k => leWord ((List.range size.bytes).map fun i => s.obufByte (k + i))

/-- The locations a read of which returns UNSPEC while the engine is busy (R72): the result registers, VALID, and every
word of the FREQ, NODE, CODE and OBUF windows. -/
def Target.unspecWhileBusy : Target → Bool
  | .reg off => decide (off ∈ [0x01C, 0x024, 0x028, 0x02C, 0x030, 0x034, 0x038, 0x03C, 0x040, 0x044])
  | .freq _ => true
  | .node _ => true
  | .code _ => true
  | .ibuf _ => false
  | .obuf _ => true

/-- The low `size` bytes of a word: the data of an access of that size. -/
def cutTo (size : Size) (v : Word) : Word :=
  match size with
  | .byte => (v.setWidth 8).setWidth 32
  | .half => (v.setWidth 16).setWidth 32
  | .word => v

/-- A response recorded (log 10). -/
def State.respond (s : State) (r : Response) : State := { s with resp := some r }

/-- A legal read (R62, R64, R65); while busy an UNSPEC location gives a free value, each read its own (R72; log 8). -/
def State.readOk (s : State) (t : Target) (size : Size) : State :=
  if s.isBusy && t.unspecWhileBusy then
    { s with draw := s.draw + 1 }.respond ⟨true, some (cutTo size (Config.unspecRead s.draw))⟩
  else s.respond ⟨true, some (s.readTarget t size)⟩

/-- A host read (R60). -/
def State.hostRead (s : State) (addr : Word) (size : Size) : State :=
  match resolve s.params addr size with
  | none => s.respond ⟨false, some 0⟩
  | some t => s.readOk t size

/-! ### Writes -/

/-- The locations a host write to which is accepted while the engine is busy: STATUS and IRQ_EN (R71). -/
def Target.writableWhileBusy : Target → Bool
  | .reg off => decide (off = 0x014 ∨ off = 0x018)
  | .freq _ => false
  | .node _ => false
  | .code _ => false
  | .ibuf _ => false
  | .obuf _ => false

/-- An accepted write to IBUF (R64, R69). -/
def State.writeIbuf (s : State) (k : Nat) (size : Size) (v : Word) : State :=
  { s with ibuf := s.ibuf.putBytes k (leBytes size.bytes v) }.invalidate

/-- An accepted write to IN_LEN (10_state.md R32; R69). -/
def State.writeInLen (s : State) (v : Word) : State := { s with inLen := v }.invalidate

/-- An accepted write other than a CMD write: STATUS, IRQ_EN, IN_LEN and IBUF store; every other location ignores it
(R63, R70). -/
def State.writeTarget (s : State) (t : Target) (size : Size) (v : Word) : State :=
  match t with
  | .reg 0x014 => s.writeStatus v
  | .reg 0x018 => s.writeIrqEn v
  | .reg 0x020 => s.writeInLen v
  | .reg _ => s
  | .freq _ => s
  | .node _ => s
  | .code _ => s
  | .ibuf k => s.writeIbuf k size v
  | .obuf _ => s

/-- A CMD write while the engine is idle (10_state.md R24; 60_exceptions.md R202): all 32 bits are stored, then the word is
decoded; an illegal word is a launch error, a command goes to `exec`. -/
def State.writeCmd (s : State) (v : Word) : Host.Outcome State Fault Refusal :=
  match decode v with
  | .error _ => .next ({ s with cmd := v }.takeError .illegalCommand)
  | .ok i => exec i { s with cmd := v }

/-- A legal write (R63, R69 to R71), the response OK recorded already. -/
def State.writeOk (s : State) (t : Target) (size : Size) (v : Word) : Host.Outcome State Fault Refusal :=
  if s.isBusy && !t.writableWhileBusy then .next s.ignoreWrite
  else if t = .reg 0x010 then s.writeCmd v
  else .next (s.writeTarget t size v)

/-- A host write (R60). -/
def State.hostWrite (s : State) (addr : Word) (size : Size) (v : Word) : Host.Outcome State Fault Refusal :=
  match resolve s.params addr size with
  | none => .next (s.respond ⟨false, none⟩)
  | some t => (s.respond ⟨true, none⟩).writeOk t size v

/-- A host transaction (R60, R73). -/
def State.transact (s : State) (t : Txn) : Host.Outcome State Fault Refusal :=
  match t with
  | .read addr size => .next (s.hostRead addr size)
  | .write addr size v => s.hostWrite addr size v

/-! ### The engine's turn -/

/-- The engine's turn (R74): it executes the command in progress; while IDLE nothing happens (R6: the engine never starts a
command by itself). -/
def State.engineTurn (s : State) : Host.Outcome State Fault Refusal :=
  match s.phase with
  | .idle => .next s
  | .busy op => exec op s

/-- What one event does, the event taken off the list already. -/
def State.handle (s : State) (e : Event) : Host.Outcome State Fault Refusal :=
  match e with
  | .host t => s.transact t
  | .engine => s.engineTurn
  | .hardReset => .next s.hardReset

/-- The host transaction that hands a command word to the block: a 32-bit write to CMD (10_state.md R24). -/
def cmdWrite (w : Word) : Event := .host (.write 0x010 .word w)

end Sys2Proof.Machine
end

