-- ==== Sys2Proof/Machine/Step.lean ====
section
/-! DEFINITION. One step: the next event of the single total order of host transactions, engine steps and hard resets
(spec/20_memory.md R73, R74; spec/70_reset_and_hazards.md R230). -/

namespace Sys2Proof.Machine

/-- One step (log 2). With no event left the engine takes its turn, so a command in progress always completes
(60_exceptions.md R218). -/
def step (s : State) : Host.Outcome State Fault Refusal :=
  match s.events with
  | [] => s.engineTurn
  | e :: rest => { s with events := rest }.handle e

/-- The state in which the very next step hands the row's word to the block: the engine idle and the CMD write of the word
the next event (log 3). -/
def State.withFetchWord (s : State) (nbits w : Nat) : State :=
  { s with phase := .idle, events := cmdWrite (tableWord nbits w) :: s.events }

end Sys2Proof.Machine
end

