-- ==== Sys2Proof/Machine/HostProgram.lean ====
section
/-! DEFINITION. The host's program notation (spec/30_encoding.md R96, R97) as lists of events. -/

namespace Sys2Proof.Machine

/-- `WR32 addr, v` (R96). -/
def wr32 (addr v : Word) : Event := .host (.write addr .word v)

/-- `WR8 addr, v` (R96). -/
def wr8 (addr : Word) (v : Byte) : Event := .host (.write addr .byte (v.setWidth 32))

/-- `WR16 addr, v` (R96). -/
def wr16 (addr : Word) (v : BitVec 16) : Event := .host (.write addr .half (v.setWidth 32))

/-- `RD32 addr` (R96). -/
def rd32 (addr : Word) : Event := .host (.read addr .word)

/-- `RD16 addr` (R96). -/
def rd16 (addr : Word) : Event := .host (.read addr .half)

/-- `RD8 addr` (R96). -/
def rd8 (addr : Word) : Event := .host (.read addr .byte)

/-- `CMD <MNEMONIC>` (R97). -/
def cmdOp (i : Instr) : Event := cmdWrite (encode i)

/-- `WAIT` when the command in progress takes `k` reads (R97): reads of STATUS that see BUSY, the engine step, and the read
that ends the loop. How many reads there are is not specified (60_exceptions.md R218; log 27). -/
def waitOp (k : Nat) : List Event := List.replicate k (rd32 0x014) ++ [.engine, rd32 0x014]

/-- The byte writes of `LOAD`, from offset `k` (R97). -/
def loadBytes (k : Nat) : List Byte → List Event
  | [] => []
  | b :: bs => wr8 (BitVec.ofNat 32 (0x01000000 + k)) b :: loadBytes (k + 1) bs

/-- `LOAD <bytes>` (R97). -/
def loadOp (bytes : List Byte) : List Event := loadBytes 0 bytes ++ [wr32 0x020 (BitVec.ofNat 32 bytes.length)]

/-- `ACK` (R97). -/
def ackOp : Event := wr32 0x014 0x0000000E

/-- `COMPRESS_RUN <bytes>` (R97). -/
def compressRun (bytes : List Byte) (k : Nat) : List Event := loadOp bytes ++ [cmdOp .compress] ++ waitOp k

/-- `DECOMPRESS_RUN <bytes>` (R97). -/
def decompressRun (bytes : List Byte) (k : Nat) : List Event := loadOp bytes ++ [cmdOp .decompress] ++ waitOp k

end Sys2Proof.Machine
end

