-- ==== Sys2Proof/WellFormed.lean ====
section
/-! DEFINITION. The checks on what is written down by hand: a part's parameters (spec/00_scope.md R7), a host transaction's
data (spec/20_memory.md R60), and a command, which carries no operand and so passes always (spec/30_encoding.md R91). -/

namespace Sys2Proof

/-- Both sizes lie in the legal ranges of R7. -/
def Params.wf (p : Params) : Bool :=
  decide (1 ≤ p.ibufBytes) && decide (p.ibufBytes ≤ Config.maxIbufBytes) &&
    decide (1 ≤ p.obufBytes) && decide (p.obufBytes ≤ Config.maxObufBytes)

/-- The data of a write fits its size (R60: "a `size`-byte value"). -/
def Txn.wf : Txn → Bool
  | .read _ _ => true
  | .write _ size data => decide (data.toNat < 256 ^ size.bytes)

/-- Every transaction of the event is well formed. -/
def Event.wf : Event → Bool
  | .host t => t.wf
  | .engine => true
  | .hardReset => true

/-- Every command is well formed: it has no operand that could be out of range (R91). -/
def Instr.wf : Instr → Bool
  | .nop => true
  | .count => true
  | .build => true
  | .gencode => true
  | .pack => true
  | .compress => true
  | .parse => true
  | .decode => true
  | .decompress => true
  | .clear => true

end Sys2Proof
end

