-- ==== Sys2Proof/Safety.lean ====
section
/-! DEFINITION. The terms in which claims are made: the invariant of the machine, prefix-free tables, paths of the tree, the
least key, the violations of the container format, the output bytes, and the states a run can reach. -/

namespace Sys2Proof.Machine

/-- The codes of the table form a prefix code: no entry's code equals, or is a prefix of, another entry's
(spec/10_state.md R46 (a)). -/
def PrefixFree (table : Vector Bits 256) : Prop :=
  ∀ a b : Byte, atSymbol table a ≠ [] → atSymbol table b ≠ [] → atSymbol table a <+: atSymbol table b → a = b

/-- The node at index `i` is reached from `root` by the bits `p`, a 0 going LEFT and a 1 going RIGHT
(spec/41_encoder.md R133). -/
inductive TreePath (nodes : Vector Node 511) (root : BitVec 9) : Bits → BitVec 9 → Prop where
  | here : TreePath nodes root [] root
  | left {p : Bits} {i : BitVec 9} {nd : Node} :
      TreePath nodes root p i → nodes[i.toNat]? = some nd → nd.leaf = false →
        TreePath nodes root (p ++ [false]) nd.left
  | right {p : Bits} {i : BitVec 9} {nd : Node} :
      TreePath nodes root p i → nodes[i.toNat]? = some nd → nd.leaf = false → nd.right ≠ Config.NIL →
        TreePath nodes root (p ++ [true]) nd.right

/-- Index `k` has the least key (WEIGHT, index) among the nodes at the indices below `i` that are not in `used`
(spec/41_encoder.md R126, R129). -/
def LeastKey (nodes : List Node) (i : Nat) (used : List Nat) (k : Nat) : Prop :=
  k < i ∧ k ∉ used ∧ ∃ nd : Node, nodes[k]? = some nd ∧
    ∀ (j : Nat) (other : Node), j < i → j ∉ used → nodes[j]? = some other →
      nd.weight.toNat < other.weight.toNat ∨ (nd.weight = other.weight ∧ k ≤ j)

/-! ### Why a byte string is no container (spec/42_decoder.md R161 to R166) -/

/-- Why a number that ought to come next does not (R161). `dec v` is the spelling of a number without a leading zero. -/
inductive NumberViolation : List Byte → FormatError → Prop where
  | missing : NumberViolation [] .truncated
  /-- The container ends where the number's next digit or the byte after it would be. -/
  | ends {v : Nat} : v ≤ 999 → NumberViolation (dec v) .truncated
  | noDigit {c : Byte} {rest : List Byte} : isDigit c = false → NumberViolation (c :: rest) .badNumber
  | leadingZero {c : Byte} {rest : List Byte} :
      isDigit c = true → NumberViolation (Ascii.zero :: c :: rest) .badNumber
  | fourthDigit {v : Nat} {c : Byte} {rest : List Byte} :
      100 ≤ v → v ≤ 999 → isDigit c = true → NumberViolation (dec v ++ c :: rest) .badNumber

/-- The line of one entry (spec/30_encoding.md R101). -/
def entryText (e : Byte × Bits) : List Byte := dec e.1.toNat ++ Ascii.SP :: (asciiCode e.2 ++ [Ascii.LF])

/-- Entries a table may hold (spec/30_encoding.md R101; spec/42_decoder.md R163, R164): distinct symbols, codes of 1 to 255
bits, none a prefix of another. -/
structure ValidEntries (es : List (Byte × Bits)) : Prop where
  symbols : (es.map Prod.fst).Nodup
  lengths : ∀ e ∈ es, 1 ≤ e.2.length ∧ e.2.length ≤ 255
  codes : es.Pairwise fun a b => ¬ a.2 <+: b.2 ∧ ¬ b.2 <+: a.2

/-- The violation with which the bytes after the count line of `count` and the entry lines of `es` begin: in a number
(R161), in an entry line (R163, R164), or in the padding line (R165). -/
inductive LineViolation (count : Nat) (es : List (Byte × Bits)) : List Byte → FormatError → Prop where
  | number {bytes : List Byte} {e : FormatError} : NumberViolation bytes e → LineViolation count es bytes e
  | separator {v : Nat} {c : Byte} {rest : List Byte} : v ≤ 999 → isDigit c = false → c ≠ Ascii.LF → c ≠ Ascii.SP →
      LineViolation count es (dec v ++ c :: rest) .badSeparator
  | symbol {v : Nat} {rest : List Byte} : 255 < v → v ≤ 999 →
      LineViolation count es (dec v ++ Ascii.SP :: rest) .badSymbol
  | codeEnds {s : Byte} {c : Bits} : c.length ≤ 255 →
      LineViolation count es (dec s.toNat ++ Ascii.SP :: asciiCode c) .truncated
  | codeCharacter {s b : Byte} {c : Bits} {rest : List Byte} : c.length ≤ 255 → b ≠ Ascii.LF → b ≠ Ascii.zero →
      b ≠ Ascii.one → LineViolation count es (dec s.toNat ++ Ascii.SP :: (asciiCode c ++ b :: rest)) .badCode
  | codeTooLong {s : Byte} {c : Bits} {rest : List Byte} : c.length = 256 →
      LineViolation count es (dec s.toNat ++ Ascii.SP :: (asciiCode c ++ rest)) .codeTooLong
  | emptyCode {s : Byte} {rest : List Byte} : LineViolation count es (entryText (s, []) ++ rest) .badCode
  | dupSymbol {s : Byte} {c : Bits} {rest : List Byte} : 1 ≤ c.length → c.length ≤ 255 → s ∈ es.map Prod.fst →
      LineViolation count es (entryText (s, c) ++ rest) .dupSymbol
  | prefixConflict {s : Byte} {c : Bits} {rest : List Byte} : 1 ≤ c.length → c.length ≤ 255 → s ∉ es.map Prod.fst →
      (∃ e ∈ es, c <+: e.2 ∨ e.2 <+: c) → LineViolation count es (entryText (s, c) ++ rest) .prefixConflict
  | countMismatch {v : Nat} {raw : List Byte} : v ≤ 999 → es.length ≠ count →
      LineViolation count es (dec v ++ Ascii.LF :: raw) .countMismatch
  | badPad {v : Nat} {raw : List Byte} : es.length = count → 7 < v → v ≤ 999 →
      LineViolation count es (dec v ++ Ascii.LF :: raw) .badPad
  | padNoData {v : Nat} : es.length = count → 1 ≤ v → v ≤ 7 →
      LineViolation count es (dec v ++ [Ascii.LF]) .padNoData

/-- The first violation of a byte string read as a container: in its count line (R162), or after a count line and some
entry lines without one. -/
inductive Violation : List Byte → FormatError → Prop where
  | number {bytes : List Byte} {e : FormatError} : NumberViolation bytes e → Violation bytes e
  | separator {v : Nat} {c : Byte} {rest : List Byte} : v ≤ 999 → isDigit c = false → c ≠ Ascii.LF →
      Violation (dec v ++ c :: rest) .badSeparator
  | badCount {v : Nat} {rest : List Byte} : v = 0 ∨ 256 < v → v ≤ 999 →
      Violation (dec v ++ Ascii.LF :: rest) .badCount
  | line {count : Nat} {es : List (Byte × Bits)} {bytes : List Byte} {e : FormatError} : 1 ≤ count → count ≤ 256 →
      ValidEntries es → LineViolation count es bytes e →
      Violation (dec count ++ Ascii.LF :: (es.flatMap entryText ++ bytes)) e

/-- `OBUF[0..OUT_LEN-1]` (spec/10_state.md R33, R48). -/
def State.output (s : State) : List Byte := (List.range s.outLen.toNat).map s.obufByte

/-- What holds in every state between two events. -/
structure State.Inv (s : State) : Prop where
  /-- The part's sizes are legal (00_scope.md R7). -/
  params_wf : s.params.wf = true
  /-- The buffers are in canonical form and list bytes inside the buffer only (10_state.md R47, R48; 20_memory.md R68). -/
  ibuf_wf : s.ibuf.wf
  obuf_wf : s.obuf.wf
  ibuf_within : ∀ c ∈ s.ibuf.cells, c.1 < s.params.ibufBytes
  obuf_within : ∀ c ∈ s.obuf.cells, c.1 < s.params.obufBytes
  /-- While a command is in progress CMD holds its word, its launch check still holds, and DONE and ERR are 0
  (10_state.md R26, R27; 60_exceptions.md R202, R204, R208). -/
  busy_launched : ∀ op, s.phase = .busy op →
    s.cmd = encode op ∧ launchCheck op s = none ∧ s.done = false ∧ s.err = false
  /-- ERRCODE and ERRINFO are 0 when ERR is, and otherwise those of an error of R200 and R201 (10_state.md R25, R28). -/
  no_error : s.err = false → s.errcode = 0 ∧ s.errinfo = 0
  an_error : s.err = true → ∃ e : Error, s.errcode = e.code ∧ s.errinfo = e.info
  /-- FREQ_V: FREQ and NSYM hold the frequencies of IBUF[0..IN_LEN-1] (10_state.md R31, R34). -/
  freq_valid : s.freqV = true → s.inLen.toNat ≤ s.params.ibufBytes ∧ s.freq = countTable s.input ∧
    s.nsym = BitVec.ofNat 9 (presentSymbols s.freq)
  /-- TREE_V: NODE, NNODES and ROOT hold the tree built from FREQ (10_state.md R31, R51). -/
  tree_valid : s.treeV = true → s.freqV = true ∧ s.nsym ≠ 0 ∧ s.node = arenaOf (buildNodes s.freq) ∧
    s.nnodes = BitVec.ofNat 10 (buildNodes s.freq).length ∧
    s.root = BitVec.ofNat 9 ((buildNodes s.freq).length - 1)
  /-- CODE_V with CSRC = 0: the code table is the tree's (10_state.md R31, R51). -/
  code_generated : s.codeV = true → s.csrc = false → s.treeV = true ∧ s.code = genTable s.node s.root
  /-- CODE_V with CSRC = 1: the code table, PAD, HDR_LEN and TOTAL_BITS are those of the container in IBUF
  (10_state.md R31; 42_decoder.md R165). -/
  code_parsed : s.codeV = true → s.csrc = true → s.inLen.toNat ≤ s.params.ibufBytes ∧
    ∃ l, parseContainer s.input = .ok l ∧ s.code = l.table ∧ s.pad = BitVec.ofNat 3 l.pad ∧
      s.hdrLen = BitVec.ofNat 32 (s.input.length - l.raw.length) ∧
      s.totalBits = BitVec.ofNat 32 (8 * l.raw.length - l.pad)
  /-- CODE_V: NCODE and MAXLEN are the table's (10_state.md R46 (b), (c)). -/
  code_counts : s.codeV = true → s.ncode = BitVec.ofNat 9 (tableSize s.code) ∧
    s.maxlen = BitVec.ofNat 8 (tableMaxLen s.code)

/-- The states a run reaches: from the reset state of a legal part, whatever its free values, under any events from
outside. -/
def State.Reachable (s : State) : Prop :=
  ∃ (p : Params) (d : Nat) (events : List Event) (n : Nat),
    p.wf = true ∧ Host.Core.run Sys2Proof.core n (State.resetWith p d events) = .next s

end Sys2Proof.Machine
end

