-- ==== Sys2Proof/Certificates/Slice0/Obligations.lean ====
section
/-! DEFINITION. The statements for the provers, from the numbered rules of spec/. In each, an equation
`exec i s = .next { s with … }` names every field the command changes, so it is the command's frame as well: a field it does
not name is unchanged. The engine executes a command in a state whose phase is `.busy` (spec/20_memory.md R74). -/

open Sys2Proof Sys2Proof.Machine

/-! ### Encoding -/

/-- 30_encoding.md R95: every 32-bit word is exactly one of the ten commands, whose words are those of R92, or illegal. -/
def Obligations.DecodeAcceptsExactlyTheTenWords : Prop :=
  (∀ (w : Word) (i : Instr), decode w = .ok i ↔ w = encode i) ∧
    [Instr.nop, .count, .build, .gencode, .pack, .compress, .parse, .decode, .decompress, .clear].map encode =
      [0x0, 0x1, 0x2, 0x3, 0x4, 0x5, 0x8, 0x9, 0xA, 0xF]

/-- 30_encoding.md R92 to R94, words written out from the table (95_test_vectors.md section 4). -/
def Obligations.SpecWordsDecodeAsTheTableSays : Prop :=
  decode 0x00000000#32 = .ok .nop ∧ decode 0x00000002#32 = .ok .build ∧ decode 0x00000004#32 = .ok .pack ∧
    decode 0x00000009#32 = .ok .decode ∧ decode 0x0000000F#32 = .ok .clear ∧
    decode 0x00000006#32 = .error (.reservedOpcode 6) ∧ decode 0x0000000E#32 = .error (.reservedOpcode 14) ∧
    decode 0x00000011#32 = .error .reservedBits ∧ decode 0x80000001#32 = .error .reservedBits

/-! ### The step and the launch of a command -/

/-- A CMD write of a command's word while the engine is idle is `exec` of the decoded command, CMD holding the word and the
response OK (10_state.md R24; 60_exceptions.md R202); the engine's turn while it is busy is `exec` of the command in progress
(20_memory.md R74), and with no event left the engine takes its turn (the model's choice, log 2). The engine's turn while it is
idle changes nothing (00_scope.md R6; log 26). -/
def Obligations.StepRunsTheDecodedCommand : Prop :=
  (∀ (s : State) (w : Word) (i : Instr) (rest : List Event),
    s.phase = .idle → s.events = cmdWrite w :: rest → decode w = .ok i →
      step s = exec i { s with events := rest, resp := some ⟨true, none⟩, cmd := w }) ∧
  (∀ (s : State) (i : Instr) (rest : List Event),
    s.phase = .busy i → s.events = .engine :: rest → step s = exec i { s with events := rest }) ∧
  (∀ (s : State) (i : Instr), s.phase = .busy i → s.events = [] → step s = exec i s) ∧
  (∀ (s : State) (rest : List Event), s.phase = .idle → s.events = .engine :: rest →
    step s = .next { s with events := rest }) ∧
  (∀ s : State, s.phase = .idle → s.events = [] → step s = .next s)

/-- The block never stops: every step of every state answers a next state (60_exceptions.md R205 to R209). -/
def Obligations.EveryStepAnswersANextState : Prop := ∀ s : State, ∃ t : State, step s = .next t

/-- 60_exceptions.md R202: a CMD write of any word in any state. -/
def Obligations.CmdWriteLaunchesOrRejects : Prop :=
  ∀ (s : State) (w : Word) (rest : List Event), s.events = cmdWrite w :: rest →
    let s1 : State := { s with events := rest, resp := some ⟨true, none⟩, cmd := w }
    let launched : Instr → State := fun op =>
      { s1 with phase := .busy op, done := false, err := false, errcode := 0, errinfo := 0 }
    let rejected : BitVec 4 → BitVec 8 → State := fun code info =>
      { s1 with done := true, err := true, errcode := code, errinfo := info }
    let onInput : Instr → State := fun op =>
      if s.params.ibufBytes < s.inLen.toNat then rejected 7 1 else launched op
    (∀ op, s.phase = .busy op →
      step s = .next { s with events := rest, resp := some ⟨true, none⟩, wign := true }) ∧
    (s.phase = .idle →
      (w.extractLsb' 4 28 ≠ 0 ∨ w ∈ [0x6#32, 0x7#32, 0xB#32, 0xC#32, 0xD#32, 0xE#32] →
        step s = .next (rejected 5 0)) ∧
      (w = 0x0 → step s = .next (launched .nop)) ∧
      (w = 0x1 → step s = .next (onInput .count)) ∧
      (w = 0x2 → step s = .next (if s.freqV then launched .build else rejected 6 0)) ∧
      (w = 0x3 → step s = .next (if s.treeV then launched .gencode else rejected 6 0)) ∧
      (w = 0x4 → step s = .next
        (if s.freqV = true ∧ s.codeV = true ∧ s.csrc = false then launched .pack else rejected 6 0)) ∧
      (w = 0x5 → step s = .next (onInput .compress)) ∧
      (w = 0x8 → step s = .next (onInput .parse)) ∧
      (w = 0x9 → step s = .next
        (if s.codeV = true ∧ s.csrc = true then launched .decode else rejected 6 0)) ∧
      (w = 0xA → step s = .next (onInput .decompress)) ∧
      (w = 0xF → step s = .next (launched .clear)))

/-- A legal command whose launch check holds, handed over and then given the engine's turn: the two steps are the command's
engine step on the launched state (60_exceptions.md R202, R204; 20_memory.md R74). -/
def Obligations.CommandRunsInTwoSteps : Prop :=
  ∀ (s : State) (i : Instr) (rest : List Event),
    s.phase = .idle → s.events = cmdOp i :: .engine :: rest → launchCheck i s = none →
      Host.Core.run Sys2Proof.core 2 s =
        exec i { s with
          events := rest, resp := some ⟨true, none⟩, cmd := encode i
          phase := .busy i, done := false, err := false, errcode := 0, errinfo := 0 }

/-- 60_exceptions.md R218, R206, R207 and 70_reset_and_hazards.md R244: the engine's turn ends the command in progress, BUSY
falling and DONE rising in the same step. -/
def Obligations.EngineTurnCompletesTheCommand : Prop :=
  ∀ (s : State) (op : Instr), s.phase = .busy op → s.events.head? = none ∨ s.events.head? = some .engine →
    ∃ t : State, step s = .next t ∧ t.phase = .idle ∧ t.done = true ∧ t.statusWord.getLsbD 0 = false ∧
      t.statusWord.getLsbD 1 = true

/-! ### Control commands -/

/-- 43_control.md R190, 60_exceptions.md R206. -/
def Obligations.NopOnlyCompletes : Prop :=
  ∀ s : State, s.phase = .busy .nop → exec .nop s = .next { s with phase := .idle, done := true }

/-- 43_control.md R191. -/
def Obligations.ClearEmptiesTheStageResults : Prop :=
  ∀ s : State, s.phase = .busy .clear →
    exec .clear s = .next { s with
      freq := Vector.replicate 256 0, code := Vector.replicate 256 []
      node := Vector.replicate 511 ⟨false, 0, 0, 0, 0⟩
      freqV := false, treeV := false, codeV := false, csrc := false
      outLen := 0, nsym := 0, ncode := 0, nnodes := 0, maxlen := 0, totalBits := 0, pad := 0, hdrLen := 0
      root := 0x1FF, phase := .idle, done := true }

/-! ### COUNT -/

/-- 41_encoder.md R121: each FREQ entry is the number of its occurrences in IBUF[0..IN_LEN-1], NSYM the number of nonzero
entries. -/
def Obligations.CountTakesTheFrequencies : Prop :=
  ∀ s : State, s.phase = .busy .count →
    ∃ freq : Vector Word 256,
      (∀ b : Byte, (atSymbol freq b).toNat = s.input.count b) ∧
      exec .count s = .next { s with
        freq := freq, nsym := BitVec.ofNat 9 (freq.toList.countP fun f => f ≠ 0)
        freqV := true, treeV := false, codeV := false, phase := .idle, done := true }

/-! ### BUILD -/

/-- 41_encoder.md R125, 60_exceptions.md R207: EmptyInputError, NODE, NNODES and ROOT UNSPEC. -/
def Obligations.BuildRefusesAnEmptyTable : Prop :=
  ∀ s : State, s.phase = .busy .build → s.nsym = 0 →
    ∃ (node : Vector Node 511) (nnodes : BitVec 10) (root : BitVec 9) (draw : Nat),
      exec .build s = .next { s with
        treeV := false, codeV := false, node := node, nnodes := nnodes, root := root, draw := draw
        phase := .idle, done := true, err := true, errcode := 1, errinfo := 0 }

/-- 41_encoder.md R124, R128: the arena holds the built nodes and zero entries after them, the root is the last. -/
def Obligations.BuildStoresTheTree : Prop :=
  ∀ s : State, s.phase = .busy .build → s.nsym ≠ 0 →
    ∃ node : Vector Node 511,
      (∀ i : Nat, i < 511 → node[i]? = some ((buildNodes s.freq)[i]?.getD ⟨false, 0, 0, 0, 0⟩)) ∧
      exec .build s = .next { s with
        treeV := true, codeV := false, node := node
        nnodes := BitVec.ofNat 10 (buildNodes s.freq).length
        root := BitVec.ofNat 9 ((buildNodes s.freq).length - 1)
        phase := .idle, done := true }

/-- 41_encoder.md R124: the first nodes are the leaves of the symbols with a nonzero frequency, ascending. -/
def Obligations.BuildPutsTheLeavesFirst : Prop :=
  ∀ freq : Vector Word 256, ∃ syms : List Byte,
    syms.Pairwise (fun a b => a.toNat < b.toNat) ∧ (∀ b, b ∈ syms ↔ atSymbol freq b ≠ 0) ∧
      ∀ (i : Nat) (b : Byte), syms[i]? = some b →
        (buildNodes freq)[i]? = some ⟨true, atSymbol freq b, b, 0x1FF, 0x1FF⟩

/-- 41_encoder.md R126, R129: extraction takes a member with the least key (WEIGHT, index) and leaves the others. -/
def Obligations.ExtractionTakesTheLeastKey : Prop :=
  ∀ q : List Cand, (extractLeast q = none ↔ q = []) ∧
    ∀ (c : Cand) (q' : List Cand), extractLeast q = some (c, q') →
      q.Perm (c :: q') ∧
        ∀ d ∈ q', c.weight.toNat < d.weight.toNat ∨ (c.weight = d.weight ∧ c.index ≤ d.index)

/-- 41_encoder.md R130: with n symbols present, 2n − 1 nodes for n ≥ 2 and 2 for n = 1; each internal node's children come
before it and its weight is their sum; every node but the root is the child of exactly one node. R126, R129: when the node at
`i` is made, LEFT has the least key (WEIGHT, index) among the nodes that are no child yet, and RIGHT the least of the rest. -/
def Obligations.BuiltTreeIsAStrictTree : Prop :=
  ∀ freq : Vector Word 256,
    let n := freq.toList.countP fun f => f ≠ 0
    let nodes := buildNodes freq
    (n = 1 → ∃ leaf : Node, leaf.leaf = true ∧ nodes = [leaf, ⟨false, leaf.weight, 0, 0, 0x1FF⟩]) ∧
    (2 ≤ n →
      nodes.length = 2 * n - 1 ∧
      (∀ (i : Nat) (nd : Node), n ≤ i → nodes[i]? = some nd →
        nd.leaf = false ∧ nd.symbol = 0 ∧ nd.left.toNat < i ∧ nd.right.toNat < i ∧
          ∃ l r : Node, nodes[nd.left.toNat]? = some l ∧ nodes[nd.right.toNat]? = some r ∧
            nd.weight = l.weight + r.weight) ∧
      (∀ (i : Nat) (nd : Node), n ≤ i → nodes[i]? = some nd →
        let used := ((nodes.take i).drop n).flatMap fun m => [m.left.toNat, m.right.toNat]
        LeastKey nodes i used nd.left.toNat ∧ LeastKey nodes i (nd.left.toNat :: used) nd.right.toNat) ∧
      ((nodes.drop n).flatMap fun nd => [nd.left.toNat, nd.right.toNat]).Perm (List.range (2 * n - 2)))

/-! ### GENCODE -/

/-- 41_encoder.md R133: what GENCODE writes and leaves unchanged. -/
def Obligations.GencodeStoresTheCodeTable : Prop :=
  ∀ s : State, s.phase = .busy .gencode →
    exec .gencode s = .next { s with
      code := genTable s.node s.root
      ncode := BitVec.ofNat 9 ((genTable s.node s.root).toList.countP fun c => c ≠ [])
      maxlen := BitVec.ofNat 8 (((genTable s.node s.root).toList.map List.length).foldl max 0)
      csrc := false, codeV := true, phase := .idle, done := true }

/-- 41_encoder.md R133: "a leaf's accumulated path is its code", for every arena and root, of a leaf at most 255 levels down
whose symbol no other leaf has; a symbol no such leaf has gets no code. -/
def Obligations.CodesAreTheTreePaths : Prop :=
  ∀ (nodes : Vector Node 511) (root : BitVec 9),
    (∀ (p : Bits) (i : BitVec 9) (nd : Node),
      TreePath nodes root p i → nodes[i.toNat]? = some nd → nd.leaf = true → p.length ≤ 255 →
      (∀ (q : Bits) (j : BitVec 9) (nd' : Node), TreePath nodes root q j → nodes[j.toNat]? = some nd' →
        nd'.leaf = true → nd'.symbol = nd.symbol → q = p) →
      atSymbol (genTable nodes root) nd.symbol = p) ∧
    (∀ b : Byte,
      (∀ (p : Bits) (i : BitVec 9) (nd : Node), TreePath nodes root p i → nodes[i.toNat]? = some nd →
        nd.leaf = true → nd.symbol ≠ b) →
      atSymbol (genTable nodes root) b = [])

/-- 41_encoder.md R127, R134: the lone symbol's code is "0", MAXLEN and NCODE are 1. -/
def Obligations.LoneSymbolGetsCodeZero : Prop :=
  ∀ (s : State) (b : Byte), s.phase = .busy .gencode →
    (∀ c, atSymbol s.freq c ≠ 0 ↔ c = b) → s.node = arenaOf (buildNodes s.freq) →
    s.root = BitVec.ofNat 9 ((buildNodes s.freq).length - 1) →
      ∃ code : Vector Bits 256, (∀ c, atSymbol code c = if c = b then [false] else []) ∧
        exec .gencode s = .next { s with
          code := code, ncode := 1, maxlen := 1, csrc := false, codeV := true, phase := .idle, done := true }

/-! ### PACK -/

/-- 41_encoder.md R141: the bit total is `Σ_s FREQ[s] × CLEN[s]`, the padding fills the last byte, and the byte count is
`ceil(total / 8)`. -/
def Obligations.PaddingFillsTheLastByte : Prop :=
  ∀ (freq : Vector Word 256) (code : Vector Bits 256),
    let total := bitTotal freq code
    total = ((List.range 256).map fun i =>
      (atSymbol freq (BitVec.ofNat 8 i)).toNat * (atSymbol code (BitVec.ofNat 8 i)).length).sum ∧
    padOf total = (8 - total % 8) % 8 ∧ padOf total ≤ 7 ∧ (total + padOf total) % 8 = 0 ∧
    (total + padOf total) / 8 = (total + 7) / 8

/-- 41_encoder.md R140, R145: PACK writes the header and the packed bytes from offset 0 and no other byte. -/
def Obligations.PackWritesTheContainer : Prop :=
  ∀ s : State, s.phase = .busy .pack →
    let total := ((List.range 256).map fun i =>
      (atSymbol s.freq (BitVec.ofNat 8 i)).toNat * (atSymbol s.code (BitVec.ofNat 8 i)).length).sum
    let pad := (8 - total % 8) % 8
    let hdr := header s.ncode.toNat pad s.code
    let bytes := hdr ++ packBytes ((total + pad) / 8)
      (s.input.flatMap (atSymbol s.code) ++ List.replicate pad false)
    hdr.length + (total + pad) / 8 ≤ s.params.obufBytes →
      ∃ t : State,
        exec .pack s = .next t ∧
        t = { s with
          obuf := t.obuf, outLen := BitVec.ofNat 32 (hdr.length + (total + pad) / 8)
          totalBits := BitVec.ofNat 32 total, pad := BitVec.ofNat 3 pad
          hdrLen := BitVec.ofNat 32 hdr.length, phase := .idle, done := true } ∧
        (∀ (k : Nat) (b : Byte), bytes[k]? = some b → t.obufByte k = b) ∧
        (∀ k : Nat, hdr.length + (total + pad) / 8 ≤ k → t.obufByte k = s.obufByte k)

/-- 41_encoder.md R143, 60_exceptions.md R207: a container that does not fit is a CapacityError OUT. -/
def Obligations.PackRefusesAContainerTooLong : Prop :=
  ∀ s : State, s.phase = .busy .pack →
    s.params.obufBytes < (header s.ncode.toNat (padOf (bitTotal s.freq s.code)) s.code).length +
        (bitTotal s.freq s.code + padOf (bitTotal s.freq s.code)) / 8 →
      ∃ (obuf : Memory) (outLen totalBits hdrLen : Word) (pad : BitVec 3) (draw : Nat),
        exec .pack s = .next { s with
          obuf := obuf, outLen := outLen, totalBits := totalBits, hdrLen := hdrLen, pad := pad, draw := draw
          phase := .idle, done := true, err := true, errcode := 7, errinfo := 2 }

/-- 30_encoding.md R106: the header's length. -/
def Obligations.HeaderLengthIsTheSumOfItsLines : Prop :=
  ∀ (n pad : Nat) (code : Vector Bits 256),
    (header n pad code).length =
      (dec n).length + 1 +
        ((List.range 256).map fun i =>
          let c := atSymbol code (BitVec.ofNat 8 i)
          if c = [] then 0 else (dec i).length + 1 + c.length + 1).sum +
        (dec pad).length + 1

/-- 41_encoder.md R141, R144: where FREQ counts the input, the concatenated codes are exactly `total` bits. -/
def Obligations.BitTotalIsTheStreamLength : Prop :=
  ∀ s : State, (∀ b : Byte, (atSymbol s.freq b).toNat = s.input.count b) →
    (s.input.flatMap (atSymbol s.code)).length = bitTotal s.freq s.code

/-- 20_memory.md R66, 41_encoder.md R144: packed byte `j` holds bits `8j` to `8j + 7` of the stream, bit 7 first. -/
def Obligations.PackedBytesAreMostSignificantBitFirst : Prop :=
  ∀ (n : Nat) (bits : Bits), (packBytes n bits).length = n ∧
    ∀ (j t : Nat) (b : Byte), (packBytes n bits)[j]? = some b → t < 8 →
      b.getLsbD (7 - t) = bits[8 * j + t]?.getD false

/-! ### COMPRESS -/

/-- 41_encoder.md R150: COMPRESS is COUNT, BUILD, GENCODE and PACK in order, each launched when the one before has completed
without error. -/
def Obligations.CompressIsTheFourStagesInOrder : Prop :=
  ∀ s t1 t2 t3 : State, s.phase = .busy .compress → s.err = false → s.errcode = 0 → s.errinfo = 0 →
    exec .count s = .next t1 → exec .build (t1.launch .build) = .next t2 → t2.err = false →
    exec .gencode (t2.launch .gencode) = .next t3 →
      exec .compress s = exec .pack (t3.launch .pack)

/-- 41_encoder.md R150, 95_test_vectors.md 1.2 S6: compressing nothing is an EmptyInputError, COUNT's results kept. -/
def Obligations.CompressRefusesAnEmptyInput : Prop :=
  ∀ s : State, s.phase = .busy .compress → s.inLen = 0 →
    ∃ (node : Vector Node 511) (nnodes : BitVec 10) (root : BitVec 9) (draw : Nat),
      exec .compress s = .next { s with
        freq := Vector.replicate 256 0, nsym := 0, freqV := true, treeV := false, codeV := false
        node := node, nnodes := nnodes, root := root, draw := draw
        phase := .idle, done := true, err := true, errcode := 1, errinfo := 0 }

/-- 41_encoder.md R150: a non-empty input whose container fits leaves all the stages' results and the container. -/
def Obligations.CompressLeavesEveryStageResult : Prop :=
  ∀ s : State, s.phase = .busy .compress → s.inLen ≠ 0 →
    let freq := countTable s.input
    let nodes := buildNodes freq
    let root := BitVec.ofNat 9 (nodes.length - 1)
    let code := genTable (arenaOf nodes) root
    let total := bitTotal freq code
    let hdr := header (tableSize code) (padOf total) code
    let nout := hdr.length + (total + padOf total) / 8
    nout ≤ s.params.obufBytes →
      exec .compress s = .next { s with
        freq := freq, nsym := BitVec.ofNat 9 (presentSymbols freq), freqV := true
        node := arenaOf nodes, nnodes := BitVec.ofNat 10 nodes.length, root := root, treeV := true
        code := code, ncode := BitVec.ofNat 9 (tableSize code), maxlen := BitVec.ofNat 8 (tableMaxLen code)
        codeV := true, csrc := false
        obuf := s.obuf.putBytes 0
          (hdr ++ packBytes ((total + padOf total) / 8) (packedBits code s.input (padOf total)))
        outLen := BitVec.ofNat 32 nout, totalBits := BitVec.ofNat 32 total, pad := BitVec.ofNat 3 (padOf total)
        hdrLen := BitVec.ofNat 32 hdr.length, phase := .idle, done := true }

/-! ### PARSE -/

/-- 42_decoder.md R161, 30_encoding.md R101, R103: `parse_num` accepts exactly the canonical numbers 0 to 999, a byte that is
no digit after them. -/
def Obligations.ParseNumAcceptsExactlyCanonicalNumbers : Prop :=
  ∀ (bytes rest : List Byte) (v : Nat),
    parseNum bytes = .ok (v, rest) ↔
      v ≤ 999 ∧ bytes = dec v ++ rest ∧ ∃ (c : Byte) (tail : List Byte), rest = c :: tail ∧ isDigit c = false

/-- 30_encoding.md R101, 42_decoder.md R162 to R165: the parser accepts exactly the containers of the grammar that meet the
value constraints, and returns their table, padding and raw section. -/
def Obligations.ParserAcceptsExactlyTheGrammar : Prop :=
  ∀ (bytes : List Byte) (l : Lines),
    parseContainer bytes = .ok l ↔
      ∃ entries : List (Byte × Bits),
        bytes = dec entries.length ++ [Ascii.LF] ++
          (entries.flatMap fun e => dec e.1.toNat ++ [Ascii.SP] ++ asciiCode e.2 ++ [Ascii.LF]) ++
          dec l.pad ++ [Ascii.LF] ++ l.raw ∧
        1 ≤ entries.length ∧ entries.length ≤ 256 ∧ (entries.map Prod.fst).Nodup ∧
        (∀ e ∈ entries, 1 ≤ e.2.length ∧ e.2.length ≤ 255) ∧
        entries.Pairwise (fun a b => ¬ a.2 <+: b.2 ∧ ¬ b.2 <+: a.2) ∧
        l.pad ≤ 7 ∧ (l.raw = [] → l.pad = 0) ∧
        l.entries = entries.length ∧
        (∀ e ∈ entries, atSymbol l.table e.1 = e.2) ∧
        (∀ b, b ∉ entries.map Prod.fst → atSymbol l.table b = [])

/-- 42_decoder.md R160, R165: what a successful PARSE writes and leaves unchanged. -/
def Obligations.ParseStoresTheTable : Prop :=
  ∀ (s : State) (l : Lines), s.phase = .busy .parse → parseContainer s.input = .ok l →
    exec .parse s = .next { s with
      code := l.table, ncode := BitVec.ofNat 9 l.entries
      maxlen := BitVec.ofNat 8 ((l.table.toList.map List.length).foldl max 0)
      pad := BitVec.ofNat 3 l.pad, hdrLen := BitVec.ofNat 32 (s.inLen.toNat - l.raw.length)
      totalBits := BitVec.ofNat 32 (8 * l.raw.length - l.pad)
      csrc := true, codeV := true, phase := .idle, done := true }

/-- 42_decoder.md R161 to R166: the parser reports a cause exactly when it is that of the first violation in reading order. -/
def Obligations.ParserReportsTheFirstViolation : Prop :=
  ∀ (bytes : List Byte) (e : FormatError), parseContainer bytes = .error e ↔ Violation bytes e

/-- 42_decoder.md R166, 60_exceptions.md R207: the sub-codes of the twelve causes; a FormatError reports its cause's, leaves
CODE_V 0 and the parser's outputs UNSPEC. -/
def Obligations.ParseReportsTheFormatError : Prop :=
  [FormatError.truncated, .badNumber, .badSeparator, .badCount, .badSymbol, .badCode, .codeTooLong, .dupSymbol,
      .prefixConflict, .countMismatch, .badPad, .padNoData].map FormatError.info =
    [1, 2, 3, 4, 5, 6, 7, 8, 9, 10, 11, 12] ∧
  ∀ (s : State) (e : FormatError), s.phase = .busy .parse → parseContainer s.input = .error e →
    ∃ (code : Vector Bits 256) (ncode : BitVec 9) (maxlen : BitVec 8) (pad : BitVec 3) (hdrLen totalBits : Word)
        (draw : Nat),
      exec .parse s = .next { s with
        codeV := false, code := code, ncode := ncode, maxlen := maxlen, pad := pad, hdrLen := hdrLen
        totalBits := totalBits, draw := draw
        phase := .idle, done := true, err := true, errcode := 2, errinfo := e.info }

/-! ### DECODE -/

/-- 42_decoder.md R171: bit `j` of the stream is bit `7 − (j mod 8)` of raw byte `j / 8`. -/
def Obligations.StreamBitsAreMostSignificantBitFirst : Prop :=
  ∀ (s : State) (k n : Nat), (s.streamBits k n).length = n ∧
    ∀ j : Nat, j < n → (s.streamBits k n)[j]? = some ((s.ibufByte (k + j / 8)).getLsbD (7 - j % 8))

/-- 42_decoder.md R170, R172: on a prefix-free table, a stream that is the codes of some symbols decodes to those symbols; the
bytes of OBUF past them keep their values. -/
def Obligations.DecodeEmitsTheSymbols : Prop :=
  ∀ (s : State) (syms : List Byte), s.phase = .busy .decode → PrefixFree s.code →
    (∀ b ∈ syms, atSymbol s.code b ≠ []) → syms.length ≤ s.params.obufBytes →
    s.streamBits s.hdrLen.toNat s.totalBits.toNat = syms.flatMap (atSymbol s.code) →
      ∃ t : State,
        exec .decode s = .next t ∧
        t = { s with obuf := t.obuf, outLen := BitVec.ofNat 32 syms.length, phase := .idle, done := true } ∧
        (∀ (k : Nat) (b : Byte), syms[k]? = some b → t.obufByte k = b) ∧
        (∀ k : Nat, syms.length ≤ k → t.obufByte k = s.obufByte k)

/-- 42_decoder.md R173, R174, 60_exceptions.md R207: on a prefix-free table, after some whole codes: bits that begin a code
but end before it are LEFTOVER; bits that begin no code are DEAD; a further code with OBUF full is a CapacityError OUT.
`u` is the candidate before the bit that decides. -/
def Obligations.DecodeReportsTheFirstError : Prop :=
  ∀ (s : State) (syms : List Byte) (tail : Bits), s.phase = .busy .decode → PrefixFree s.code →
    (∀ b ∈ syms, atSymbol s.code b ≠ []) → syms.length ≤ s.params.obufBytes →
    s.streamBits s.hdrLen.toNat s.totalBits.toNat = syms.flatMap (atSymbol s.code) ++ tail →
    let fails : BitVec 4 → BitVec 8 → Prop := fun code info =>
      ∃ (obuf : Memory) (outLen : Word) (draw : Nat),
        exec .decode s = .next { s with
          obuf := obuf, outLen := outLen, draw := draw
          phase := .idle, done := true, err := true, errcode := code, errinfo := info }
    (∀ (b : Byte) (x : Bool) (more : Bits), tail ≠ [] → atSymbol s.code b = tail ++ x :: more → fails 3 2) ∧
    (∀ (u rest : Bits) (x : Bool), tail = u ++ x :: rest →
      (u = [] ∨ ∃ (b : Byte) (y : Bool) (more : Bits), atSymbol s.code b = u ++ y :: more) →
      (∀ b : Byte, ¬ (u ++ [x]) <+: atSymbol s.code b) → fails 3 1) ∧
    (∀ b : Byte, syms.length = s.params.obufBytes → atSymbol s.code b ≠ [] → atSymbol s.code b <+: tail →
      fails 7 2)

/-! ### DECOMPRESS -/

/-- 42_decoder.md R180: DECOMPRESS is PARSE and then DECODE, launched when PARSE has completed without error. -/
def Obligations.DecompressIsParseThenDecode : Prop :=
  ∀ s t1 : State, s.phase = .busy .decompress → s.err = false → s.errcode = 0 → s.errinfo = 0 →
    exec .parse s = .next t1 →
      (t1.err = false → exec .decompress s = exec .decode (t1.launch .decode)) ∧
      (t1.err = true → exec .decompress s = .next t1)

/-- 42_decoder.md R180: a container of a legal part whose raw section decodes leaves the table and the bytes. -/
def Obligations.DecompressLeavesTableAndOutput : Prop :=
  ∀ (s : State) (l : Lines) (out : List Byte), s.phase = .busy .decompress → s.params.wf = true →
    s.inLen.toNat ≤ s.params.ibufBytes → parseContainer s.input = .ok l →
    decodeLoop l.table s.params.obufBytes 0 [] ((l.raw.flatMap byteBits).take (8 * l.raw.length - l.pad)) = .ok out →
      exec .decompress s = .next { s with
        code := l.table, ncode := BitVec.ofNat 9 l.entries, maxlen := BitVec.ofNat 8 (tableMaxLen l.table)
        pad := BitVec.ofNat 3 l.pad, hdrLen := BitVec.ofNat 32 (s.inLen.toNat - l.raw.length)
        totalBits := BitVec.ofNat 32 (8 * l.raw.length - l.pad), csrc := true, codeV := true
        obuf := s.obuf.putBytes 0 out, outLen := BitVec.ofNat 32 out.length, phase := .idle, done := true }

/-- 42_decoder.md R180, 60_exceptions.md R207: after a DECODE error the parsed table stays valid; only OBUF and OUT_LEN are
UNSPEC. -/
def Obligations.DecompressKeepsTheTableAfterADecodeError : Prop :=
  ∀ (s : State) (l : Lines) (e : Error), s.phase = .busy .decompress → s.params.wf = true →
    s.inLen.toNat ≤ s.params.ibufBytes → parseContainer s.input = .ok l →
    decodeLoop l.table s.params.obufBytes 0 [] ((l.raw.flatMap byteBits).take (8 * l.raw.length - l.pad)) =
      .error e →
      ∃ (obuf : Memory) (outLen : Word) (draw : Nat),
        exec .decompress s = .next { s with
          code := l.table, ncode := BitVec.ofNat 9 l.entries, maxlen := BitVec.ofNat 8 (tableMaxLen l.table)
          pad := BitVec.ofNat 3 l.pad, hdrLen := BitVec.ofNat 32 (s.inLen.toNat - l.raw.length)
          totalBits := BitVec.ofNat 32 (8 * l.raw.length - l.pad), csrc := true, codeV := true
          obuf := obuf, outLen := outLen, draw := draw
          phase := .idle, done := true, err := true, errcode := e.code, errinfo := e.info }

/-- 42_decoder.md R181: decompressing what COMPRESS wrote gives the input back. -/
def Obligations.CompressThenDecompressGivesTheInputBack : Prop :=
  ∀ s t s' : State, s.Inv → s.phase = .busy .compress → 1 ≤ s.input.length →
    exec .compress s = .next t → t.err = false →
    s'.Inv → s'.phase = .busy .decompress → s'.input = t.output → s.input.length ≤ s'.params.obufBytes →
      ∃ t' : State, exec .decompress s' = .next t' ∧ t'.err = false ∧ t'.output = s.input

/-! ### Whole-machine rules about the engine -/

/-- 20_memory.md R68, 10_state.md R47, R48, R32, R30, R24, R29: no command's execution changes IBUF, IN_LEN, IRQ_EN, CMD or
WIGN; only PACK, COMPRESS, DECODE and DECOMPRESS change OBUF. -/
def Obligations.EngineLeavesTheHostStateAlone : Prop :=
  ∀ (i : Instr) (s t : State), s.phase ≠ .idle → exec i s = .next t →
    t.ibuf = s.ibuf ∧ t.inLen = s.inLen ∧ t.doneIE = s.doneIE ∧ t.errIE = s.errIE ∧ t.cmd = s.cmd ∧
      t.wign = s.wign ∧ t.params = s.params ∧ t.events = s.events ∧ t.resp = s.resp ∧
      (i ∉ [Instr.pack, .compress, .decode, .decompress] → t.obuf = s.obuf)

/-- 70_reset_and_hazards.md R241: the rows of the valid-bit table that are commands, and the launch errors. -/
def Obligations.ValidBitsFollowTheTable : Prop :=
  ∀ s t : State,
    (s.phase = .idle → ∀ i, exec i s = .next t →
      t.freqV = s.freqV ∧ t.treeV = s.treeV ∧ t.codeV = s.codeV ∧ t.csrc = s.csrc) ∧
    (s.phase ≠ .idle →
      (∀ i ∈ [Instr.nop, .pack, .decode], exec i s = .next t →
        t.freqV = s.freqV ∧ t.treeV = s.treeV ∧ t.codeV = s.codeV ∧ t.csrc = s.csrc) ∧
      (exec .clear s = .next t → t.freqV = false ∧ t.treeV = false ∧ t.codeV = false ∧ t.csrc = false) ∧
      (exec .count s = .next t → t.freqV = true ∧ t.treeV = false ∧ t.codeV = false ∧ t.csrc = s.csrc) ∧
      (exec .build s = .next t →
        t.freqV = s.freqV ∧ t.treeV = (s.nsym != 0) ∧ t.codeV = false ∧ t.csrc = s.csrc) ∧
      (exec .gencode s = .next t → t.freqV = s.freqV ∧ t.treeV = s.treeV ∧ t.codeV = true ∧ t.csrc = false) ∧
      (exec .parse s = .next t ∨ exec .decompress s = .next t →
        t.freqV = s.freqV ∧ t.treeV = s.treeV ∧
          (∀ l, parseContainer s.input = .ok l → t.codeV = true ∧ t.csrc = true) ∧
          (∀ e, parseContainer s.input = .error e → t.codeV = false ∧ t.csrc = s.csrc)) ∧
      (exec .compress s = .next t → s.inLen ≠ 0 →
        t.freqV = true ∧ t.treeV = true ∧ t.codeV = true ∧ t.csrc = false) ∧
      (exec .compress s = .next t → s.inLen = 0 →
        t.freqV = true ∧ t.treeV = false ∧ t.codeV = false ∧ t.csrc = s.csrc))

/-- 70_reset_and_hazards.md R242: a stage repeated after a success gives the same result again. -/
def Obligations.StagesMayBeRepeated : Prop :=
  ∀ s t : State, s.err = false → s.errcode = 0 → s.errinfo = 0 → t.err = false →
    (s.phase = .busy .build → exec .build s = .next t → exec .build (t.launch .build) = .next t) ∧
    (s.phase = .busy .gencode → exec .gencode s = .next t → exec .gencode (t.launch .gencode) = .next t) ∧
    (s.phase = .busy .pack → exec .pack s = .next t →
      ∃ t', exec .pack (t.launch .pack) = .next t' ∧ t' = { t with obuf := t'.obuf } ∧
        ∀ k, t'.obufByte k = t.obufByte k) ∧
    (s.phase = .busy .decode → exec .decode s = .next t →
      ∃ t', exec .decode (t.launch .decode) = .next t' ∧ t' = { t with obuf := t'.obuf } ∧
        ∀ k, t'.obufByte k = t.obufByte k)

/-! ### Registers and the host interface -/

/-- 20_memory.md R61, R62, R64: the address map of a legal part, with the access sizes and alignments. -/
def Obligations.AddressMap : Prop :=
  ∀ (p : Params) (addr : Word) (size : Size), p.wf = true →
    let a := addr.toNat
    let wordAligned := size = .word ∧ a % 4 = 0
    (∀ off, resolve p addr size = some (.reg off) ↔ wordAligned ∧ a ≤ 0xFF ∧ off = a) ∧
    (∀ w, resolve p addr size = some (.freq w) ↔ wordAligned ∧ a = 0x400 + 4 * w ∧ w < 256) ∧
    (∀ w, resolve p addr size = some (.node w) ↔ wordAligned ∧ a = 0x1000 + 4 * w ∧ w < 1024) ∧
    (∀ w, resolve p addr size = some (.code w) ↔ wordAligned ∧ a = 0x4000 + 4 * w ∧ w < 4096) ∧
    (∀ k, resolve p addr size = some (.ibuf k) ↔
      a = 0x01000000 + k ∧ k % size.bytes = 0 ∧ k + size.bytes ≤ p.ibufBytes) ∧
    (∀ k, resolve p addr size = some (.obuf k) ↔
      a = 0x10000000 + k ∧ k % size.bytes = 0 ∧ k + size.bytes ≤ p.obufBytes)

/-- 20_memory.md R60: a transaction with response ERR has no effect on any state, its read data is zero. -/
def Obligations.ErrResponseHasNoEffect : Prop :=
  ∀ (s : State) (addr v : Word) (size : Size) (rest : List Event), resolve s.params addr size = none →
    (s.events = .host (.read addr size) :: rest →
      step s = .next { s with events := rest, resp := some ⟨false, some 0⟩ }) ∧
    (s.events = .host (.write addr size v) :: rest →
      step s = .next { s with events := rest, resp := some ⟨false, none⟩ })

/-- 10_state.md R21 to R42: what an idle block's registers read. -/
def Obligations.RegistersReadTheirFields : Prop :=
  ∀ (s : State) (rest : List Event) (off : Nat), s.phase = .idle → off ≤ 0xFC → off % 4 = 0 →
    s.events = .host (.read (BitVec.ofNat 32 off) .word) :: rest →
      ∃ v : Word, step s = .next { s with events := rest, resp := some ⟨true, some v⟩ } ∧
        (off = 0x000 → v = 0x48554601) ∧
        (off = 0x004 → v = BitVec.ofNat 32 s.params.ibufBytes) ∧
        (off = 0x008 → v = BitVec.ofNat 32 s.params.obufBytes) ∧
        (off = 0x010 → v = s.cmd) ∧
        (off = 0x014 → v.toNat = 2 * s.done.toNat + 4 * s.err.toNat + 8 * s.wign.toNat +
          256 * s.errcode.toNat + 65536 * s.errinfo.toNat) ∧
        (off = 0x018 → v.toNat = 2 * s.doneIE.toNat + 4 * s.errIE.toNat) ∧
        (off = 0x01C → v.toNat = s.freqV.toNat + 2 * s.treeV.toNat + 4 * s.codeV.toNat + 8 * s.csrc.toNat) ∧
        (off = 0x020 → v = s.inLen) ∧ (off = 0x024 → v = s.outLen) ∧
        (off = 0x028 → v.toNat = s.nsym.toNat) ∧ (off = 0x02C → v.toNat = s.ncode.toNat) ∧
        (off = 0x030 → v.toNat = s.nnodes.toNat) ∧ (off = 0x034 → v.toNat = s.root.toNat) ∧
        (off = 0x038 → v.toNat = s.maxlen.toNat) ∧ (off = 0x03C → v = s.totalBits) ∧
        (off = 0x040 → v.toNat = s.pad.toNat) ∧ (off = 0x044 → v = s.hdrLen) ∧
        (off = 0x00C ∨ 0x048 ≤ off → v = 0)

/-- 10_state.md R25: STATUS is write 1 to clear, busy or idle; a write sets no bit. -/
def Obligations.StatusIsWriteOneToClear : Prop :=
  ∀ (s : State) (v : Word) (rest : List Event), s.events = wr32 0x014 v :: rest →
    step s = .next { s with
      events := rest, resp := some ⟨true, none⟩
      done := if v.getLsbD 1 then false else s.done
      err := if v.getLsbD 2 then false else s.err
      errcode := if v.getLsbD 2 then 0 else s.errcode
      errinfo := if v.getLsbD 2 then 0 else s.errinfo
      wign := if v.getLsbD 3 then false else s.wign }

/-- 10_state.md R30, 60_exceptions.md R210: IRQ_EN stores bits 1 and 2, busy or idle, and gates the interrupt output. -/
def Obligations.IrqEnGatesTheInterrupt : Prop :=
  ∀ (s : State) (v : Word) (rest : List Event), s.events = wr32 0x018 v :: rest →
    ∃ t : State,
      step s = .next t ∧
      t = { s with events := rest, resp := some ⟨true, none⟩, doneIE := v.getLsbD 1, errIE := v.getLsbD 2 } ∧
      t.irq = ((s.done && v.getLsbD 1) || (s.err && v.getLsbD 2))

/-- 20_memory.md R71: a legal write while busy, other than to STATUS and IRQ_EN, stores nothing and sets WIGN. -/
def Obligations.BusyWriteOnlySetsWign : Prop :=
  ∀ (s : State) (op : Instr) (addr v : Word) (size : Size) (t : Target) (rest : List Event),
    s.phase = .busy op → s.events = .host (.write addr size v) :: rest →
    resolve s.params addr size = some t → t ≠ .reg 0x014 → t ≠ .reg 0x018 →
      step s = .next { s with events := rest, resp := some ⟨true, none⟩, wign := true }

/-- 20_memory.md R72: while busy, reads of ID, the sizes, CMD, STATUS, IRQ_EN, IN_LEN, reserved offsets and IBUF give their
values and change nothing, STATUS.BUSY reading 1 (10_state.md R26); any other legal read gives some value, and changes no state
of the block. -/
def Obligations.BusyReadsOfResultsAreUnspecified : Prop :=
  ∀ (s : State) (op : Instr) (addr : Word) (size : Size) (t : Target) (rest : List Event),
    s.phase = .busy op → s.events = .host (.read addr size) :: rest → resolve s.params addr size = some t →
    (∀ off, t = .reg off → off ≤ 0x018 ∨ off = 0x020 ∨ 0x048 ≤ off →
      ∃ v : Word, step s = .next { s with events := rest, resp := some ⟨true, some v⟩ } ∧
        (off = 0x000 → v = 0x48554601) ∧
        (off = 0x004 → v = BitVec.ofNat 32 s.params.ibufBytes) ∧
        (off = 0x008 → v = BitVec.ofNat 32 s.params.obufBytes) ∧
        (off = 0x010 → v = s.cmd) ∧
        (off = 0x014 → v.toNat = 1 + 2 * s.done.toNat + 4 * s.err.toNat + 8 * s.wign.toNat +
          256 * s.errcode.toNat + 65536 * s.errinfo.toNat) ∧
        (off = 0x018 → v.toNat = 2 * s.doneIE.toNat + 4 * s.errIE.toNat) ∧
        (off = 0x020 → v = s.inLen) ∧
        (off = 0x00C ∨ 0x048 ≤ off → v = 0)) ∧
    (∀ k, t = .ibuf k →
      ∃ v : Word, step s = .next { s with events := rest, resp := some ⟨true, some v⟩ } ∧
        v.toNat = ((List.range size.bytes).map fun i => (s.ibufByte (k + i)).toNat * 256 ^ i).sum) ∧
    ∃ (v : Word) (draw : Nat),
      step s = .next { s with events := rest, resp := some ⟨true, some v⟩, draw := draw }

/-- 20_memory.md R63, 10_state.md R42: an idle block ignores a write to anything but CMD, STATUS, IRQ_EN, IN_LEN and IBUF,
response OK. -/
def Obligations.ReadOnlyStateIgnoresWrites : Prop :=
  ∀ (s : State) (addr v : Word) (size : Size) (t : Target) (rest : List Event),
    s.phase = .idle → s.events = .host (.write addr size v) :: rest → resolve s.params addr size = some t →
    (∀ k, t ≠ .ibuf k) → t ≠ .reg 0x010 → t ≠ .reg 0x014 → t ≠ .reg 0x018 → t ≠ .reg 0x020 →
      step s = .next { s with events := rest, resp := some ⟨true, none⟩ }

/-- 10_state.md R32, 20_memory.md R69: an idle write to IN_LEN stores any value and clears the three valid bits. -/
def Obligations.InLenWriteClearsTheValidBits : Prop :=
  ∀ (s : State) (v : Word) (rest : List Event), s.phase = .idle → s.events = wr32 0x020 v :: rest →
    step s = .next { s with
      events := rest, resp := some ⟨true, none⟩, inLen := v, freqV := false, treeV := false, codeV := false }

/-- 20_memory.md R64, R69: an idle write to IBUF stores its bytes little-endian, leaves every other byte, and clears the three
valid bits. -/
def Obligations.IbufWriteStoresLittleEndian : Prop :=
  ∀ (s : State) (addr v : Word) (size : Size) (k : Nat) (rest : List Event), s.phase = .idle →
    s.events = .host (.write addr size v) :: rest → resolve s.params addr size = some (.ibuf k) →
      ∃ t : State,
        step s = .next t ∧
        t = { s with
          events := rest, resp := some ⟨true, none⟩, ibuf := t.ibuf
          freqV := false, treeV := false, codeV := false } ∧
        (∀ i : Nat, i < size.bytes → t.ibufByte (k + i) = v.extractLsb' (8 * i) 8) ∧
        (∀ j : Nat, j < k ∨ k + size.bytes ≤ j → t.ibufByte j = s.ibufByte j)

/-- 20_memory.md R64: a read of IBUF, and of OBUF while idle, is `Σ BUF[k+i] × 256^i` and changes nothing. -/
def Obligations.BufferReadsAreLittleEndian : Prop :=
  ∀ (s : State) (addr : Word) (size : Size) (k : Nat) (rest : List Event),
    s.events = .host (.read addr size) :: rest →
    (resolve s.params addr size = some (.ibuf k) →
      ∃ v : Word, step s = .next { s with events := rest, resp := some ⟨true, some v⟩ } ∧
        v.toNat = ((List.range size.bytes).map fun i => (s.ibufByte (k + i)).toNat * 256 ^ i).sum) ∧
    (s.phase = .idle → resolve s.params addr size = some (.obuf k) →
      ∃ v : Word, step s = .next { s with events := rest, resp := some ⟨true, some v⟩ } ∧
        v.toNat = ((List.range size.bytes).map fun i => (s.obufByte (k + i)).toNat * 256 ^ i).sum)

/-- 10_state.md R43 to R45: the words of the FREQ, NODE and CODE windows of an idle block. Where the arrays are UNSPEC (after
reset or a failed command) two points are the model's choice: that CLEN and the code words agree (log 16), and that SYMBOL
reads 0 beside LEAF 0 (log 17). -/
def Obligations.WindowsShowTheArrays : Prop :=
  ∀ (s : State) (addr : Word) (rest : List Event), s.phase = .idle →
    s.events = .host (.read addr .word) :: rest →
    (∀ b : Byte, addr.toNat = 0x400 + 4 * b.toNat →
      step s = .next { s with events := rest, resp := some ⟨true, some (atSymbol s.freq b)⟩ }) ∧
    (∀ (i : Nat) (nd : Node), s.node[i]? = some nd →
      (addr.toNat = 0x1000 + 8 * i →
        step s = .next { s with events := rest, resp := some ⟨true, some nd.weight⟩ }) ∧
      (addr.toNat = 0x1004 + 8 * i →
        ∃ v : Word, step s = .next { s with events := rest, resp := some ⟨true, some v⟩ } ∧
          v.toNat = nd.left.toNat + 2 ^ 9 * nd.right.toNat +
            2 ^ 18 * (if nd.leaf then nd.symbol.toNat else 0) + 2 ^ 31 * nd.leaf.toNat)) ∧
    (addr.toNat = 0x1FF8 ∨ addr.toNat = 0x1FFC →
      step s = .next { s with events := rest, resp := some ⟨true, some 0⟩ }) ∧
    (∀ b : Byte,
      (addr.toNat = 0x4000 + 64 * b.toNat → (atSymbol s.code b).length ≤ 255 →
        ∃ v : Word, step s = .next { s with events := rest, resp := some ⟨true, some v⟩ } ∧
          v.toNat = (atSymbol s.code b).length) ∧
      (∀ w : Nat, w < 8 → addr.toNat = 0x4004 + 64 * b.toNat + 4 * w →
        ∃ v : Word, step s = .next { s with events := rest, resp := some ⟨true, some v⟩ } ∧
          ∀ j : Nat, j < 32 → v.getLsbD (31 - j) = (atSymbol s.code b)[32 * w + j]?.getD false) ∧
      (∀ w : Nat, w < 7 → addr.toNat = 0x4024 + 64 * b.toNat + 4 * w →
        step s = .next { s with events := rest, resp := some ⟨true, some 0⟩ }))

/-! ### Reset -/

/-- 10_state.md R52: the values the spec gives for reset, of every part and whatever the free values. -/
def Obligations.ResetLeavesTheListedValues : Prop :=
  ∀ (p : Params) (d : Nat) (events : List Event),
    let s := State.resetWith p d events
    s.params = p ∧ s.cmd = 0 ∧ s.statusWord = 0 ∧ s.irqEnWord = 0 ∧ s.validWord = 0 ∧ s.inLen = 0 ∧ s.outLen = 0 ∧
      s.nsym = 0 ∧ s.ncode = 0 ∧ s.nnodes = 0 ∧ s.root = 0x1FF ∧ s.maxlen = 0 ∧ s.totalBits = 0 ∧ s.pad = 0 ∧
      s.hdrLen = 0 ∧ s.phase = .idle ∧ s.irq = false

/-- 70_reset_and_hazards.md R230, R231: a hard reset in any phase gives the reset state; a command in progress is
abandoned. -/
def Obligations.HardResetAbandonsTheCommand : Prop :=
  ∀ (s : State) (rest : List Event), s.events = .hardReset :: rest →
    ∃ d : Nat, step s = .next (State.resetWith s.params d rest)

/-! ### The invariant -/

/-- 10_state.md R31, R46 (b) and (c), R51; 60_exceptions.md R208: every step keeps the invariant of `State.Inv`. -/
def Obligations.EveryStepKeepsTheInvariant : Prop :=
  ∀ s t : State, s.Inv → step s = .next t → t.Inv

/-- The invariant holds right after reset, of every legal part and whatever the free values. -/
def Obligations.ResetMeetsTheInvariant : Prop :=
  State.reset.Inv ∧
    ∀ (p : Params) (d : Nat) (events : List Event), p.wf = true → (State.resetWith p d events).Inv

/-- The invariant holds in every state a run reaches from reset, whatever comes from outside. -/
def Obligations.ReachableStatesMeetTheInvariant : Prop := ∀ s : State, s.Reachable → s.Inv

/-- 10_state.md R46: where CODE_V = 1 the table is a prefix code with NCODE ≥ 1 entries of lengths up to MAXLEN; a generated
one has an entry exactly for each symbol with a nonzero frequency, and NCODE = NSYM. -/
def Obligations.ValidCodeTableIsAPrefixCode : Prop :=
  ∀ s : State, s.Inv → s.codeV = true →
    PrefixFree s.code ∧
    s.ncode.toNat = (s.code.toList.countP fun c => c ≠ []) ∧ 1 ≤ s.ncode.toNat ∧
    (∀ b, (atSymbol s.code b).length ≤ s.maxlen.toNat) ∧
    (∃ b, (atSymbol s.code b).length = s.maxlen.toNat) ∧
    (s.csrc = false → (∀ b, atSymbol s.code b ≠ [] ↔ atSymbol s.freq b ≠ 0) ∧ s.ncode = s.nsym)
end

