-- ==== Sys2Proof/Laws/Memory.lean ====
section
/-! SUPPORT. The buffers: a write keeps the canonical form and the bounds, changes the bytes it stores and no other. -/

namespace Sys2Proof.Machine

theorem lookup_cell (c : Host.Cell) (cs : List Host.Cell) (j : Nat) :
    (c :: cs).lookup j = if j = c.1 then some c.2 else cs.lookup j := by
  obtain ⟨a, b⟩ := c
  by_cases h : j = a
  · simp [h]
  · have h' : (j == a) = false := by simp [h]
    simp [List.lookup, h', h]

theorem insertCell_lookup (k j : Nat) (v : Byte) (cs : List Host.Cell) :
    (insertCell k v cs).lookup j = if j = k then some v else cs.lookup j := by
  induction cs with
  | nil => simp [insertCell, lookup_cell]
  | cons c cs ih =>
    unfold insertCell
    split
    · rw [lookup_cell]
    · split
      · rename_i hk
        simp only [lookup_cell, ← hk]
        split <;> rfl
      · rw [lookup_cell, lookup_cell, ih]
        by_cases hc : j = c.1
        · have hj : ¬ j = k := by omega
          simp [hc]
          omega
        · simp [hc]

theorem insertCell_fst_mem {k : Nat} {v : Byte} {cs : List Host.Cell} {c : Host.Cell}
    (h : c ∈ insertCell k v cs) : c.1 = k ∨ c ∈ cs := by
  induction cs with
  | nil => simp [insertCell] at h; simp [h]
  | cons d cs ih =>
    unfold insertCell at h
    split at h
    · simp only [List.mem_cons] at h ⊢; rcases h with rfl | h | h <;> simp_all
    · split at h
      · simp only [List.mem_cons] at h ⊢; rcases h with rfl | h <;> simp_all
      · simp only [List.mem_cons] at h ⊢
        rcases h with rfl | h
        · simp
        · rcases ih h with h | h <;> simp [h]

theorem insertCell_pairwise (k : Nat) (v : Byte) (cs : List Host.Cell)
    (h : (cs.map Prod.fst).Pairwise (· < ·)) : ((insertCell k v cs).map Prod.fst).Pairwise (· < ·) := by
  induction cs with
  | nil => simp [insertCell]
  | cons c cs ih =>
    have hc : ∀ d ∈ cs, c.1 < d.1 := by
      intro d hd; exact (List.pairwise_cons.1 h).1 _ (List.mem_map_of_mem hd)
    have ih := ih (List.Pairwise.of_cons h)
    unfold insertCell
    split
    · rename_i hk
      refine List.pairwise_cons.2 ⟨?_, h⟩
      intro x hx
      obtain ⟨d, hd, rfl⟩ := List.mem_map.1 hx
      rcases List.mem_cons.1 hd with rfl | hd
      · exact hk
      · exact Nat.lt_trans hk (hc d hd)
    · split
      · rename_i hk
        simp only [List.map_cons, List.pairwise_cons] at h ⊢
        exact ⟨fun x hx => hk ▸ h.1 x hx, h.2⟩
      · rename_i hk hk'
        refine List.pairwise_cons.2 ⟨?_, ih⟩
        intro x hx
        obtain ⟨d, hd, rfl⟩ := List.mem_map.1 hx
        rcases insertCell_fst_mem hd with h | h
        · show c.1 < d.1; omega
        · exact hc d h

theorem Memory.put_get? (m : Memory) (k j : Nat) (v : Byte) :
    (m.put k v).get? j = if j = k then some v else m.get? j := insertCell_lookup k j v m.cells

theorem Memory.put_wf {m : Memory} (h : m.wf) (k : Nat) (v : Byte) : (m.put k v).wf :=
  insertCell_pairwise k v m.cells h

theorem Memory.putBytes_wf {m : Memory} (h : m.wf) (k : Nat) (bs : List Byte) : (m.putBytes k bs).wf := by
  induction bs generalizing m k with
  | nil => exact h
  | cons b bs ih => exact ih (Memory.put_wf h k b) (k + 1)

@[simp] theorem Memory.putBytes_epoch (m : Memory) (k : Nat) (bs : List Byte) :
    (m.putBytes k bs).epoch = m.epoch := by
  induction bs generalizing m k with
  | nil => rfl
  | cons b bs ih => exact (ih (m.put k b) (k + 1)).trans rfl

/-- Storing bytes: the byte at `j` is the one stored there, if `j` lies in the stored range, and otherwise what it was. -/
theorem Memory.putBytes_get? (m : Memory) (k j : Nat) (bs : List Byte) :
    (m.putBytes k bs).get? j = if k ≤ j ∧ j < k + bs.length then bs[j - k]? else m.get? j := by
  induction bs generalizing m k with
  | nil => simp [Memory.putBytes]
  | cons b bs ih =>
    rw [Memory.putBytes, ih, Memory.put_get?]
    by_cases h1 : k + 1 ≤ j ∧ j < k + 1 + bs.length
    · have h2 : k ≤ j ∧ j < k + (b :: bs).length := by simp; omega
      have h3 : j - k = (j - (k + 1)) + 1 := by omega
      rw [if_pos h1, if_pos h2, h3, List.getElem?_cons_succ]
    · rw [if_neg h1]
      by_cases hj : j = k
      · subst hj; simp
      · have h2 : ¬ (k ≤ j ∧ j < k + (b :: bs).length) := by simp; omega
        rw [if_neg hj, if_neg h2]

theorem Memory.putBytes_within {m : Memory} {n k : Nat} {bs : List Byte}
    (h : ∀ c ∈ m.cells, c.1 < n) (hk : k + bs.length ≤ n) : ∀ c ∈ (m.putBytes k bs).cells, c.1 < n := by
  induction bs generalizing m k with
  | nil => exact h
  | cons b bs ih =>
    simp only [List.length_cons] at hk
    refine ih (m := m.put k b) ?_ (by omega)
    intro c hc
    rcases insertCell_fst_mem hc with h' | h'
    · omega
    · exact h c h'

theorem Memory.unspecified_wf (d : Nat) : (Memory.unspecified d).wf := by simp [Memory.unspecified, Memory.wf]

@[simp] theorem Memory.unspecified_cells (d : Nat) : (Memory.unspecified d).cells = [] := rfl

theorem State.ibufBytes_length (s : State) (k n : Nat) : (s.ibufBytes k n).length = n := by
  simp [State.ibufBytes]

@[simp] theorem State.input_length (s : State) : s.input.length = s.inLen.toNat := by
  simp [State.input, State.ibufBytes_length]

theorem State.ibufBytes_getElem? (s : State) {k n j : Nat} (h : j < n) :
    (s.ibufBytes k n)[j]? = some (s.ibufByte (k + j)) := by
  simp [State.ibufBytes, h]

/-- The input depends on IBUF and IN_LEN only. -/
theorem State.input_congr {s t : State} (h1 : t.ibuf = s.ibuf) (h2 : t.inLen = s.inLen) : t.input = s.input := by
  simp [State.input, State.ibufBytes, State.ibufByte, h1, h2]

theorem State.ibufByte_congr {s t : State} (h : t.ibuf = s.ibuf) (k : Nat) : t.ibufByte k = s.ibufByte k := by
  simp [State.ibufByte, h]

theorem State.streamBits_congr {s t : State} (h : t.ibuf = s.ibuf) (k n : Nat) :
    t.streamBits k n = s.streamBits k n := by
  simp [State.streamBits, State.ibufBytes, State.ibufByte, h]

end Sys2Proof.Machine
end

