-- ==== Sys2Proof/Laws/Tables.lean ====
section
/-! SUPPORT. Tables indexed by symbol: reading, replacing, counting and listing their entries; the frequency table. -/

namespace Sys2Proof.Machine

variable {α : Type}

theorem atSymbol_setSymbol (t : Vector α 256) (b c : Byte) (v : α) :
    atSymbol (setSymbol t b v) c = if b = c then v else atSymbol t c := by
  unfold atSymbol setSymbol
  rw [Vector.getElem_set]
  by_cases h : b = c
  · simp [h]
  · have : b.toNat ≠ c.toNat := fun h' => h (BitVec.eq_of_toNat_eq h')
    simp [h, this]

@[simp] theorem atSymbol_setSymbol_self (t : Vector α 256) (b : Byte) (v : α) : atSymbol (setSymbol t b v) b = v := by
  simp [atSymbol_setSymbol]

theorem atSymbol_setSymbol_ne (t : Vector α 256) {b c : Byte} (v : α) (h : b ≠ c) :
    atSymbol (setSymbol t b v) c = atSymbol t c := by simp [atSymbol_setSymbol, h]

@[simp] theorem atSymbol_replicate (x : α) (b : Byte) : atSymbol (Vector.replicate 256 x) b = x := by
  simp [atSymbol]

@[simp] theorem atSymbol_emptyTable (b : Byte) : atSymbol emptyTable b = [] := atSymbol_replicate [] b

theorem atSymbol_ofNat (t : Vector α 256) {i : Nat} (h : i < 256) : atSymbol t (BitVec.ofNat 8 i) = t[i] := by
  have : (BitVec.ofNat 8 i).toNat = i := by simp; omega
  simp [atSymbol, this]

theorem table_ext {t u : Vector α 256} (h : ∀ b, atSymbol t b = atSymbol u b) : t = u := by
  apply Vector.ext
  intro i hi
  rw [← atSymbol_ofNat t hi, ← atSymbol_ofNat u hi, h]

/-- A table's entries are those of the symbols 0 to 255 in order. -/
theorem toList_eq_map (t : Vector α 256) :
    t.toList = (List.range 256).map fun i => atSymbol t (BitVec.ofNat 8 i) := by
  apply List.ext_getElem
  · simp
  · intro i h1 h2
    have hi : i < 256 := by simpa using h1
    simp only [List.getElem_map, List.getElem_range]
    rw [atSymbol_ofNat t hi]
    simp

theorem mem_toList_iff (t : Vector α 256) (x : α) : x ∈ t.toList ↔ ∃ b, atSymbol t b = x := by
  rw [toList_eq_map]
  constructor
  · intro h
    obtain ⟨i, -, hi⟩ := List.mem_map.1 h
    exact ⟨_, hi⟩
  · rintro ⟨b, rfl⟩
    refine List.mem_map.2 ⟨b.toNat, List.mem_range.2 b.isLt, by simp⟩

theorem toList_any_iff (t : Vector α 256) (p : α → Bool) :
    t.toList.any p = true ↔ ∃ b, p (atSymbol t b) = true := by
  rw [List.any_eq_true]
  constructor
  · rintro ⟨x, hx, h⟩
    obtain ⟨b, rfl⟩ := (mem_toList_iff t x).1 hx
    exact ⟨b, h⟩
  · rintro ⟨b, h⟩
    exact ⟨_, (mem_toList_iff t _).2 ⟨b, rfl⟩, h⟩

theorem toList_getElem? (t : Vector α 256) (b : Byte) : t.toList[b.toNat]? = some (atSymbol t b) := by
  have hb : b.toNat < t.toList.length := by simpa using b.isLt
  rw [List.getElem?_eq_getElem hb]
  simp [atSymbol]

theorem countP_toList_le (t : Vector α 256) (p : α → Bool) : t.toList.countP p ≤ 256 := by
  have := List.countP_le_length (p := p) (l := t.toList)
  simpa using this

theorem countP_toList_eq_zero (t : Vector α 256) (p : α → Bool) :
    t.toList.countP p = 0 ↔ ∀ b, p (atSymbol t b) = false := by
  rw [List.countP_eq_zero]
  constructor
  · intro h b; simpa using h _ ((mem_toList_iff t _).2 ⟨b, rfl⟩)
  · intro h x hx
    obtain ⟨b, rfl⟩ := (mem_toList_iff t x).1 hx
    simp [h b]

theorem tableSize_le (t : Vector Bits 256) : tableSize t ≤ 256 := countP_toList_le t _

theorem presentSymbols_le (t : Vector Word 256) : presentSymbols t ≤ 256 := countP_toList_le t _

/-- The number of entries of a table as the list of its symbols. -/
theorem countP_toList (t : Vector α 256) (p : α → Bool) :
    t.toList.countP p = ((List.range 256).filter fun i => p (atSymbol t (BitVec.ofNat 8 i))).length := by
  rw [toList_eq_map, List.countP_map, List.countP_eq_length_filter]; rfl

/-! ### Greatest code length -/

theorem le_foldl_max (l : List Nat) (a : Nat) : a ≤ l.foldl max a ∧ ∀ x ∈ l, x ≤ l.foldl max a := by
  induction l generalizing a with
  | nil => simp
  | cons y l ih =>
    obtain ⟨h1, h2⟩ := ih (max a y)
    refine ⟨by simp only [List.foldl_cons]; omega, ?_⟩
    intro x hx
    simp only [List.foldl_cons]
    rcases List.mem_cons.1 hx with rfl | hx
    · omega
    · exact h2 x hx

theorem foldl_max_mem (l : List Nat) (a : Nat) : l.foldl max a = a ∨ l.foldl max a ∈ l := by
  induction l generalizing a with
  | nil => simp
  | cons y l ih =>
    simp only [List.foldl_cons, List.mem_cons]
    rcases ih (max a y) with h | h
    · rcases Nat.le_total a y with h' | h'
      · right; left; rw [h]; omega
      · left; rw [h]; omega
    · right; right; exact h

theorem length_le_tableMaxLen (t : Vector Bits 256) (b : Byte) : (atSymbol t b).length ≤ tableMaxLen t :=
  (le_foldl_max _ 0).2 _ (List.mem_map_of_mem ((mem_toList_iff t _).2 ⟨b, rfl⟩))

theorem tableMaxLen_attained (t : Vector Bits 256) : ∃ b, (atSymbol t b).length = tableMaxLen t := by
  rcases foldl_max_mem (t.toList.map List.length) 0 with h | h
  · refine ⟨0, ?_⟩
    have := length_le_tableMaxLen t 0
    unfold tableMaxLen at this ⊢
    omega
  · obtain ⟨c, hc, h'⟩ := List.mem_map.1 h
    obtain ⟨b, rfl⟩ := (mem_toList_iff t c).1 hc
    exact ⟨b, h'⟩

theorem tableMaxLen_le {t : Vector Bits 256} {n : Nat} (h : ∀ b, (atSymbol t b).length ≤ n) :
    tableMaxLen t ≤ n := by
  obtain ⟨b, hb⟩ := tableMaxLen_attained t
  rw [← hb]; exact h b

/-! ### The frequency table -/

theorem foldl_count_atSymbol (bytes : List Byte) (t : Vector Word 256) (b : Byte) :
    atSymbol (bytes.foldl (fun t b => setSymbol t b (atSymbol t b + 1)) t) b =
      atSymbol t b + BitVec.ofNat 32 (bytes.count b) := by
  induction bytes generalizing t with
  | nil => simp
  | cons c bytes ih =>
    rw [List.foldl_cons, ih, atSymbol_setSymbol, List.count_cons]
    by_cases h : c = b
    · subst h
      simp only [if_true, beq_self_eq_true, BitVec.ofNat_add]
      rw [BitVec.add_assoc, BitVec.add_comm (BitVec.ofNat 32 (bytes.count c))]
      rfl
    · have h' : (c == b) = false := by simp [h]
      simp [h]

/-- A frequency is a number of occurrences, modulo 2^32. -/
theorem countTable_atSymbol (bytes : List Byte) (b : Byte) :
    atSymbol (countTable bytes) b = BitVec.ofNat 32 (bytes.count b) := by
  rw [countTable, foldl_count_atSymbol]; simp

/-- With fewer than 2^32 bytes nothing wraps (00_scope.md R9). -/
theorem countTable_toNat {bytes : List Byte} (h : bytes.length < 2 ^ 32) (b : Byte) :
    (atSymbol (countTable bytes) b).toNat = bytes.count b := by
  have := List.count_le_length (a := b) (l := bytes)
  rw [countTable_atSymbol, BitVec.toNat_ofNat, Nat.mod_eq_of_lt (by omega)]

theorem countTable_ne_zero {bytes : List Byte} (h : bytes.length < 2 ^ 32) (b : Byte) :
    atSymbol (countTable bytes) b ≠ 0 ↔ b ∈ bytes := by
  rw [← List.count_pos_iff, ← countTable_toNat h b]
  constructor
  · intro h0
    rcases Nat.eq_zero_or_pos (atSymbol (countTable bytes) b).toNat with h1 | h1
    · exact absurd (BitVec.eq_of_toNat_eq (by simpa using h1)) h0
    · exact h1
  · intro h0 h1; rw [h1] at h0; simp at h0

theorem presentSymbols_pos {bytes : List Byte} (h : bytes.length < 2 ^ 32) (h0 : bytes ≠ []) :
    0 < presentSymbols (countTable bytes) := by
  obtain ⟨b, hb⟩ := List.exists_mem_of_ne_nil bytes h0
  rcases Nat.eq_zero_or_pos (presentSymbols (countTable bytes)) with h1 | h1
  · have h2 := (countP_toList_eq_zero (countTable bytes) _).1 h1 b
    have h3 := (countTable_ne_zero h b).2 hb
    simp at h2
    exact absurd h2 h3
  · exact h1

end Sys2Proof.Machine
end

