-- ==== Sys2Proof/Laws/Decoder.lean ====
section
/-! SUPPORT. The parser and the bitstream decoder: what each helper consumes, that the line loop's fuel is never used up, and
how the decode loop runs over a code. -/

namespace Sys2Proof.Machine

/-! ### Helpers of the parser -/

/-- `parse_num` leaves a byte that is no digit, and consumes at least one. -/
theorem numLoop_ok {v d : Nat} {bytes rest : List Byte} {w : Nat} (h : numLoop v d bytes = .ok (w, rest)) :
    ∃ front c tail, bytes = front ++ c :: tail ∧ rest = c :: tail ∧ isDigit c = false := by
  induction bytes generalizing v d with
  | nil => simp [numLoop] at h
  | cons b bytes ih =>
    unfold numLoop at h
    split at h
    · split at h
      · simp at h
      · obtain ⟨front, c, tail, rfl, hr, hc⟩ := ih h
        exact ⟨b :: front, c, tail, rfl, hr, hc⟩
    · rename_i hb
      simp only [Except.ok.injEq, Prod.mk.injEq] at h
      exact ⟨[], b, bytes, rfl, h.2.symm, by simpa using hb⟩

theorem parseNum_ok {bytes rest : List Byte} {w : Nat} (h : parseNum bytes = .ok (w, rest)) :
    ∃ a front c tail, bytes = a :: front ++ c :: tail ∧ rest = c :: tail ∧ isDigit c = false := by
  cases bytes with
  | nil => simp [parseNum] at h
  | cons b bytes =>
    simp only [parseNum] at h
    split at h
    · rename_i hb
      obtain ⟨front, c, tail, he, hr, hc⟩ := numLoop_ok h
      cases front with
      | nil =>
        simp only [List.nil_append, List.cons.injEq] at he
        rw [he.1, hc] at hb
        simp at hb
      | cons a front =>
        simp only [List.cons_append, List.cons.injEq] at he
        obtain ⟨rfl, rfl⟩ := he
        exact ⟨b, front, c, tail, rfl, hr, hc⟩
    · simp at h

/-- The digit of a number 0 to 9 is a digit and reads as the number. -/
theorem digit_spec {k : Nat} (h : k < 10) : isDigit (digit k) = true ∧ (digit k).toNat - 0x30 = k := by
  have : (digit k).toNat = 48 + k := by simp [digit]; omega
  unfold isDigit
  rw [this]; simp; omega

/-- Every digit is the digit of a number 0 to 9. -/
theorem isDigit_spec {c : Byte} (h : isDigit c = true) : ∃ k, k < 10 ∧ c = digit k := by
  unfold isDigit at h
  simp at h
  refine ⟨c.toNat - 48, by omega, ?_⟩
  apply BitVec.eq_of_toNat_eq
  simp [digit]; omega

/-- The number loop on a digit. -/
theorem numLoop_digit {v d k : Nat} (hk : k < 10) (rest : List Byte) :
    numLoop v d (digit k :: rest) =
      if d = 3 ∨ (d = 1 ∧ v = 0) then .error .badNumber else numLoop (10 * v + k) (d + 1) rest := by
  obtain ⟨h1, h2⟩ := digit_spec hk
  rw [numLoop, if_pos h1, h2]

/-- The number loop on a byte that is no digit. -/
theorem numLoop_stop {v d : Nat} {c : Byte} (hc : isDigit c = false) (tail : List Byte) :
    numLoop v d (c :: tail) = .ok (v, c :: tail) := by
  rw [numLoop, if_neg (by simp [hc])]

/-- `parse_num` on a first digit. -/
theorem parseNum_digit {k : Nat} (hk : k < 10) (rest : List Byte) :
    parseNum (digit k :: rest) = numLoop k 1 rest := by
  rw [parseNum, if_pos (digit_spec hk).1, numLoop_digit hk]; simp

/-- `parse_num` reads the spelling of a number up to the byte after it. -/
theorem parseNum_dec {v : Nat} (hv : v ≤ 999) {c : Byte} (hc : isDigit c = false) (tail : List Byte) :
    parseNum (dec v ++ c :: tail) = .ok (v, c :: tail) := by
  unfold dec
  split_ifs with h1 h2 <;> simp only [List.cons_append, List.nil_append]
  · rw [parseNum_digit h1, numLoop_stop hc]
  · rw [parseNum_digit (by omega), numLoop_digit (by omega), if_neg (by omega), numLoop_stop hc]
    congr 2; omega
  · rw [parseNum_digit (by omega), numLoop_digit (by omega), if_neg (by omega), numLoop_digit (by omega),
      if_neg (by omega), numLoop_stop hc]
    congr 2; omega

theorem expectByte_ok {sep : Byte} {bytes rest : List Byte} :
    expectByte sep bytes = .ok rest ↔ bytes = sep :: rest := by
  cases bytes with
  | nil => simp [expectByte]
  | cons b bytes =>
    simp only [expectByte]
    split
    · rename_i h; subst h; simp
    · rename_i h; simp [h]

theorem parseCountLine_ok {bytes rest : List Byte} {count : Nat} :
    parseCountLine bytes = .ok (count, rest) ↔
      parseNum bytes = .ok (count, Ascii.LF :: rest) ∧ 1 ≤ count ∧ count ≤ 256 := by
  unfold parseCountLine
  cases h : parseNum bytes with
  | error e => simp [bind, Except.bind]
  | ok x =>
    obtain ⟨v, r⟩ := x
    simp only [bind, Except.bind]
    cases h' : expectByte Ascii.LF r with
    | error e =>
      simp only [reduceCtorEq, Except.ok.injEq, Prod.mk.injEq, false_iff, not_and]
      rintro ⟨-, rfl⟩
      rw [expectByte_ok.2 rfl] at h'
      simp at h'
    | ok r' =>
      rw [expectByte_ok] at h'
      subst h'
      show (if v = 0 ∨ v > 256 then Except.error FormatError.badCount else Except.ok (v, r')) = _ ↔ _
      simp only [Except.ok.injEq, Prod.mk.injEq, List.cons.injEq, true_and]
      by_cases hc : v = 0 ∨ v > 256
      · rw [if_pos hc]
        simp only [reduceCtorEq, false_iff, not_and]
        omega
      · rw [if_neg hc]
        simp only [Except.ok.injEq, Prod.mk.injEq]
        constructor
        · rintro ⟨rfl, rfl⟩; exact ⟨⟨rfl, rfl⟩, by omega, by omega⟩
        · rintro ⟨⟨rfl, rfl⟩, -⟩; exact ⟨rfl, rfl⟩

/-- The code loop reads the characters of a code, at most 255 with those before, and the LF after them. -/
theorem codeLoop_ok {c : Bits} {bytes rest : List Byte} {code : Bits} (hc : c.length ≤ 255) :
    codeLoop c bytes = .ok (code, rest) ↔
      ∃ more : Bits, code = c ++ more ∧ bytes = asciiCode more ++ Ascii.LF :: rest ∧ code ≠ [] ∧ code.length ≤ 255 := by
  induction bytes generalizing c with
  | nil =>
    simp only [codeLoop, reduceCtorEq, false_iff]
    rintro ⟨more, -, h, -⟩
    simp at h
  | cons b bytes ih =>
    unfold codeLoop
    by_cases hb : b = Ascii.LF
    · rw [if_pos hb]
      constructor
      · intro h
        split at h
        · simp at h
        · rename_i hne
          simp only [Except.ok.injEq, Prod.mk.injEq] at h
          obtain ⟨rfl, rfl⟩ := h
          exact ⟨[], by simp, by simp [asciiCode, hb], hne, hc⟩
      · rintro ⟨more, rfl, h, hne, hl⟩
        cases more with
        | nil =>
          simp only [asciiCode, List.map_nil, List.nil_append, List.cons.injEq] at h
          rw [List.append_nil] at hne ⊢
          rw [if_neg hne, h.2]
        | cons x more =>
          simp only [asciiCode, List.map_cons, List.cons_append, List.cons.injEq] at h
          rw [hb] at h
          exact absurd h.1 (by cases x <;> decide)
    · rw [if_neg hb]
      by_cases hx : b ≠ Ascii.zero ∧ b ≠ Ascii.one
      · rw [if_pos hx]
        simp only [reduceCtorEq, false_iff]
        rintro ⟨more, rfl, h, -, -⟩
        cases more with
        | nil =>
          simp only [asciiCode, List.map_nil, List.nil_append, List.cons.injEq] at h
          exact hb h.1
        | cons x more =>
          simp only [asciiCode, List.map_cons, List.cons_append, List.cons.injEq] at h
          cases x <;> simp_all
      · rw [if_neg hx]
        have hbit : (if decide (b = Ascii.one) = true then Ascii.one else Ascii.zero) = b := by
          by_cases h1 : b = Ascii.one
          · simp [h1]
          · have h0 : b = Ascii.zero := by
              by_contra h0; exact hx ⟨h0, h1⟩
            simp [h0]; decide
        by_cases hl : c.length = Config.maxCodeLen
        · rw [if_pos hl]
          simp only [reduceCtorEq, false_iff]
          rintro ⟨more, rfl, h, -, hlen⟩
          cases more with
          | nil =>
            simp only [asciiCode, List.map_nil, List.nil_append, List.cons.injEq] at h
            exact hb h.1
          | cons x more =>
            simp only [List.length_append, List.length_cons, Config.maxCodeLen] at hlen hl
            omega
        · rw [if_neg hl]
          simp only [Config.maxCodeLen] at hl
          rw [ih (by simp; omega)]
          constructor
          · rintro ⟨more, rfl, rfl, hne, hlen⟩
            refine ⟨decide (b = Ascii.one) :: more, by simp, ?_, hne, hlen⟩
            simp only [asciiCode, List.map_cons, List.cons_append, List.cons.injEq]
            exact ⟨hbit.symm, trivial⟩
          · rintro ⟨more, rfl, h, hne, hlen⟩
            cases more with
            | nil =>
              simp only [asciiCode, List.map_nil, List.nil_append, List.cons.injEq] at h
              exact absurd h.1 hb
            | cons x more =>
              simp only [asciiCode, List.map_cons, List.cons_append, List.cons.injEq] at h
              have hxb : decide (b = Ascii.one) = x := by
                rw [h.1]; cases x <;> decide
              exact ⟨more, by simp [hxb], h.2, hne, hlen⟩

theorem conflicts_eq_true {table : Vector Bits 256} {c : Bits} :
    conflicts table c = true ↔ ∃ b, atSymbol table b ≠ [] ∧ (c <+: atSymbol table b ∨ atSymbol table b <+: c) := by
  unfold conflicts
  rw [toList_any_iff]
  simp [List.isPrefixOf_iff_prefix]

/-- Code characters are taken one by one while the code has room for them. -/
theorem codeLoop_code {c0 c : Bits} (h : c0.length + c.length ≤ 255) (rest : List Byte) :
    codeLoop c0 (asciiCode c ++ rest) = codeLoop (c0 ++ c) rest := by
  induction c generalizing c0 with
  | nil => simp [asciiCode]
  | cons b c ih =>
    simp only [List.length_cons] at h
    have := ih (c0 := c0 ++ [b]) (by simp; omega)
    rw [List.append_assoc, List.singleton_append] at this
    rw [← this]
    cases b <;> simp [asciiCode, codeLoop, Ascii.zero, Ascii.one, Ascii.LF, Config.maxCodeLen] <;> omega

theorem storeEntry_ok {table table' : Vector Bits 256} {v : Byte} {c : Bits} :
    storeEntry table v c = .ok table' ↔
      atSymbol table v = [] ∧ conflicts table c = false ∧ table' = setSymbol table v c := by
  unfold storeEntry
  by_cases h1 : atSymbol table v = []
  · cases h2 : conflicts table c <;> simp [h1, eq_comm]
  · simp [h1]

theorem parseEntry_ok {table table' : Vector Bits 256} {v : Nat} {bytes rest : List Byte} :
    parseEntry table v bytes = .ok (table', rest) ↔
      v ≤ 255 ∧ ∃ c : Bits, bytes = Ascii.SP :: (asciiCode c ++ Ascii.LF :: rest) ∧ c ≠ [] ∧ c.length ≤ 255 ∧
        atSymbol table (BitVec.ofNat 8 v) = [] ∧ conflicts table c = false ∧
        table' = setSymbol table (BitVec.ofNat 8 v) c := by
  unfold parseEntry
  constructor
  · intro h
    cases h1 : expectByte Ascii.SP bytes with
    | error e => simp [h1, bind, Except.bind] at h
    | ok r =>
      rw [expectByte_ok] at h1
      subst h1
      rw [expectByte_ok.2 rfl] at h
      simp only [bind, Except.bind] at h
      split at h
      · simp at h
      · rename_i hv
        cases h2 : codeLoop [] r with
        | error e => simp [h2] at h
        | ok x =>
          obtain ⟨c, r2⟩ := x
          simp only [h2] at h
          cases h3 : storeEntry table (BitVec.ofNat 8 v) c with
          | error e => simp [h3] at h
          | ok t2 =>
            simp only [h3, Except.ok.injEq, Prod.mk.injEq] at h
            obtain ⟨rfl, rfl⟩ := h
            obtain ⟨more, rfl, hb, hne, hlen⟩ := (codeLoop_ok (by simp)).1 h2
            obtain ⟨h4, h5, h6⟩ := storeEntry_ok.1 h3
            exact ⟨by omega, c, by rw [hb], hne, hlen, h4, h5, h6⟩
  · rintro ⟨hv, c, rfl, hne, hlen, h4, h5, rfl⟩
    have h2 : codeLoop [] (asciiCode c ++ Ascii.LF :: rest) = .ok (c, rest) :=
      (codeLoop_ok (by simp)).2 ⟨c, rfl, rfl, hne, hlen⟩
    rw [expectByte_ok.2 rfl]
    simp only [bind, Except.bind]
    rw [if_neg (by omega), h2]
    simp only
    rw [storeEntry_ok.2 ⟨h4, h5, rfl⟩]

/-- An entry line takes at least one byte. -/
theorem parseEntry_shorter {table table' : Vector Bits 256} {v : Nat} {bytes rest : List Byte}
    (h : parseEntry table v bytes = .ok (table', rest)) : rest.length < bytes.length := by
  obtain ⟨-, c, rfl, -⟩ := parseEntry_ok.1 h
  simp; omega

/-- Fuel above the number of bytes makes no difference: the loop ends on its own. -/
theorem linesLoop_fuel {fuel fuel' : Nat} {table : Vector Bits 256} {n : Nat} {bytes : List Byte}
    (h : bytes.length < fuel) (h' : bytes.length < fuel') :
    linesLoop fuel table n bytes = linesLoop fuel' table n bytes := by
  induction fuel generalizing fuel' table n bytes with
  | zero => omega
  | succ fuel ih =>
    obtain ⟨f', rfl⟩ : ∃ f', fuel' = f' + 1 := ⟨fuel' - 1, by omega⟩
    unfold linesLoop
    cases h1 : parseNum bytes with
    | error e => rfl
    | ok x =>
      obtain ⟨v, rest⟩ := x
      simp only
      split
      · rfl
      · cases h2 : parseEntry table v rest with
        | error e => rfl
        | ok y =>
          obtain ⟨t2, r2⟩ := y
          obtain ⟨a, front, c, tail, rfl, rfl, -⟩ := parseNum_ok h1
          have h3 := parseEntry_shorter h2
          simp only [List.length_append, List.length_cons] at h h' h3
          exact ih (by omega) (by omega)

/-- A line that begins with a symbol and a space is an entry line. -/
theorem linesLoop_entry {fuel : Nat} {table : Vector Bits 256} {n : Nat} {v : Byte} {bytes : List Byte} :
    linesLoop (fuel + 1) table n (dec v.toNat ++ Ascii.SP :: bytes) =
      match codeLoop [] bytes with
      | .error e => .error e
      | .ok (c, rest) =>
        match storeEntry table v c with
        | .error e => .error e
        | .ok table => linesLoop fuel table (n + 1) rest := by
  have hv := v.isLt
  have hne : some Ascii.SP ≠ some Ascii.LF := by decide
  simp only [linesLoop, parseNum_dec (show v.toNat ≤ 999 by omega) (show isDigit Ascii.SP = false by decide),
    List.head?_cons, if_neg hne, parseEntry, expectByte, if_true, bind, Except.bind,
    if_neg (show ¬ v.toNat > 255 by omega), BitVec.ofNat_toNat, BitVec.setWidth_eq]
  cases codeLoop [] bytes with
  | error e => rfl
  | ok x => dsimp only; cases storeEntry table v x.1 <;> rfl

/-- The raw section is the end of the container. -/
theorem linesLoop_raw {fuel : Nat} {table : Vector Bits 256} {n : Nat} {bytes : List Byte} {l : Lines}
    (h : linesLoop fuel table n bytes = .ok l) : ∃ front, bytes = front ++ l.raw := by
  induction fuel generalizing table n bytes with
  | zero => simp [linesLoop] at h
  | succ fuel ih =>
    unfold linesLoop at h
    cases h1 : parseNum bytes with
    | error e => simp [h1] at h
    | ok x =>
      obtain ⟨v, rest⟩ := x
      simp only [h1] at h
      obtain ⟨a, front, c, tail, rfl, rfl, -⟩ := parseNum_ok h1
      split at h
      · simp only [Except.ok.injEq] at h
        subst h
        exact ⟨a :: front ++ [c], by simp⟩
      · cases h2 : parseEntry table v (c :: tail) with
        | error e => simp [h2] at h
        | ok y =>
          obtain ⟨t2, r2⟩ := y
          simp only [h2] at h
          obtain ⟨f2, rfl⟩ := ih h
          obtain ⟨-, code, he, -⟩ := parseEntry_ok.1 h2
          rw [he]
          exact ⟨a :: front ++ Ascii.SP :: (asciiCode code ++ Ascii.LF :: f2), by simp⟩

theorem checkLines_ok {count : Nat} {l l' : Lines} :
    checkLines count l = .ok l' ↔
      l' = l ∧ l.entries = count ∧ l.pad ≤ 7 ∧ (l.raw = [] → l.pad = 0) := by
  unfold checkLines
  by_cases h1 : l.entries = count <;> by_cases h2 : l.pad > 7 <;>
    by_cases h3 : l.raw.length = 0 ∧ l.pad ≠ 0
  all_goals simp only [h1, h2, h3, ne_eq, not_true_eq_false, not_false_eq_true, if_true, if_false, reduceCtorEq,
    false_iff, Except.ok.injEq, not_and, and_self, true_and, false_and, and_false]
  · rintro -; omega
  · rintro -; omega
  · intro _ _ h; exact absurd (List.eq_nil_of_length_eq_zero h3.1) h
  · constructor
    · rintro rfl
      refine ⟨rfl, by omega, ?_⟩
      intro hr
      by_contra hp
      exact h3 ⟨by simp [hr], hp⟩
    · exact fun h => h.1.symm

theorem parseContainer_ok {bytes : List Byte} {l : Lines} :
    parseContainer bytes = .ok l ↔
      ∃ (count : Nat) (rest : List Byte), parseCountLine bytes = .ok (count, rest) ∧
        linesLoop (rest.length + 1) emptyTable 0 rest = .ok l ∧ l.entries = count ∧ l.pad ≤ 7 ∧
        (l.raw = [] → l.pad = 0) := by
  unfold parseContainer
  constructor
  · intro h
    cases h1 : parseCountLine bytes with
    | error e => simp [h1, bind, Except.bind] at h
    | ok x =>
      obtain ⟨count, rest⟩ := x
      simp only [h1, bind, Except.bind] at h
      cases h2 : linesLoop (rest.length + 1) emptyTable 0 rest with
      | error e => simp [h2] at h
      | ok l2 =>
        simp only [h2] at h
        obtain ⟨rfl, h3⟩ := checkLines_ok.1 h
        exact ⟨count, rest, rfl, h2, h3⟩
  · rintro ⟨count, rest, h1, h2, h3⟩
    simp only [h1, h2, bind, Except.bind]
    exact checkLines_ok.2 ⟨rfl, h3⟩

theorem parseContainer_raw {bytes : List Byte} {l : Lines} (h : parseContainer bytes = .ok l) :
    ∃ front, bytes = front ++ l.raw := by
  obtain ⟨count, rest, h1, h2, -⟩ := parseContainer_ok.1 h
  obtain ⟨front, rfl⟩ := linesLoop_raw h2
  obtain ⟨h3, -⟩ := parseCountLine_ok.1 h1
  obtain ⟨a, f, c, tail, rfl, he, -⟩ := parseNum_ok h3
  rw [← he]
  exact ⟨a :: f ++ Ascii.LF :: front, by simp⟩

/-! ### What the table of a parse holds -/

/-- What the line loop keeps of its table: a prefix code of `n` entries, none longer than 255 bits. -/
structure TableOf (table : Vector Bits 256) (n : Nat) : Prop where
  prefixFree : PrefixFree table
  size : tableSize table = n
  short : ∀ b, (atSymbol table b).length ≤ 255

theorem TableOf.empty : TableOf emptyTable 0 := by
  refine ⟨fun a b ha => absurd (atSymbol_emptyTable a) ha, ?_, by simp⟩
  rw [tableSize, countP_toList_eq_zero]
  simp

theorem countP_set_new {t : Vector Bits 256} {b : Byte} {c : Bits} (h : atSymbol t b = []) (hc : c ≠ []) :
    tableSize (setSymbol t b c) = tableSize t + 1 := by
  have hb : b.toNat < t.toList.length := by simpa using b.isLt
  have hl : (setSymbol t b c).toList = t.toList.set b.toNat c := rfl
  have hg : t.toList[b.toNat] = [] := by
    have := toList_getElem? t b
    rw [List.getElem?_eq_getElem hb, h] at this
    exact Option.some.inj this
  unfold tableSize
  rw [hl, List.countP_set hb, hg]
  simp [hc]

theorem TableOf.store {table : Vector Bits 256} {n : Nat} (h : TableOf table n) {v : Byte} {c : Bits}
    (hv : atSymbol table v = []) (hc : conflicts table c = false) (hne : c ≠ []) (hl : c.length ≤ 255) :
    TableOf (setSymbol table v c) (n + 1) := by
  have hno : ∀ b, atSymbol table b ≠ [] → ¬ c <+: atSymbol table b ∧ ¬ atSymbol table b <+: c := by
    intro b hb
    constructor <;> intro hp <;>
      exact absurd (conflicts_eq_true.2 ⟨b, hb, by tauto⟩) (by simp [hc])
  refine ⟨?_, by rw [countP_set_new hv hne, h.size], ?_⟩
  · intro a b ha hb hp
    rw [atSymbol_setSymbol] at ha hb hp
    rw [atSymbol_setSymbol] at hp
    by_cases h1 : v = a <;> by_cases h2 : v = b
    · rw [← h1, ← h2]
    · simp only [h1, if_true] at hp ha
      rw [← h1] at hp
      simp only [h2, if_false] at hb hp
      exact absurd hp (hno b hb).1
    · simp only [h1, if_false] at hp ha
      simp only [h2, if_true] at hp
      exact absurd hp (hno a ha).2
    · simp only [h1, h2, if_false] at ha hb hp
      exact h.prefixFree a b ha hb hp
  · intro b
    rw [atSymbol_setSymbol]
    split
    · exact hl
    · exact h.short b

theorem linesLoop_table {fuel : Nat} {table : Vector Bits 256} {n : Nat} {bytes : List Byte} {l : Lines}
    (ht : TableOf table n) (h : linesLoop fuel table n bytes = .ok l) : TableOf l.table l.entries := by
  induction fuel generalizing table n bytes with
  | zero => simp [linesLoop] at h
  | succ fuel ih =>
    unfold linesLoop at h
    cases h1 : parseNum bytes with
    | error e => simp [h1] at h
    | ok x =>
      obtain ⟨v, rest⟩ := x
      simp only [h1] at h
      split at h
      · simp only [Except.ok.injEq] at h
        subst h
        exact ht
      · cases h2 : parseEntry table v rest with
        | error e => simp [h2] at h
        | ok y =>
          obtain ⟨t2, r2⟩ := y
          simp only [h2] at h
          obtain ⟨-, c, -, hne, hl, hv, hc, rfl⟩ := parseEntry_ok.1 h2
          exact ih (ht.store hv hc hne hl) h

/-- A parsed table is a prefix code with as many entries as entry lines (42_decoder.md R164, R165). -/
theorem parseContainer_table {bytes : List Byte} {l : Lines} (h : parseContainer bytes = .ok l) :
    TableOf l.table l.entries ∧ 1 ≤ l.entries := by
  obtain ⟨count, rest, h1, h2, h3, -⟩ := parseContainer_ok.1 h
  exact ⟨linesLoop_table .empty h2, by have := (parseCountLine_ok.1 h1).2; omega⟩

/-! ### The decode loop -/

/-- A matched candidate is the symbol's code. -/
theorem matchCode_some {table : Vector Bits 256} {cand : Bits} {b : Byte} (h : matchCode table cand = some b) :
    atSymbol table b = cand ∧ cand ≠ [] := by
  unfold matchCode at h
  simp only [Option.map_eq_some_iff] at h
  obtain ⟨i, hi, rfl⟩ := h
  obtain ⟨hlt, hp, -⟩ := List.findIdx?_eq_some_iff_getElem.1 hi
  have h256 : i < 256 := by simpa using hlt
  simp only [ne_eq, decide_not, Bool.and_eq_true, Bool.not_eq_eq_eq_not, Bool.not_true,
    decide_eq_false_iff_not, beq_iff_eq] at hp
  have he : atSymbol table (BitVec.ofNat 8 i) = table.toList[i] := by
    rw [atSymbol_ofNat table h256]; simp
  rw [he]
  exact ⟨hp.2, hp.2 ▸ hp.1⟩

theorem matchCode_none {table : Vector Bits 256} {cand : Bits} :
    matchCode table cand = none ↔ ∀ b, atSymbol table b = [] ∨ atSymbol table b ≠ cand := by
  unfold matchCode
  simp only [Option.map_eq_none_iff, List.findIdx?_eq_none_iff]
  constructor
  · intro h b
    have := h _ ((mem_toList_iff table _).2 ⟨b, rfl⟩)
    simp only [ne_eq, decide_not, Bool.and_eq_false_iff, Bool.not_eq_eq_eq_not, Bool.not_false,
      decide_eq_true_eq, beq_eq_false_iff_ne] at this
    exact this
  · intro h x hx
    obtain ⟨b, rfl⟩ := (mem_toList_iff table x).1 hx
    rcases h b with h | h <;> simp [h]

/-- On a prefix-free table the matched symbol is the one whose code it is (42_decoder.md R172). -/
theorem matchCode_code {table : Vector Bits 256} (hp : PrefixFree table) {b : Byte} (hb : atSymbol table b ≠ []) :
    matchCode table (atSymbol table b) = some b := by
  cases h : matchCode table (atSymbol table b) with
  | none =>
    rcases matchCode_none.1 h b with h' | h'
    · exact absurd h' hb
    · exact absurd rfl h'
  | some c =>
    obtain ⟨hc, -⟩ := matchCode_some h
    have := hp c b (by rw [hc]; exact hb) hb (by rw [hc])
    rw [this]

/-- Bits short of a code of a prefix-free table are no code, and are live. -/
theorem proper_prefix {table : Vector Bits 256} (hp : PrefixFree table) {b : Byte} {u : Bits} {x : Bool}
    {more : Bits} (hb : atSymbol table b = u ++ x :: more) :
    matchCode table u = none ∧ isLive table u = true := by
  have hbne : atSymbol table b ≠ [] := by rw [hb]; simp
  constructor
  · rw [matchCode_none]
    intro c
    by_contra hc
    simp only [not_or, not_not] at hc
    have := hp c b hc.1 hbne (by rw [hc.2, hb]; exact List.prefix_append _ _)
    rw [this, hb] at hc
    have := congrArg List.length hc.2
    simp at this
  · unfold isLive
    rw [toList_any_iff]
    exact ⟨b, by simp [List.isPrefixOf_iff_prefix, hb]⟩

theorem isLive_false {table : Vector Bits 256} {u : Bits} (hu : u ≠ []) :
    isLive table u = false ↔ ∀ b, ¬ u <+: atSymbol table b := by
  rw [← Bool.not_eq_true, isLive, toList_any_iff]
  simp only [ne_eq, decide_not, Bool.and_eq_true, Bool.not_eq_eq_eq_not, Bool.not_true, decide_eq_false_iff_not,
    List.isPrefixOf_iff_prefix, not_exists, not_and]
  constructor
  · intro h b hb
    refine h b ?_ hb
    rintro h0
    rw [h0, List.prefix_nil] at hb
    exact hu hb
  · intro h b _; exact h b

/-- The decode loop runs through bits that stay short of a code. -/
theorem decodeLoop_through {table : Vector Bits 256} (hp : PrefixFree table) {cap o : Nat} {b : Byte} {x : Bool}
    {more : Bits} (v u : Bits) (hb : atSymbol table b = u ++ v ++ x :: more) (rest : Bits) :
    decodeLoop table cap o u (v ++ rest) = decodeLoop table cap o (u ++ v) rest := by
  induction v generalizing u with
  | nil => simp
  | cons y v ih =>
    obtain ⟨h1, h2⟩ := proper_prefix hp (b := b) (u := u ++ [y]) (x := (v ++ x :: more).head (by simp))
      (more := (v ++ x :: more).tail) (by rw [List.cons_head_tail, hb]; simp)
    rw [List.cons_append, decodeLoop, h1]
    simp only [h2, if_true]
    rw [ih (u ++ [y]) (by rw [hb]; simp)]
    simp

/-- The decode loop emits a symbol at the end of its code (42_decoder.md R170), when there is room. -/
theorem decodeLoop_code {table : Vector Bits 256} (hp : PrefixFree table) {cap o : Nat} {b : Byte}
    (hb : atSymbol table b ≠ []) (rest : Bits) :
    decodeLoop table cap o [] (atSymbol table b ++ rest) =
      if o = cap then .error .capacityOut else (decodeLoop table cap (o + 1) [] rest).map (b :: ·) := by
  obtain ⟨u, x, hu⟩ : ∃ u x, atSymbol table b = u ++ [x] :=
    ⟨_, _, (List.dropLast_append_getLast hb).symm⟩
  have h1 := decodeLoop_through hp (cap := cap) (o := o) (b := b) (x := x) (more := []) u [] (by simpa using hu)
    ([x] ++ rest)
  rw [hu, List.append_assoc, h1, List.nil_append, List.singleton_append, decodeLoop, ← hu, matchCode_code hp hb]

/-- Whole codes first: the loop continues behind them. -/
theorem decodeLoop_codes {table : Vector Bits 256} (hp : PrefixFree table) {cap : Nat} (syms : List Byte)
    (hs : ∀ b ∈ syms, atSymbol table b ≠ []) {o : Nat} (ho : o + syms.length ≤ cap) (rest : Bits) :
    decodeLoop table cap o [] (syms.flatMap (atSymbol table) ++ rest) =
      (decodeLoop table cap (o + syms.length) [] rest).map (syms ++ ·) := by
  induction syms generalizing o with
  | nil =>
    simp only [List.flatMap_nil, List.nil_append, List.length_nil, Nat.add_zero]
    cases decodeLoop table cap o [] rest <;> rfl
  | cons b syms ih =>
    simp only [List.length_cons] at ho
    rw [List.flatMap_cons, List.append_assoc, decodeLoop_code hp (hs b (by simp)), if_neg (by omega),
      ih (fun c hc => hs c (by simp [hc])) (by omega), List.length_cons, Nat.add_assoc, Nat.add_comm 1]
    cases decodeLoop table cap (o + (syms.length + 1)) [] rest <;> rfl

/-- No more bytes are emitted than there is room for. -/
theorem decodeLoop_length {table : Vector Bits 256} {cap : Nat} {bits cand : Bits} {o : Nat} {out : List Byte}
    (ho : o ≤ cap) (h : decodeLoop table cap o cand bits = .ok out) : o + out.length ≤ cap := by
  induction bits generalizing o cand out with
  | nil =>
    unfold decodeLoop at h
    split at h
    · simp only [Except.ok.injEq] at h; subst h; simpa using ho
    · simp at h
  | cons x bits ih =>
    unfold decodeLoop at h
    split at h
    · split at h
      · simp at h
      · rename_i hne
        cases h1 : decodeLoop table cap (o + 1) [] bits with
        | error e => simp [h1, Except.map] at h
        | ok out2 =>
          simp only [h1, Except.map, Except.ok.injEq] at h
          subst h
          have := ih (by omega) h1
          simp only [List.length_cons]
          omega
    · split at h
      · exact ih ho h
      · simp at h

end Sys2Proof.Machine
end

