-- ==== Sys2Proof/Laws/State.lean ====
section
/-! SUPPORT. What each named update of State does to each field, one lemma each, so that no later proof unfolds an update. -/

namespace Sys2Proof.Machine

variable (s : State)

/-! `State.launch` -/

@[simp] theorem State.launch_params (op : Instr) : (s.launch op).params = s.params := rfl
@[simp] theorem State.launch_cmd (op : Instr) : (s.launch op).cmd = s.cmd := rfl
@[simp] theorem State.launch_done (op : Instr) : (s.launch op).done = false := rfl
@[simp] theorem State.launch_err (op : Instr) : (s.launch op).err = false := rfl
@[simp] theorem State.launch_wign (op : Instr) : (s.launch op).wign = s.wign := rfl
@[simp] theorem State.launch_errcode (op : Instr) : (s.launch op).errcode = 0 := rfl
@[simp] theorem State.launch_errinfo (op : Instr) : (s.launch op).errinfo = 0 := rfl
@[simp] theorem State.launch_doneIE (op : Instr) : (s.launch op).doneIE = s.doneIE := rfl
@[simp] theorem State.launch_errIE (op : Instr) : (s.launch op).errIE = s.errIE := rfl
@[simp] theorem State.launch_freqV (op : Instr) : (s.launch op).freqV = s.freqV := rfl
@[simp] theorem State.launch_treeV (op : Instr) : (s.launch op).treeV = s.treeV := rfl
@[simp] theorem State.launch_codeV (op : Instr) : (s.launch op).codeV = s.codeV := rfl
@[simp] theorem State.launch_csrc (op : Instr) : (s.launch op).csrc = s.csrc := rfl
@[simp] theorem State.launch_inLen (op : Instr) : (s.launch op).inLen = s.inLen := rfl
@[simp] theorem State.launch_outLen (op : Instr) : (s.launch op).outLen = s.outLen := rfl
@[simp] theorem State.launch_nsym (op : Instr) : (s.launch op).nsym = s.nsym := rfl
@[simp] theorem State.launch_ncode (op : Instr) : (s.launch op).ncode = s.ncode := rfl
@[simp] theorem State.launch_nnodes (op : Instr) : (s.launch op).nnodes = s.nnodes := rfl
@[simp] theorem State.launch_root (op : Instr) : (s.launch op).root = s.root := rfl
@[simp] theorem State.launch_maxlen (op : Instr) : (s.launch op).maxlen = s.maxlen := rfl
@[simp] theorem State.launch_totalBits (op : Instr) : (s.launch op).totalBits = s.totalBits := rfl
@[simp] theorem State.launch_pad (op : Instr) : (s.launch op).pad = s.pad := rfl
@[simp] theorem State.launch_hdrLen (op : Instr) : (s.launch op).hdrLen = s.hdrLen := rfl
@[simp] theorem State.launch_freq (op : Instr) : (s.launch op).freq = s.freq := rfl
@[simp] theorem State.launch_node (op : Instr) : (s.launch op).node = s.node := rfl
@[simp] theorem State.launch_code (op : Instr) : (s.launch op).code = s.code := rfl
@[simp] theorem State.launch_ibuf (op : Instr) : (s.launch op).ibuf = s.ibuf := rfl
@[simp] theorem State.launch_obuf (op : Instr) : (s.launch op).obuf = s.obuf := rfl
@[simp] theorem State.launch_phase (op : Instr) : (s.launch op).phase = .busy op := rfl
@[simp] theorem State.launch_events (op : Instr) : (s.launch op).events = s.events := rfl
@[simp] theorem State.launch_resp (op : Instr) : (s.launch op).resp = s.resp := rfl
@[simp] theorem State.launch_draw (op : Instr) : (s.launch op).draw = s.draw := rfl

/-! `State.takeError` -/

@[simp] theorem State.takeError_params (e : Error) : (s.takeError e).params = s.params := rfl
@[simp] theorem State.takeError_cmd (e : Error) : (s.takeError e).cmd = s.cmd := rfl
@[simp] theorem State.takeError_done (e : Error) : (s.takeError e).done = true := rfl
@[simp] theorem State.takeError_err (e : Error) : (s.takeError e).err = true := rfl
@[simp] theorem State.takeError_wign (e : Error) : (s.takeError e).wign = s.wign := rfl
@[simp] theorem State.takeError_errcode (e : Error) : (s.takeError e).errcode = e.code := rfl
@[simp] theorem State.takeError_errinfo (e : Error) : (s.takeError e).errinfo = e.info := rfl
@[simp] theorem State.takeError_doneIE (e : Error) : (s.takeError e).doneIE = s.doneIE := rfl
@[simp] theorem State.takeError_errIE (e : Error) : (s.takeError e).errIE = s.errIE := rfl
@[simp] theorem State.takeError_freqV (e : Error) : (s.takeError e).freqV = s.freqV := rfl
@[simp] theorem State.takeError_treeV (e : Error) : (s.takeError e).treeV = s.treeV := rfl
@[simp] theorem State.takeError_codeV (e : Error) : (s.takeError e).codeV = s.codeV := rfl
@[simp] theorem State.takeError_csrc (e : Error) : (s.takeError e).csrc = s.csrc := rfl
@[simp] theorem State.takeError_inLen (e : Error) : (s.takeError e).inLen = s.inLen := rfl
@[simp] theorem State.takeError_outLen (e : Error) : (s.takeError e).outLen = s.outLen := rfl
@[simp] theorem State.takeError_nsym (e : Error) : (s.takeError e).nsym = s.nsym := rfl
@[simp] theorem State.takeError_ncode (e : Error) : (s.takeError e).ncode = s.ncode := rfl
@[simp] theorem State.takeError_nnodes (e : Error) : (s.takeError e).nnodes = s.nnodes := rfl
@[simp] theorem State.takeError_root (e : Error) : (s.takeError e).root = s.root := rfl
@[simp] theorem State.takeError_maxlen (e : Error) : (s.takeError e).maxlen = s.maxlen := rfl
@[simp] theorem State.takeError_totalBits (e : Error) : (s.takeError e).totalBits = s.totalBits := rfl
@[simp] theorem State.takeError_pad (e : Error) : (s.takeError e).pad = s.pad := rfl
@[simp] theorem State.takeError_hdrLen (e : Error) : (s.takeError e).hdrLen = s.hdrLen := rfl
@[simp] theorem State.takeError_freq (e : Error) : (s.takeError e).freq = s.freq := rfl
@[simp] theorem State.takeError_node (e : Error) : (s.takeError e).node = s.node := rfl
@[simp] theorem State.takeError_code (e : Error) : (s.takeError e).code = s.code := rfl
@[simp] theorem State.takeError_ibuf (e : Error) : (s.takeError e).ibuf = s.ibuf := rfl
@[simp] theorem State.takeError_obuf (e : Error) : (s.takeError e).obuf = s.obuf := rfl
@[simp] theorem State.takeError_phase (e : Error) : (s.takeError e).phase = .idle := rfl
@[simp] theorem State.takeError_events (e : Error) : (s.takeError e).events = s.events := rfl
@[simp] theorem State.takeError_resp (e : Error) : (s.takeError e).resp = s.resp := rfl
@[simp] theorem State.takeError_draw (e : Error) : (s.takeError e).draw = s.draw := rfl

/-! `State.complete` -/

@[simp] theorem State.complete_params : (s.complete).params = s.params := rfl
@[simp] theorem State.complete_cmd : (s.complete).cmd = s.cmd := rfl
@[simp] theorem State.complete_done : (s.complete).done = true := rfl
@[simp] theorem State.complete_err : (s.complete).err = s.err := rfl
@[simp] theorem State.complete_wign : (s.complete).wign = s.wign := rfl
@[simp] theorem State.complete_errcode : (s.complete).errcode = s.errcode := rfl
@[simp] theorem State.complete_errinfo : (s.complete).errinfo = s.errinfo := rfl
@[simp] theorem State.complete_doneIE : (s.complete).doneIE = s.doneIE := rfl
@[simp] theorem State.complete_errIE : (s.complete).errIE = s.errIE := rfl
@[simp] theorem State.complete_freqV : (s.complete).freqV = s.freqV := rfl
@[simp] theorem State.complete_treeV : (s.complete).treeV = s.treeV := rfl
@[simp] theorem State.complete_codeV : (s.complete).codeV = s.codeV := rfl
@[simp] theorem State.complete_csrc : (s.complete).csrc = s.csrc := rfl
@[simp] theorem State.complete_inLen : (s.complete).inLen = s.inLen := rfl
@[simp] theorem State.complete_outLen : (s.complete).outLen = s.outLen := rfl
@[simp] theorem State.complete_nsym : (s.complete).nsym = s.nsym := rfl
@[simp] theorem State.complete_ncode : (s.complete).ncode = s.ncode := rfl
@[simp] theorem State.complete_nnodes : (s.complete).nnodes = s.nnodes := rfl
@[simp] theorem State.complete_root : (s.complete).root = s.root := rfl
@[simp] theorem State.complete_maxlen : (s.complete).maxlen = s.maxlen := rfl
@[simp] theorem State.complete_totalBits : (s.complete).totalBits = s.totalBits := rfl
@[simp] theorem State.complete_pad : (s.complete).pad = s.pad := rfl
@[simp] theorem State.complete_hdrLen : (s.complete).hdrLen = s.hdrLen := rfl
@[simp] theorem State.complete_freq : (s.complete).freq = s.freq := rfl
@[simp] theorem State.complete_node : (s.complete).node = s.node := rfl
@[simp] theorem State.complete_code : (s.complete).code = s.code := rfl
@[simp] theorem State.complete_ibuf : (s.complete).ibuf = s.ibuf := rfl
@[simp] theorem State.complete_obuf : (s.complete).obuf = s.obuf := rfl
@[simp] theorem State.complete_phase : (s.complete).phase = .idle := rfl
@[simp] theorem State.complete_events : (s.complete).events = s.events := rfl
@[simp] theorem State.complete_resp : (s.complete).resp = s.resp := rfl
@[simp] theorem State.complete_draw : (s.complete).draw = s.draw := rfl

/-! `State.invalidate` -/

@[simp] theorem State.invalidate_params : (s.invalidate).params = s.params := rfl
@[simp] theorem State.invalidate_cmd : (s.invalidate).cmd = s.cmd := rfl
@[simp] theorem State.invalidate_done : (s.invalidate).done = s.done := rfl
@[simp] theorem State.invalidate_err : (s.invalidate).err = s.err := rfl
@[simp] theorem State.invalidate_wign : (s.invalidate).wign = s.wign := rfl
@[simp] theorem State.invalidate_errcode : (s.invalidate).errcode = s.errcode := rfl
@[simp] theorem State.invalidate_errinfo : (s.invalidate).errinfo = s.errinfo := rfl
@[simp] theorem State.invalidate_doneIE : (s.invalidate).doneIE = s.doneIE := rfl
@[simp] theorem State.invalidate_errIE : (s.invalidate).errIE = s.errIE := rfl
@[simp] theorem State.invalidate_freqV : (s.invalidate).freqV = false := rfl
@[simp] theorem State.invalidate_treeV : (s.invalidate).treeV = false := rfl
@[simp] theorem State.invalidate_codeV : (s.invalidate).codeV = false := rfl
@[simp] theorem State.invalidate_csrc : (s.invalidate).csrc = s.csrc := rfl
@[simp] theorem State.invalidate_inLen : (s.invalidate).inLen = s.inLen := rfl
@[simp] theorem State.invalidate_outLen : (s.invalidate).outLen = s.outLen := rfl
@[simp] theorem State.invalidate_nsym : (s.invalidate).nsym = s.nsym := rfl
@[simp] theorem State.invalidate_ncode : (s.invalidate).ncode = s.ncode := rfl
@[simp] theorem State.invalidate_nnodes : (s.invalidate).nnodes = s.nnodes := rfl
@[simp] theorem State.invalidate_root : (s.invalidate).root = s.root := rfl
@[simp] theorem State.invalidate_maxlen : (s.invalidate).maxlen = s.maxlen := rfl
@[simp] theorem State.invalidate_totalBits : (s.invalidate).totalBits = s.totalBits := rfl
@[simp] theorem State.invalidate_pad : (s.invalidate).pad = s.pad := rfl
@[simp] theorem State.invalidate_hdrLen : (s.invalidate).hdrLen = s.hdrLen := rfl
@[simp] theorem State.invalidate_freq : (s.invalidate).freq = s.freq := rfl
@[simp] theorem State.invalidate_node : (s.invalidate).node = s.node := rfl
@[simp] theorem State.invalidate_code : (s.invalidate).code = s.code := rfl
@[simp] theorem State.invalidate_ibuf : (s.invalidate).ibuf = s.ibuf := rfl
@[simp] theorem State.invalidate_obuf : (s.invalidate).obuf = s.obuf := rfl
@[simp] theorem State.invalidate_phase : (s.invalidate).phase = s.phase := rfl
@[simp] theorem State.invalidate_events : (s.invalidate).events = s.events := rfl
@[simp] theorem State.invalidate_resp : (s.invalidate).resp = s.resp := rfl
@[simp] theorem State.invalidate_draw : (s.invalidate).draw = s.draw := rfl

/-! `State.ignoreWrite` -/

@[simp] theorem State.ignoreWrite_params : (s.ignoreWrite).params = s.params := rfl
@[simp] theorem State.ignoreWrite_cmd : (s.ignoreWrite).cmd = s.cmd := rfl
@[simp] theorem State.ignoreWrite_done : (s.ignoreWrite).done = s.done := rfl
@[simp] theorem State.ignoreWrite_err : (s.ignoreWrite).err = s.err := rfl
@[simp] theorem State.ignoreWrite_wign : (s.ignoreWrite).wign = true := rfl
@[simp] theorem State.ignoreWrite_errcode : (s.ignoreWrite).errcode = s.errcode := rfl
@[simp] theorem State.ignoreWrite_errinfo : (s.ignoreWrite).errinfo = s.errinfo := rfl
@[simp] theorem State.ignoreWrite_doneIE : (s.ignoreWrite).doneIE = s.doneIE := rfl
@[simp] theorem State.ignoreWrite_errIE : (s.ignoreWrite).errIE = s.errIE := rfl
@[simp] theorem State.ignoreWrite_freqV : (s.ignoreWrite).freqV = s.freqV := rfl
@[simp] theorem State.ignoreWrite_treeV : (s.ignoreWrite).treeV = s.treeV := rfl
@[simp] theorem State.ignoreWrite_codeV : (s.ignoreWrite).codeV = s.codeV := rfl
@[simp] theorem State.ignoreWrite_csrc : (s.ignoreWrite).csrc = s.csrc := rfl
@[simp] theorem State.ignoreWrite_inLen : (s.ignoreWrite).inLen = s.inLen := rfl
@[simp] theorem State.ignoreWrite_outLen : (s.ignoreWrite).outLen = s.outLen := rfl
@[simp] theorem State.ignoreWrite_nsym : (s.ignoreWrite).nsym = s.nsym := rfl
@[simp] theorem State.ignoreWrite_ncode : (s.ignoreWrite).ncode = s.ncode := rfl
@[simp] theorem State.ignoreWrite_nnodes : (s.ignoreWrite).nnodes = s.nnodes := rfl
@[simp] theorem State.ignoreWrite_root : (s.ignoreWrite).root = s.root := rfl
@[simp] theorem State.ignoreWrite_maxlen : (s.ignoreWrite).maxlen = s.maxlen := rfl
@[simp] theorem State.ignoreWrite_totalBits : (s.ignoreWrite).totalBits = s.totalBits := rfl
@[simp] theorem State.ignoreWrite_pad : (s.ignoreWrite).pad = s.pad := rfl
@[simp] theorem State.ignoreWrite_hdrLen : (s.ignoreWrite).hdrLen = s.hdrLen := rfl
@[simp] theorem State.ignoreWrite_freq : (s.ignoreWrite).freq = s.freq := rfl
@[simp] theorem State.ignoreWrite_node : (s.ignoreWrite).node = s.node := rfl
@[simp] theorem State.ignoreWrite_code : (s.ignoreWrite).code = s.code := rfl
@[simp] theorem State.ignoreWrite_ibuf : (s.ignoreWrite).ibuf = s.ibuf := rfl
@[simp] theorem State.ignoreWrite_obuf : (s.ignoreWrite).obuf = s.obuf := rfl
@[simp] theorem State.ignoreWrite_phase : (s.ignoreWrite).phase = s.phase := rfl
@[simp] theorem State.ignoreWrite_events : (s.ignoreWrite).events = s.events := rfl
@[simp] theorem State.ignoreWrite_resp : (s.ignoreWrite).resp = s.resp := rfl
@[simp] theorem State.ignoreWrite_draw : (s.ignoreWrite).draw = s.draw := rfl

/-! `State.writeStatus` -/

@[simp] theorem State.writeStatus_params (v : Word) : (s.writeStatus v).params = s.params := rfl
@[simp] theorem State.writeStatus_cmd (v : Word) : (s.writeStatus v).cmd = s.cmd := rfl
@[simp] theorem State.writeStatus_done (v : Word) : (s.writeStatus v).done = (s.done && !v.getLsbD 1) := rfl
@[simp] theorem State.writeStatus_err (v : Word) : (s.writeStatus v).err = (s.err && !v.getLsbD 2) := rfl
@[simp] theorem State.writeStatus_wign (v : Word) : (s.writeStatus v).wign = (s.wign && !v.getLsbD 3) := rfl
@[simp] theorem State.writeStatus_errcode (v : Word) : (s.writeStatus v).errcode = (if v.getLsbD 2 then 0 else s.errcode) := rfl
@[simp] theorem State.writeStatus_errinfo (v : Word) : (s.writeStatus v).errinfo = (if v.getLsbD 2 then 0 else s.errinfo) := rfl
@[simp] theorem State.writeStatus_doneIE (v : Word) : (s.writeStatus v).doneIE = s.doneIE := rfl
@[simp] theorem State.writeStatus_errIE (v : Word) : (s.writeStatus v).errIE = s.errIE := rfl
@[simp] theorem State.writeStatus_freqV (v : Word) : (s.writeStatus v).freqV = s.freqV := rfl
@[simp] theorem State.writeStatus_treeV (v : Word) : (s.writeStatus v).treeV = s.treeV := rfl
@[simp] theorem State.writeStatus_codeV (v : Word) : (s.writeStatus v).codeV = s.codeV := rfl
@[simp] theorem State.writeStatus_csrc (v : Word) : (s.writeStatus v).csrc = s.csrc := rfl
@[simp] theorem State.writeStatus_inLen (v : Word) : (s.writeStatus v).inLen = s.inLen := rfl
@[simp] theorem State.writeStatus_outLen (v : Word) : (s.writeStatus v).outLen = s.outLen := rfl
@[simp] theorem State.writeStatus_nsym (v : Word) : (s.writeStatus v).nsym = s.nsym := rfl
@[simp] theorem State.writeStatus_ncode (v : Word) : (s.writeStatus v).ncode = s.ncode := rfl
@[simp] theorem State.writeStatus_nnodes (v : Word) : (s.writeStatus v).nnodes = s.nnodes := rfl
@[simp] theorem State.writeStatus_root (v : Word) : (s.writeStatus v).root = s.root := rfl
@[simp] theorem State.writeStatus_maxlen (v : Word) : (s.writeStatus v).maxlen = s.maxlen := rfl
@[simp] theorem State.writeStatus_totalBits (v : Word) : (s.writeStatus v).totalBits = s.totalBits := rfl
@[simp] theorem State.writeStatus_pad (v : Word) : (s.writeStatus v).pad = s.pad := rfl
@[simp] theorem State.writeStatus_hdrLen (v : Word) : (s.writeStatus v).hdrLen = s.hdrLen := rfl
@[simp] theorem State.writeStatus_freq (v : Word) : (s.writeStatus v).freq = s.freq := rfl
@[simp] theorem State.writeStatus_node (v : Word) : (s.writeStatus v).node = s.node := rfl
@[simp] theorem State.writeStatus_code (v : Word) : (s.writeStatus v).code = s.code := rfl
@[simp] theorem State.writeStatus_ibuf (v : Word) : (s.writeStatus v).ibuf = s.ibuf := rfl
@[simp] theorem State.writeStatus_obuf (v : Word) : (s.writeStatus v).obuf = s.obuf := rfl
@[simp] theorem State.writeStatus_phase (v : Word) : (s.writeStatus v).phase = s.phase := rfl
@[simp] theorem State.writeStatus_events (v : Word) : (s.writeStatus v).events = s.events := rfl
@[simp] theorem State.writeStatus_resp (v : Word) : (s.writeStatus v).resp = s.resp := rfl
@[simp] theorem State.writeStatus_draw (v : Word) : (s.writeStatus v).draw = s.draw := rfl

/-! `State.writeIrqEn` -/

@[simp] theorem State.writeIrqEn_params (v : Word) : (s.writeIrqEn v).params = s.params := rfl
@[simp] theorem State.writeIrqEn_cmd (v : Word) : (s.writeIrqEn v).cmd = s.cmd := rfl
@[simp] theorem State.writeIrqEn_done (v : Word) : (s.writeIrqEn v).done = s.done := rfl
@[simp] theorem State.writeIrqEn_err (v : Word) : (s.writeIrqEn v).err = s.err := rfl
@[simp] theorem State.writeIrqEn_wign (v : Word) : (s.writeIrqEn v).wign = s.wign := rfl
@[simp] theorem State.writeIrqEn_errcode (v : Word) : (s.writeIrqEn v).errcode = s.errcode := rfl
@[simp] theorem State.writeIrqEn_errinfo (v : Word) : (s.writeIrqEn v).errinfo = s.errinfo := rfl
@[simp] theorem State.writeIrqEn_doneIE (v : Word) : (s.writeIrqEn v).doneIE = v.getLsbD 1 := rfl
@[simp] theorem State.writeIrqEn_errIE (v : Word) : (s.writeIrqEn v).errIE = v.getLsbD 2 := rfl
@[simp] theorem State.writeIrqEn_freqV (v : Word) : (s.writeIrqEn v).freqV = s.freqV := rfl
@[simp] theorem State.writeIrqEn_treeV (v : Word) : (s.writeIrqEn v).treeV = s.treeV := rfl
@[simp] theorem State.writeIrqEn_codeV (v : Word) : (s.writeIrqEn v).codeV = s.codeV := rfl
@[simp] theorem State.writeIrqEn_csrc (v : Word) : (s.writeIrqEn v).csrc = s.csrc := rfl
@[simp] theorem State.writeIrqEn_inLen (v : Word) : (s.writeIrqEn v).inLen = s.inLen := rfl
@[simp] theorem State.writeIrqEn_outLen (v : Word) : (s.writeIrqEn v).outLen = s.outLen := rfl
@[simp] theorem State.writeIrqEn_nsym (v : Word) : (s.writeIrqEn v).nsym = s.nsym := rfl
@[simp] theorem State.writeIrqEn_ncode (v : Word) : (s.writeIrqEn v).ncode = s.ncode := rfl
@[simp] theorem State.writeIrqEn_nnodes (v : Word) : (s.writeIrqEn v).nnodes = s.nnodes := rfl
@[simp] theorem State.writeIrqEn_root (v : Word) : (s.writeIrqEn v).root = s.root := rfl
@[simp] theorem State.writeIrqEn_maxlen (v : Word) : (s.writeIrqEn v).maxlen = s.maxlen := rfl
@[simp] theorem State.writeIrqEn_totalBits (v : Word) : (s.writeIrqEn v).totalBits = s.totalBits := rfl
@[simp] theorem State.writeIrqEn_pad (v : Word) : (s.writeIrqEn v).pad = s.pad := rfl
@[simp] theorem State.writeIrqEn_hdrLen (v : Word) : (s.writeIrqEn v).hdrLen = s.hdrLen := rfl
@[simp] theorem State.writeIrqEn_freq (v : Word) : (s.writeIrqEn v).freq = s.freq := rfl
@[simp] theorem State.writeIrqEn_node (v : Word) : (s.writeIrqEn v).node = s.node := rfl
@[simp] theorem State.writeIrqEn_code (v : Word) : (s.writeIrqEn v).code = s.code := rfl
@[simp] theorem State.writeIrqEn_ibuf (v : Word) : (s.writeIrqEn v).ibuf = s.ibuf := rfl
@[simp] theorem State.writeIrqEn_obuf (v : Word) : (s.writeIrqEn v).obuf = s.obuf := rfl
@[simp] theorem State.writeIrqEn_phase (v : Word) : (s.writeIrqEn v).phase = s.phase := rfl
@[simp] theorem State.writeIrqEn_events (v : Word) : (s.writeIrqEn v).events = s.events := rfl
@[simp] theorem State.writeIrqEn_resp (v : Word) : (s.writeIrqEn v).resp = s.resp := rfl
@[simp] theorem State.writeIrqEn_draw (v : Word) : (s.writeIrqEn v).draw = s.draw := rfl

/-! `State.writeInLen` -/

@[simp] theorem State.writeInLen_params (v : Word) : (s.writeInLen v).params = s.params := rfl
@[simp] theorem State.writeInLen_cmd (v : Word) : (s.writeInLen v).cmd = s.cmd := rfl
@[simp] theorem State.writeInLen_done (v : Word) : (s.writeInLen v).done = s.done := rfl
@[simp] theorem State.writeInLen_err (v : Word) : (s.writeInLen v).err = s.err := rfl
@[simp] theorem State.writeInLen_wign (v : Word) : (s.writeInLen v).wign = s.wign := rfl
@[simp] theorem State.writeInLen_errcode (v : Word) : (s.writeInLen v).errcode = s.errcode := rfl
@[simp] theorem State.writeInLen_errinfo (v : Word) : (s.writeInLen v).errinfo = s.errinfo := rfl
@[simp] theorem State.writeInLen_doneIE (v : Word) : (s.writeInLen v).doneIE = s.doneIE := rfl
@[simp] theorem State.writeInLen_errIE (v : Word) : (s.writeInLen v).errIE = s.errIE := rfl
@[simp] theorem State.writeInLen_freqV (v : Word) : (s.writeInLen v).freqV = false := rfl
@[simp] theorem State.writeInLen_treeV (v : Word) : (s.writeInLen v).treeV = false := rfl
@[simp] theorem State.writeInLen_codeV (v : Word) : (s.writeInLen v).codeV = false := rfl
@[simp] theorem State.writeInLen_csrc (v : Word) : (s.writeInLen v).csrc = s.csrc := rfl
@[simp] theorem State.writeInLen_inLen (v : Word) : (s.writeInLen v).inLen = v := rfl
@[simp] theorem State.writeInLen_outLen (v : Word) : (s.writeInLen v).outLen = s.outLen := rfl
@[simp] theorem State.writeInLen_nsym (v : Word) : (s.writeInLen v).nsym = s.nsym := rfl
@[simp] theorem State.writeInLen_ncode (v : Word) : (s.writeInLen v).ncode = s.ncode := rfl
@[simp] theorem State.writeInLen_nnodes (v : Word) : (s.writeInLen v).nnodes = s.nnodes := rfl
@[simp] theorem State.writeInLen_root (v : Word) : (s.writeInLen v).root = s.root := rfl
@[simp] theorem State.writeInLen_maxlen (v : Word) : (s.writeInLen v).maxlen = s.maxlen := rfl
@[simp] theorem State.writeInLen_totalBits (v : Word) : (s.writeInLen v).totalBits = s.totalBits := rfl
@[simp] theorem State.writeInLen_pad (v : Word) : (s.writeInLen v).pad = s.pad := rfl
@[simp] theorem State.writeInLen_hdrLen (v : Word) : (s.writeInLen v).hdrLen = s.hdrLen := rfl
@[simp] theorem State.writeInLen_freq (v : Word) : (s.writeInLen v).freq = s.freq := rfl
@[simp] theorem State.writeInLen_node (v : Word) : (s.writeInLen v).node = s.node := rfl
@[simp] theorem State.writeInLen_code (v : Word) : (s.writeInLen v).code = s.code := rfl
@[simp] theorem State.writeInLen_ibuf (v : Word) : (s.writeInLen v).ibuf = s.ibuf := rfl
@[simp] theorem State.writeInLen_obuf (v : Word) : (s.writeInLen v).obuf = s.obuf := rfl
@[simp] theorem State.writeInLen_phase (v : Word) : (s.writeInLen v).phase = s.phase := rfl
@[simp] theorem State.writeInLen_events (v : Word) : (s.writeInLen v).events = s.events := rfl
@[simp] theorem State.writeInLen_resp (v : Word) : (s.writeInLen v).resp = s.resp := rfl
@[simp] theorem State.writeInLen_draw (v : Word) : (s.writeInLen v).draw = s.draw := rfl

/-! `State.writeIbuf` -/

@[simp] theorem State.writeIbuf_params (k : Nat) (z : Size) (v : Word) : (s.writeIbuf k z v).params = s.params := rfl
@[simp] theorem State.writeIbuf_cmd (k : Nat) (z : Size) (v : Word) : (s.writeIbuf k z v).cmd = s.cmd := rfl
@[simp] theorem State.writeIbuf_done (k : Nat) (z : Size) (v : Word) : (s.writeIbuf k z v).done = s.done := rfl
@[simp] theorem State.writeIbuf_err (k : Nat) (z : Size) (v : Word) : (s.writeIbuf k z v).err = s.err := rfl
@[simp] theorem State.writeIbuf_wign (k : Nat) (z : Size) (v : Word) : (s.writeIbuf k z v).wign = s.wign := rfl
@[simp] theorem State.writeIbuf_errcode (k : Nat) (z : Size) (v : Word) : (s.writeIbuf k z v).errcode = s.errcode := rfl
@[simp] theorem State.writeIbuf_errinfo (k : Nat) (z : Size) (v : Word) : (s.writeIbuf k z v).errinfo = s.errinfo := rfl
@[simp] theorem State.writeIbuf_doneIE (k : Nat) (z : Size) (v : Word) : (s.writeIbuf k z v).doneIE = s.doneIE := rfl
@[simp] theorem State.writeIbuf_errIE (k : Nat) (z : Size) (v : Word) : (s.writeIbuf k z v).errIE = s.errIE := rfl
@[simp] theorem State.writeIbuf_freqV (k : Nat) (z : Size) (v : Word) : (s.writeIbuf k z v).freqV = false := rfl
@[simp] theorem State.writeIbuf_treeV (k : Nat) (z : Size) (v : Word) : (s.writeIbuf k z v).treeV = false := rfl
@[simp] theorem State.writeIbuf_codeV (k : Nat) (z : Size) (v : Word) : (s.writeIbuf k z v).codeV = false := rfl
@[simp] theorem State.writeIbuf_csrc (k : Nat) (z : Size) (v : Word) : (s.writeIbuf k z v).csrc = s.csrc := rfl
@[simp] theorem State.writeIbuf_inLen (k : Nat) (z : Size) (v : Word) : (s.writeIbuf k z v).inLen = s.inLen := rfl
@[simp] theorem State.writeIbuf_outLen (k : Nat) (z : Size) (v : Word) : (s.writeIbuf k z v).outLen = s.outLen := rfl
@[simp] theorem State.writeIbuf_nsym (k : Nat) (z : Size) (v : Word) : (s.writeIbuf k z v).nsym = s.nsym := rfl
@[simp] theorem State.writeIbuf_ncode (k : Nat) (z : Size) (v : Word) : (s.writeIbuf k z v).ncode = s.ncode := rfl
@[simp] theorem State.writeIbuf_nnodes (k : Nat) (z : Size) (v : Word) : (s.writeIbuf k z v).nnodes = s.nnodes := rfl
@[simp] theorem State.writeIbuf_root (k : Nat) (z : Size) (v : Word) : (s.writeIbuf k z v).root = s.root := rfl
@[simp] theorem State.writeIbuf_maxlen (k : Nat) (z : Size) (v : Word) : (s.writeIbuf k z v).maxlen = s.maxlen := rfl
@[simp] theorem State.writeIbuf_totalBits (k : Nat) (z : Size) (v : Word) : (s.writeIbuf k z v).totalBits = s.totalBits := rfl
@[simp] theorem State.writeIbuf_pad (k : Nat) (z : Size) (v : Word) : (s.writeIbuf k z v).pad = s.pad := rfl
@[simp] theorem State.writeIbuf_hdrLen (k : Nat) (z : Size) (v : Word) : (s.writeIbuf k z v).hdrLen = s.hdrLen := rfl
@[simp] theorem State.writeIbuf_freq (k : Nat) (z : Size) (v : Word) : (s.writeIbuf k z v).freq = s.freq := rfl
@[simp] theorem State.writeIbuf_node (k : Nat) (z : Size) (v : Word) : (s.writeIbuf k z v).node = s.node := rfl
@[simp] theorem State.writeIbuf_code (k : Nat) (z : Size) (v : Word) : (s.writeIbuf k z v).code = s.code := rfl
@[simp] theorem State.writeIbuf_ibuf (k : Nat) (z : Size) (v : Word) : (s.writeIbuf k z v).ibuf = s.ibuf.putBytes k (leBytes z.bytes v) := rfl
@[simp] theorem State.writeIbuf_obuf (k : Nat) (z : Size) (v : Word) : (s.writeIbuf k z v).obuf = s.obuf := rfl
@[simp] theorem State.writeIbuf_phase (k : Nat) (z : Size) (v : Word) : (s.writeIbuf k z v).phase = s.phase := rfl
@[simp] theorem State.writeIbuf_events (k : Nat) (z : Size) (v : Word) : (s.writeIbuf k z v).events = s.events := rfl
@[simp] theorem State.writeIbuf_resp (k : Nat) (z : Size) (v : Word) : (s.writeIbuf k z v).resp = s.resp := rfl
@[simp] theorem State.writeIbuf_draw (k : Nat) (z : Size) (v : Word) : (s.writeIbuf k z v).draw = s.draw := rfl

/-! `State.respond` -/

@[simp] theorem State.respond_params (r : Response) : (s.respond r).params = s.params := rfl
@[simp] theorem State.respond_cmd (r : Response) : (s.respond r).cmd = s.cmd := rfl
@[simp] theorem State.respond_done (r : Response) : (s.respond r).done = s.done := rfl
@[simp] theorem State.respond_err (r : Response) : (s.respond r).err = s.err := rfl
@[simp] theorem State.respond_wign (r : Response) : (s.respond r).wign = s.wign := rfl
@[simp] theorem State.respond_errcode (r : Response) : (s.respond r).errcode = s.errcode := rfl
@[simp] theorem State.respond_errinfo (r : Response) : (s.respond r).errinfo = s.errinfo := rfl
@[simp] theorem State.respond_doneIE (r : Response) : (s.respond r).doneIE = s.doneIE := rfl
@[simp] theorem State.respond_errIE (r : Response) : (s.respond r).errIE = s.errIE := rfl
@[simp] theorem State.respond_freqV (r : Response) : (s.respond r).freqV = s.freqV := rfl
@[simp] theorem State.respond_treeV (r : Response) : (s.respond r).treeV = s.treeV := rfl
@[simp] theorem State.respond_codeV (r : Response) : (s.respond r).codeV = s.codeV := rfl
@[simp] theorem State.respond_csrc (r : Response) : (s.respond r).csrc = s.csrc := rfl
@[simp] theorem State.respond_inLen (r : Response) : (s.respond r).inLen = s.inLen := rfl
@[simp] theorem State.respond_outLen (r : Response) : (s.respond r).outLen = s.outLen := rfl
@[simp] theorem State.respond_nsym (r : Response) : (s.respond r).nsym = s.nsym := rfl
@[simp] theorem State.respond_ncode (r : Response) : (s.respond r).ncode = s.ncode := rfl
@[simp] theorem State.respond_nnodes (r : Response) : (s.respond r).nnodes = s.nnodes := rfl
@[simp] theorem State.respond_root (r : Response) : (s.respond r).root = s.root := rfl
@[simp] theorem State.respond_maxlen (r : Response) : (s.respond r).maxlen = s.maxlen := rfl
@[simp] theorem State.respond_totalBits (r : Response) : (s.respond r).totalBits = s.totalBits := rfl
@[simp] theorem State.respond_pad (r : Response) : (s.respond r).pad = s.pad := rfl
@[simp] theorem State.respond_hdrLen (r : Response) : (s.respond r).hdrLen = s.hdrLen := rfl
@[simp] theorem State.respond_freq (r : Response) : (s.respond r).freq = s.freq := rfl
@[simp] theorem State.respond_node (r : Response) : (s.respond r).node = s.node := rfl
@[simp] theorem State.respond_code (r : Response) : (s.respond r).code = s.code := rfl
@[simp] theorem State.respond_ibuf (r : Response) : (s.respond r).ibuf = s.ibuf := rfl
@[simp] theorem State.respond_obuf (r : Response) : (s.respond r).obuf = s.obuf := rfl
@[simp] theorem State.respond_phase (r : Response) : (s.respond r).phase = s.phase := rfl
@[simp] theorem State.respond_events (r : Response) : (s.respond r).events = s.events := rfl
@[simp] theorem State.respond_resp (r : Response) : (s.respond r).resp = some r := rfl
@[simp] theorem State.respond_draw (r : Response) : (s.respond r).draw = s.draw := rfl

/-! `State.finishTree` -/

@[simp] theorem State.finishTree_params (ns : List Node) : (s.finishTree ns).params = s.params := rfl
@[simp] theorem State.finishTree_cmd (ns : List Node) : (s.finishTree ns).cmd = s.cmd := rfl
@[simp] theorem State.finishTree_done (ns : List Node) : (s.finishTree ns).done = s.done := rfl
@[simp] theorem State.finishTree_err (ns : List Node) : (s.finishTree ns).err = s.err := rfl
@[simp] theorem State.finishTree_wign (ns : List Node) : (s.finishTree ns).wign = s.wign := rfl
@[simp] theorem State.finishTree_errcode (ns : List Node) : (s.finishTree ns).errcode = s.errcode := rfl
@[simp] theorem State.finishTree_errinfo (ns : List Node) : (s.finishTree ns).errinfo = s.errinfo := rfl
@[simp] theorem State.finishTree_doneIE (ns : List Node) : (s.finishTree ns).doneIE = s.doneIE := rfl
@[simp] theorem State.finishTree_errIE (ns : List Node) : (s.finishTree ns).errIE = s.errIE := rfl
@[simp] theorem State.finishTree_freqV (ns : List Node) : (s.finishTree ns).freqV = s.freqV := rfl
@[simp] theorem State.finishTree_treeV (ns : List Node) : (s.finishTree ns).treeV = true := rfl
@[simp] theorem State.finishTree_codeV (ns : List Node) : (s.finishTree ns).codeV = s.codeV := rfl
@[simp] theorem State.finishTree_csrc (ns : List Node) : (s.finishTree ns).csrc = s.csrc := rfl
@[simp] theorem State.finishTree_inLen (ns : List Node) : (s.finishTree ns).inLen = s.inLen := rfl
@[simp] theorem State.finishTree_outLen (ns : List Node) : (s.finishTree ns).outLen = s.outLen := rfl
@[simp] theorem State.finishTree_nsym (ns : List Node) : (s.finishTree ns).nsym = s.nsym := rfl
@[simp] theorem State.finishTree_ncode (ns : List Node) : (s.finishTree ns).ncode = s.ncode := rfl
@[simp] theorem State.finishTree_nnodes (ns : List Node) : (s.finishTree ns).nnodes = BitVec.ofNat 10 ns.length := rfl
@[simp] theorem State.finishTree_root (ns : List Node) : (s.finishTree ns).root = BitVec.ofNat 9 (ns.length - 1) := rfl
@[simp] theorem State.finishTree_maxlen (ns : List Node) : (s.finishTree ns).maxlen = s.maxlen := rfl
@[simp] theorem State.finishTree_totalBits (ns : List Node) : (s.finishTree ns).totalBits = s.totalBits := rfl
@[simp] theorem State.finishTree_pad (ns : List Node) : (s.finishTree ns).pad = s.pad := rfl
@[simp] theorem State.finishTree_hdrLen (ns : List Node) : (s.finishTree ns).hdrLen = s.hdrLen := rfl
@[simp] theorem State.finishTree_freq (ns : List Node) : (s.finishTree ns).freq = s.freq := rfl
@[simp] theorem State.finishTree_node (ns : List Node) : (s.finishTree ns).node = arenaOf ns := rfl
@[simp] theorem State.finishTree_code (ns : List Node) : (s.finishTree ns).code = s.code := rfl
@[simp] theorem State.finishTree_ibuf (ns : List Node) : (s.finishTree ns).ibuf = s.ibuf := rfl
@[simp] theorem State.finishTree_obuf (ns : List Node) : (s.finishTree ns).obuf = s.obuf := rfl
@[simp] theorem State.finishTree_phase (ns : List Node) : (s.finishTree ns).phase = s.phase := rfl
@[simp] theorem State.finishTree_events (ns : List Node) : (s.finishTree ns).events = s.events := rfl
@[simp] theorem State.finishTree_resp (ns : List Node) : (s.finishTree ns).resp = s.resp := rfl
@[simp] theorem State.finishTree_draw (ns : List Node) : (s.finishTree ns).draw = s.draw := rfl

/-! `State.unspecTree` -/

@[simp] theorem State.unspecTree_params : (s.unspecTree).params = s.params := rfl
@[simp] theorem State.unspecTree_cmd : (s.unspecTree).cmd = s.cmd := rfl
@[simp] theorem State.unspecTree_done : (s.unspecTree).done = s.done := rfl
@[simp] theorem State.unspecTree_err : (s.unspecTree).err = s.err := rfl
@[simp] theorem State.unspecTree_wign : (s.unspecTree).wign = s.wign := rfl
@[simp] theorem State.unspecTree_errcode : (s.unspecTree).errcode = s.errcode := rfl
@[simp] theorem State.unspecTree_errinfo : (s.unspecTree).errinfo = s.errinfo := rfl
@[simp] theorem State.unspecTree_doneIE : (s.unspecTree).doneIE = s.doneIE := rfl
@[simp] theorem State.unspecTree_errIE : (s.unspecTree).errIE = s.errIE := rfl
@[simp] theorem State.unspecTree_freqV : (s.unspecTree).freqV = s.freqV := rfl
@[simp] theorem State.unspecTree_treeV : (s.unspecTree).treeV = s.treeV := rfl
@[simp] theorem State.unspecTree_codeV : (s.unspecTree).codeV = s.codeV := rfl
@[simp] theorem State.unspecTree_csrc : (s.unspecTree).csrc = s.csrc := rfl
@[simp] theorem State.unspecTree_inLen : (s.unspecTree).inLen = s.inLen := rfl
@[simp] theorem State.unspecTree_outLen : (s.unspecTree).outLen = s.outLen := rfl
@[simp] theorem State.unspecTree_nsym : (s.unspecTree).nsym = s.nsym := rfl
@[simp] theorem State.unspecTree_ncode : (s.unspecTree).ncode = s.ncode := rfl
@[simp] theorem State.unspecTree_nnodes : (s.unspecTree).nnodes = (s.unspecReg 0x030).setWidth 10 := rfl
@[simp] theorem State.unspecTree_root : (s.unspecTree).root = (s.unspecReg 0x034).setWidth 9 := rfl
@[simp] theorem State.unspecTree_maxlen : (s.unspecTree).maxlen = s.maxlen := rfl
@[simp] theorem State.unspecTree_totalBits : (s.unspecTree).totalBits = s.totalBits := rfl
@[simp] theorem State.unspecTree_pad : (s.unspecTree).pad = s.pad := rfl
@[simp] theorem State.unspecTree_hdrLen : (s.unspecTree).hdrLen = s.hdrLen := rfl
@[simp] theorem State.unspecTree_freq : (s.unspecTree).freq = s.freq := rfl
@[simp] theorem State.unspecTree_node : (s.unspecTree).node = tabulate 511 (fun i => Node.ofBits (Config.unspecNode s.draw i)) := rfl
@[simp] theorem State.unspecTree_code : (s.unspecTree).code = s.code := rfl
@[simp] theorem State.unspecTree_ibuf : (s.unspecTree).ibuf = s.ibuf := rfl
@[simp] theorem State.unspecTree_obuf : (s.unspecTree).obuf = s.obuf := rfl
@[simp] theorem State.unspecTree_phase : (s.unspecTree).phase = s.phase := rfl
@[simp] theorem State.unspecTree_events : (s.unspecTree).events = s.events := rfl
@[simp] theorem State.unspecTree_resp : (s.unspecTree).resp = s.resp := rfl
@[simp] theorem State.unspecTree_draw : (s.unspecTree).draw = s.draw + 1 := rfl

/-! `State.unspecContainer` -/

@[simp] theorem State.unspecContainer_params : (s.unspecContainer).params = s.params := rfl
@[simp] theorem State.unspecContainer_cmd : (s.unspecContainer).cmd = s.cmd := rfl
@[simp] theorem State.unspecContainer_done : (s.unspecContainer).done = s.done := rfl
@[simp] theorem State.unspecContainer_err : (s.unspecContainer).err = s.err := rfl
@[simp] theorem State.unspecContainer_wign : (s.unspecContainer).wign = s.wign := rfl
@[simp] theorem State.unspecContainer_errcode : (s.unspecContainer).errcode = s.errcode := rfl
@[simp] theorem State.unspecContainer_errinfo : (s.unspecContainer).errinfo = s.errinfo := rfl
@[simp] theorem State.unspecContainer_doneIE : (s.unspecContainer).doneIE = s.doneIE := rfl
@[simp] theorem State.unspecContainer_errIE : (s.unspecContainer).errIE = s.errIE := rfl
@[simp] theorem State.unspecContainer_freqV : (s.unspecContainer).freqV = s.freqV := rfl
@[simp] theorem State.unspecContainer_treeV : (s.unspecContainer).treeV = s.treeV := rfl
@[simp] theorem State.unspecContainer_codeV : (s.unspecContainer).codeV = s.codeV := rfl
@[simp] theorem State.unspecContainer_csrc : (s.unspecContainer).csrc = s.csrc := rfl
@[simp] theorem State.unspecContainer_inLen : (s.unspecContainer).inLen = s.inLen := rfl
@[simp] theorem State.unspecContainer_outLen : (s.unspecContainer).outLen = s.unspecReg 0x024 := rfl
@[simp] theorem State.unspecContainer_nsym : (s.unspecContainer).nsym = s.nsym := rfl
@[simp] theorem State.unspecContainer_ncode : (s.unspecContainer).ncode = s.ncode := rfl
@[simp] theorem State.unspecContainer_nnodes : (s.unspecContainer).nnodes = s.nnodes := rfl
@[simp] theorem State.unspecContainer_root : (s.unspecContainer).root = s.root := rfl
@[simp] theorem State.unspecContainer_maxlen : (s.unspecContainer).maxlen = s.maxlen := rfl
@[simp] theorem State.unspecContainer_totalBits : (s.unspecContainer).totalBits = s.unspecReg 0x03C := rfl
@[simp] theorem State.unspecContainer_pad : (s.unspecContainer).pad = (s.unspecReg 0x040).setWidth 3 := rfl
@[simp] theorem State.unspecContainer_hdrLen : (s.unspecContainer).hdrLen = s.unspecReg 0x044 := rfl
@[simp] theorem State.unspecContainer_freq : (s.unspecContainer).freq = s.freq := rfl
@[simp] theorem State.unspecContainer_node : (s.unspecContainer).node = s.node := rfl
@[simp] theorem State.unspecContainer_code : (s.unspecContainer).code = s.code := rfl
@[simp] theorem State.unspecContainer_ibuf : (s.unspecContainer).ibuf = s.ibuf := rfl
@[simp] theorem State.unspecContainer_obuf : (s.unspecContainer).obuf = Memory.unspecified s.draw := rfl
@[simp] theorem State.unspecContainer_phase : (s.unspecContainer).phase = s.phase := rfl
@[simp] theorem State.unspecContainer_events : (s.unspecContainer).events = s.events := rfl
@[simp] theorem State.unspecContainer_resp : (s.unspecContainer).resp = s.resp := rfl
@[simp] theorem State.unspecContainer_draw : (s.unspecContainer).draw = s.draw + 1 := rfl

/-! `State.unspecTable` -/

@[simp] theorem State.unspecTable_params : (s.unspecTable).params = s.params := rfl
@[simp] theorem State.unspecTable_cmd : (s.unspecTable).cmd = s.cmd := rfl
@[simp] theorem State.unspecTable_done : (s.unspecTable).done = s.done := rfl
@[simp] theorem State.unspecTable_err : (s.unspecTable).err = s.err := rfl
@[simp] theorem State.unspecTable_wign : (s.unspecTable).wign = s.wign := rfl
@[simp] theorem State.unspecTable_errcode : (s.unspecTable).errcode = s.errcode := rfl
@[simp] theorem State.unspecTable_errinfo : (s.unspecTable).errinfo = s.errinfo := rfl
@[simp] theorem State.unspecTable_doneIE : (s.unspecTable).doneIE = s.doneIE := rfl
@[simp] theorem State.unspecTable_errIE : (s.unspecTable).errIE = s.errIE := rfl
@[simp] theorem State.unspecTable_freqV : (s.unspecTable).freqV = s.freqV := rfl
@[simp] theorem State.unspecTable_treeV : (s.unspecTable).treeV = s.treeV := rfl
@[simp] theorem State.unspecTable_codeV : (s.unspecTable).codeV = s.codeV := rfl
@[simp] theorem State.unspecTable_csrc : (s.unspecTable).csrc = s.csrc := rfl
@[simp] theorem State.unspecTable_inLen : (s.unspecTable).inLen = s.inLen := rfl
@[simp] theorem State.unspecTable_outLen : (s.unspecTable).outLen = s.outLen := rfl
@[simp] theorem State.unspecTable_nsym : (s.unspecTable).nsym = s.nsym := rfl
@[simp] theorem State.unspecTable_ncode : (s.unspecTable).ncode = (s.unspecReg 0x02C).setWidth 9 := rfl
@[simp] theorem State.unspecTable_nnodes : (s.unspecTable).nnodes = s.nnodes := rfl
@[simp] theorem State.unspecTable_root : (s.unspecTable).root = s.root := rfl
@[simp] theorem State.unspecTable_maxlen : (s.unspecTable).maxlen = (s.unspecReg 0x038).setWidth 8 := rfl
@[simp] theorem State.unspecTable_totalBits : (s.unspecTable).totalBits = s.unspecReg 0x03C := rfl
@[simp] theorem State.unspecTable_pad : (s.unspecTable).pad = (s.unspecReg 0x040).setWidth 3 := rfl
@[simp] theorem State.unspecTable_hdrLen : (s.unspecTable).hdrLen = s.unspecReg 0x044 := rfl
@[simp] theorem State.unspecTable_freq : (s.unspecTable).freq = s.freq := rfl
@[simp] theorem State.unspecTable_node : (s.unspecTable).node = s.node := rfl
@[simp] theorem State.unspecTable_code : (s.unspecTable).code = tabulate 256 (fun i => (Config.unspecCode s.draw i).take Config.maxCodeLen) := rfl
@[simp] theorem State.unspecTable_ibuf : (s.unspecTable).ibuf = s.ibuf := rfl
@[simp] theorem State.unspecTable_obuf : (s.unspecTable).obuf = s.obuf := rfl
@[simp] theorem State.unspecTable_phase : (s.unspecTable).phase = s.phase := rfl
@[simp] theorem State.unspecTable_events : (s.unspecTable).events = s.events := rfl
@[simp] theorem State.unspecTable_resp : (s.unspecTable).resp = s.resp := rfl
@[simp] theorem State.unspecTable_draw : (s.unspecTable).draw = s.draw + 1 := rfl

/-! `State.unspecOutput` -/

@[simp] theorem State.unspecOutput_params : (s.unspecOutput).params = s.params := rfl
@[simp] theorem State.unspecOutput_cmd : (s.unspecOutput).cmd = s.cmd := rfl
@[simp] theorem State.unspecOutput_done : (s.unspecOutput).done = s.done := rfl
@[simp] theorem State.unspecOutput_err : (s.unspecOutput).err = s.err := rfl
@[simp] theorem State.unspecOutput_wign : (s.unspecOutput).wign = s.wign := rfl
@[simp] theorem State.unspecOutput_errcode : (s.unspecOutput).errcode = s.errcode := rfl
@[simp] theorem State.unspecOutput_errinfo : (s.unspecOutput).errinfo = s.errinfo := rfl
@[simp] theorem State.unspecOutput_doneIE : (s.unspecOutput).doneIE = s.doneIE := rfl
@[simp] theorem State.unspecOutput_errIE : (s.unspecOutput).errIE = s.errIE := rfl
@[simp] theorem State.unspecOutput_freqV : (s.unspecOutput).freqV = s.freqV := rfl
@[simp] theorem State.unspecOutput_treeV : (s.unspecOutput).treeV = s.treeV := rfl
@[simp] theorem State.unspecOutput_codeV : (s.unspecOutput).codeV = s.codeV := rfl
@[simp] theorem State.unspecOutput_csrc : (s.unspecOutput).csrc = s.csrc := rfl
@[simp] theorem State.unspecOutput_inLen : (s.unspecOutput).inLen = s.inLen := rfl
@[simp] theorem State.unspecOutput_outLen : (s.unspecOutput).outLen = s.unspecReg 0x024 := rfl
@[simp] theorem State.unspecOutput_nsym : (s.unspecOutput).nsym = s.nsym := rfl
@[simp] theorem State.unspecOutput_ncode : (s.unspecOutput).ncode = s.ncode := rfl
@[simp] theorem State.unspecOutput_nnodes : (s.unspecOutput).nnodes = s.nnodes := rfl
@[simp] theorem State.unspecOutput_root : (s.unspecOutput).root = s.root := rfl
@[simp] theorem State.unspecOutput_maxlen : (s.unspecOutput).maxlen = s.maxlen := rfl
@[simp] theorem State.unspecOutput_totalBits : (s.unspecOutput).totalBits = s.totalBits := rfl
@[simp] theorem State.unspecOutput_pad : (s.unspecOutput).pad = s.pad := rfl
@[simp] theorem State.unspecOutput_hdrLen : (s.unspecOutput).hdrLen = s.hdrLen := rfl
@[simp] theorem State.unspecOutput_freq : (s.unspecOutput).freq = s.freq := rfl
@[simp] theorem State.unspecOutput_node : (s.unspecOutput).node = s.node := rfl
@[simp] theorem State.unspecOutput_code : (s.unspecOutput).code = s.code := rfl
@[simp] theorem State.unspecOutput_ibuf : (s.unspecOutput).ibuf = s.ibuf := rfl
@[simp] theorem State.unspecOutput_obuf : (s.unspecOutput).obuf = Memory.unspecified s.draw := rfl
@[simp] theorem State.unspecOutput_phase : (s.unspecOutput).phase = s.phase := rfl
@[simp] theorem State.unspecOutput_events : (s.unspecOutput).events = s.events := rfl
@[simp] theorem State.unspecOutput_resp : (s.unspecOutput).resp = s.resp := rfl
@[simp] theorem State.unspecOutput_draw : (s.unspecOutput).draw = s.draw + 1 := rfl

end Sys2Proof.Machine
end

