-- ==== Sys2Proof/Laws/Exec.lean ====
section
/-! SUPPORT. What `exec`, a host transaction and a step can do, said once: the launch or rejection of a command while the
engine is idle, its engine step while it is busy, and the cases of a step. -/

namespace Sys2Proof.Machine

/-- The pseudocode of a command. -/
def bodyOf : Instr → State → Run
  | .nop => nopBody
  | .count => countBody
  | .build => buildBody
  | .gencode => gencodeBody
  | .pack => packBody
  | .compress => compressBody
  | .parse => parseBody
  | .decode => decodeBody
  | .decompress => decompressBody
  | .clear => clearBody

theorem exec_eq_runCommand (i : Instr) (s : State) : exec i s = runCommand i (bodyOf i) s := by cases i <;> rfl

theorem runCommand_idle {op : Instr} {body : State → Run} {s : State} (h : s.phase = .idle) :
    runCommand op body s = .next (launchOrReject op s) := by simp [runCommand, h]

theorem runCommand_busy {op j : Instr} {body : State → Run} {s : State} (h : s.phase = .busy j) :
    runCommand op body s = .next (body s).finish := by simp [runCommand, h]

/-- While idle a command is launched or rejected. -/
theorem exec_idle (i : Instr) {s : State} (h : s.phase = .idle) : exec i s = .next (launchOrReject i s) := by
  rw [exec_eq_runCommand, runCommand_idle h]

/-- While busy a command's pseudocode runs and the command ends. -/
theorem exec_busy (i : Instr) {j : Instr} {s : State} (h : s.phase = .busy j) :
    exec i s = .next (bodyOf i s).finish := by rw [exec_eq_runCommand, runCommand_busy h]

theorem exec_not_idle (i : Instr) {s : State} (h : s.phase ≠ .idle) : exec i s = .next (bodyOf i s).finish := by
  cases hp : s.phase with
  | idle => exact absurd hp h
  | busy j => exact exec_busy i hp

@[simp] theorem Run.finish_done (s : State) : (Run.done s).finish = s.complete := rfl

@[simp] theorem Run.finish_raised (e : Error) (s : State) : (Run.raised e s).finish = s.takeError e := rfl

@[simp] theorem Run.andThen_done (s : State) (f : State → Run) : (Run.done s).andThen f = f s := rfl

@[simp] theorem Run.andThen_raised (e : Error) (s : State) (f : State → Run) :
    (Run.raised e s).andThen f = .raised e s := rfl

/-- A launch or a rejection. -/
theorem launchOrReject_cases (op : Instr) (s : State) :
    (launchCheck op s = none ∧ launchOrReject op s = s.launch op) ∨
      ∃ e, launchCheck op s = some e ∧ launchOrReject op s = s.takeError e := by
  unfold launchOrReject
  cases h : launchCheck op s with
  | none => exact .inl ⟨rfl, rfl⟩
  | some e => exact .inr ⟨e, rfl, rfl⟩

/-- The launch check reads the part's size, IN_LEN and the valid bits only. -/
theorem launchCheck_congr {s t : State} (op : Instr) (h1 : t.params = s.params) (h2 : t.inLen = s.inLen)
    (h3 : t.freqV = s.freqV) (h4 : t.treeV = s.treeV) (h5 : t.codeV = s.codeV) (h6 : t.csrc = s.csrc) :
    launchCheck op t = launchCheck op s := by
  cases op <;> simp [launchCheck, State.checkInput, h1, h2, h3, h4, h5, h6]

theorem State.isBusy_idle {s : State} (h : s.phase = .idle) : s.isBusy = false := by simp [State.isBusy, h]

theorem State.isBusy_busy {s : State} {op : Instr} (h : s.phase = .busy op) : s.isBusy = true := by
  simp [State.isBusy, h]

theorem exec_answers (i : Instr) (s : State) : ∃ t, exec i s = .next t := by
  cases h : s.phase with
  | idle => exact ⟨_, exec_idle i h⟩
  | busy j => exact ⟨_, exec_busy i h⟩

/-- The CMD register's address. -/
theorem resolve_cmd (p : Params) : resolve p 0x010 .word = some (.reg 0x010) := by
  simp [resolve, wordAccess]

theorem resolve_status (p : Params) : resolve p 0x014 .word = some (.reg 0x014) := by
  simp [resolve, wordAccess]

theorem resolve_irqEn (p : Params) : resolve p 0x018 .word = some (.reg 0x018) := by
  simp [resolve, wordAccess]

theorem resolve_inLen (p : Params) : resolve p 0x020 .word = some (.reg 0x020) := by
  simp [resolve, wordAccess]

/-- The cases of a legal host write: ignored while busy, a CMD write, or a location's own write. -/
theorem writeOk_cases (s : State) (t : Target) (size : Size) (v : Word) :
    (s.isBusy = true ∧ t.writableWhileBusy = false ∧ s.writeOk t size v = .next s.ignoreWrite) ∨
    (s.phase = .idle ∧ t = .reg 0x010 ∧ s.writeOk t size v = s.writeCmd v) ∨
    ((s.phase = .idle ∨ t.writableWhileBusy = true) ∧ t ≠ .reg 0x010 ∧
      s.writeOk t size v = .next (s.writeTarget t size v)) := by
  unfold State.writeOk
  cases hp : s.phase with
  | idle =>
    rw [State.isBusy_idle hp]
    by_cases ht : t = .reg 0x010
    · exact .inr (.inl ⟨rfl, ht, by simp [ht]⟩)
    · exact .inr (.inr ⟨.inl rfl, ht, by simp [ht]⟩)
  | busy op =>
    rw [State.isBusy_busy hp]
    cases hw : t.writableWhileBusy with
    | false => exact .inl ⟨rfl, rfl, by simp⟩
    | true =>
      have ht : t ≠ .reg 0x010 := by rintro rfl; simp [Target.writableWhileBusy] at hw
      exact .inr (.inr ⟨.inr rfl, ht, by simp [ht]⟩)

/-- The cases of a step: with no event, or an engine event, the engine's turn; a host transaction; a hard reset. -/
theorem step_cases (s : State) :
    (s.events = [] ∧ step s = s.engineTurn) ∨
    ∃ rest, (s.events = .engine :: rest ∧ step s = State.engineTurn { s with events := rest }) ∨
      (s.events = .hardReset :: rest ∧ step s = .next (State.hardReset { s with events := rest })) ∨
      ∃ t, s.events = .host t :: rest ∧ step s = State.transact { s with events := rest } t := by
  unfold step
  match h : s.events with
  | [] => exact .inl ⟨rfl, rfl⟩
  | .engine :: rest => exact .inr ⟨rest, .inl ⟨rfl, rfl⟩⟩
  | .hardReset :: rest => exact .inr ⟨rest, .inr (.inl ⟨rfl, rfl⟩)⟩
  | .host t :: rest => exact .inr ⟨rest, .inr (.inr ⟨t, rfl, rfl⟩)⟩

/-- One more step of a run. -/
theorem run_succ (n : Nat) (s : State) :
    Host.Core.run Sys2Proof.core (n + 1) s =
      match step s with
      | .next t => Host.Core.run Sys2Proof.core n t
      | .fault r => .fault r
      | .refused r => .refused r := by
  have h : Host.Core.step Sys2Proof.core s = step s := rfl
  simp only [Host.Core.run]
  rw [h]
  cases step s <;> rfl

/-- A CMD write while the engine is idle. -/
theorem step_cmdWrite_idle {s : State} {w : Word} {rest : List Event} (hp : s.phase = .idle)
    (he : s.events = cmdWrite w :: rest) :
    step s = State.writeCmd { s with events := rest, resp := some ⟨true, none⟩ } w := by
  simp only [step, he, cmdWrite, State.handle, State.transact, State.hostWrite, resolve_cmd, State.writeOk, State.respond]
  simp [State.isBusy, hp]

/-- A CMD write while the engine is busy. -/
theorem step_cmdWrite_busy {s : State} {op : Instr} {w : Word} {rest : List Event} (hp : s.phase = .busy op)
    (he : s.events = cmdWrite w :: rest) :
    step s = .next { s with events := rest, resp := some ⟨true, none⟩, wign := true } := by
  simp only [step, he, cmdWrite, State.handle, State.transact, State.hostWrite, resolve_cmd, State.writeOk, State.respond]
  simp [State.isBusy, hp, Target.writableWhileBusy, State.ignoreWrite]

/-- A word whose bits 31:4 are zero is its opcode field. -/
theorem word_of_rsvdField_zero {w : Word} (h : rsvdField w = 0) : w = (opField w).setWidth 32 := by
  apply BitVec.eq_of_getLsbD_eq
  intro i hi
  have h2 : (rsvdField w).getLsbD (i - 4) = false := by rw [h]; simp
  simp only [rsvdField, opField, BitVec.getLsbD_extractLsb', BitVec.getLsbD_setWidth] at *
  by_cases h4 : i < 4
  · simp [h4, hi]
  · have e : 4 + (i - 4) = i := by omega
    have h28 : i - 4 < 28 := by omega
    rw [e] at h2
    simp [h28] at h2
    simp [h4, h2]

/-- What a register accepts of a write outside CMD. -/
theorem writeTarget_cases (s : State) (t : Target) (size : Size) (v : Word) :
    (t = .reg 0x014 ∧ s.writeTarget t size v = s.writeStatus v) ∨
    (t = .reg 0x018 ∧ s.writeTarget t size v = s.writeIrqEn v) ∨
    (t = .reg 0x020 ∧ s.writeTarget t size v = s.writeInLen v) ∨
    (∃ k, t = .ibuf k ∧ s.writeTarget t size v = s.writeIbuf k size v) ∨
    (t ≠ .reg 0x014 ∧ t ≠ .reg 0x018 ∧ t ≠ .reg 0x020 ∧ (∀ k, t ≠ .ibuf k) ∧ s.writeTarget t size v = s) := by
  cases t with
  | reg off =>
    by_cases h1 : off = 0x014
    · subst h1; exact .inl ⟨rfl, rfl⟩
    by_cases h2 : off = 0x018
    · subst h2; exact .inr (.inl ⟨rfl, rfl⟩)
    by_cases h3 : off = 0x020
    · subst h3; exact .inr (.inr (.inl ⟨rfl, rfl⟩))
    refine .inr (.inr (.inr (.inr ⟨by simpa using h1, by simpa using h2, by simpa using h3, by simp, ?_⟩)))
    unfold State.writeTarget
    split <;> simp_all
  | ibuf k => exact .inr (.inr (.inr (.inl ⟨k, rfl, rfl⟩)))
  | freq w => exact .inr (.inr (.inr (.inr ⟨by simp, by simp, by simp, by simp, rfl⟩)))
  | node w => exact .inr (.inr (.inr (.inr ⟨by simp, by simp, by simp, by simp, rfl⟩)))
  | code w => exact .inr (.inr (.inr (.inr ⟨by simp, by simp, by simp, by simp, rfl⟩)))
  | obuf k => exact .inr (.inr (.inr (.inr ⟨by simp, by simp, by simp, by simp, rfl⟩)))

theorem wordAccess_eq_some {a : Nat} {size : Size} {t t' : Target} :
    wordAccess a size t = some t' ↔ size = .word ∧ a % 4 = 0 ∧ t = t' := by
  unfold wordAccess
  split <;> simp_all

theorem bufferAccess_eq_some {k len : Nat} {size : Size} {t t' : Target} :
    bufferAccess k len size t = some t' ↔ k % size.bytes = 0 ∧ k + size.bytes ≤ len ∧ t = t' := by
  unfold bufferAccess
  split
  · simp_all
  · rename_i h; simp only [reduceCtorEq, false_iff]; tauto

/-- A legal access to IBUF lies inside the buffer. -/
theorem resolve_ibuf {p : Params} {addr : Word} {size : Size} {k : Nat}
    (h : resolve p addr size = some (.ibuf k)) : k + size.bytes ≤ p.ibufBytes ∧ k % size.bytes = 0 := by
  unfold resolve at h
  dsimp only at h
  split_ifs at h <;> simp only [wordAccess_eq_some, bufferAccess_eq_some, reduceCtorEq, and_false,
    Target.ibuf.injEq] at h
  obtain ⟨h1, h2, rfl⟩ := h
  exact ⟨h2, h1⟩

end Sys2Proof.Machine
end

