-- ==== Sys2Proof/Laws/PerInstr.lean ====
section
/-! SUPPORT. Statements made of every command, one lemma a constructor. -/

namespace Sys2Proof.Laws.Encoding

/-- The command is well formed, its word has bits 31:4 zero, and the word decodes to it, read as an opcode-table row too. -/
def Statement (i : Instr) : Prop :=
  i.wf = true ∧ rsvdField (encode i) = 0 ∧ decode (encode i) = .ok i ∧ decodeTableWord 32 (encode i).toNat = some i

theorem nop : Statement .nop := by refine ⟨?_, ?_, ?_, ?_⟩ <;> decide

theorem count : Statement .count := by refine ⟨?_, ?_, ?_, ?_⟩ <;> decide

theorem build : Statement .build := by refine ⟨?_, ?_, ?_, ?_⟩ <;> decide

theorem gencode : Statement .gencode := by refine ⟨?_, ?_, ?_, ?_⟩ <;> decide

theorem pack : Statement .pack := by refine ⟨?_, ?_, ?_, ?_⟩ <;> decide

theorem compress : Statement .compress := by refine ⟨?_, ?_, ?_, ?_⟩ <;> decide

theorem parse : Statement .parse := by refine ⟨?_, ?_, ?_, ?_⟩ <;> decide

theorem decode : Statement .decode := by refine ⟨?_, ?_, ?_, ?_⟩ <;> decide

theorem decompress : Statement .decompress := by refine ⟨?_, ?_, ?_, ?_⟩ <;> decide

theorem clear : Statement .clear := by refine ⟨?_, ?_, ?_, ?_⟩ <;> decide

end Sys2Proof.Laws.Encoding
end

