-- ==== Sys2Proof/Laws/Registers.lean ====
section
/-! SUPPORT. The values of the registers made of fields, and of little-endian and most-significant-bit-first words, as
numbers. -/

namespace Sys2Proof.Machine

theorem toNat_append {n m : Nat} (x : BitVec n) (y : BitVec m) : (x ++ y).toNat = x.toNat * 2 ^ m + y.toNat := by
  rw [BitVec.toNat_append, ← Nat.shiftLeft_add_eq_or_of_lt y.isLt, Nat.shiftLeft_eq]

@[simp] theorem toNat_ofBool (b : Bool) : (BitVec.ofBool b).toNat = b.toNat := by cases b <;> rfl

theorem State.statusWord_toNat (s : State) :
    s.statusWord.toNat = s.isBusy.toNat + 2 * s.done.toNat + 4 * s.err.toNat + 8 * s.wign.toNat +
      256 * s.errcode.toNat + 65536 * s.errinfo.toNat := by
  simp only [State.statusWord, toNat_append, toNat_ofBool, BitVec.toNat_ofNat, BitVec.ofNat_eq_ofNat]
  omega

theorem State.irqEnWord_toNat (s : State) : s.irqEnWord.toNat = 2 * s.doneIE.toNat + 4 * s.errIE.toNat := by
  simp only [State.irqEnWord, toNat_append, toNat_ofBool, BitVec.toNat_ofNat, BitVec.ofNat_eq_ofNat]
  omega

theorem State.validWord_toNat (s : State) :
    s.validWord.toNat = s.freqV.toNat + 2 * s.treeV.toNat + 4 * s.codeV.toNat + 8 * s.csrc.toNat := by
  simp only [State.validWord, toNat_append, toNat_ofBool, BitVec.toNat_ofNat, BitVec.ofNat_eq_ofNat]
  omega

@[simp] theorem State.statusWord_busy (s : State) : s.statusWord.getLsbD 0 = s.isBusy := by
  rw [BitVec.getLsbD, Nat.testBit, State.statusWord_toNat]
  have h : ∀ b : Bool, b.toNat ≤ 1 := Bool.toNat_le
  cases hb : s.isBusy <;> simp [Nat.one_and_eq_mod_two] <;> omega

@[simp] theorem State.statusWord_done (s : State) : s.statusWord.getLsbD 1 = s.done := by
  rw [BitVec.getLsbD, Nat.testBit, State.statusWord_toNat, Nat.shiftRight_eq_div_pow]
  have h := Bool.toNat_le s.isBusy
  cases hb : s.done <;> simp [Nat.one_and_eq_mod_two] <;> omega

@[simp] theorem State.statusWord_err (s : State) : s.statusWord.getLsbD 2 = s.err := by
  rw [BitVec.getLsbD, Nat.testBit, State.statusWord_toNat, Nat.shiftRight_eq_div_pow]
  have h := Bool.toNat_le s.isBusy
  have h' := Bool.toNat_le s.done
  cases hb : s.err <;> simp [Nat.one_and_eq_mod_two] <;> omega

/-- The bytes of a little-endian number, as a sum of powers. -/
theorem leNat_eq_sum (f : Nat → Byte) (n : Nat) :
    leNat ((List.range n).map f) = ((List.range n).map fun i => (f i).toNat * 256 ^ i).sum := by
  induction n generalizing f with
  | zero => rfl
  | succ n ih =>
    rw [List.range_succ_eq_map]
    simp only [List.map_cons, List.map_map, leNat, List.sum_cons, Nat.pow_zero, Nat.mul_one]
    have h := ih (f ∘ Nat.succ)
    simp only [Function.comp_def] at h ⊢
    rw [h, ← List.sum_map_mul_left]
    congr 2
    apply List.map_congr_left
    intro i _
    rw [Nat.succ_eq_add_one, Nat.pow_succ]
    ring

theorem leNat_lt (bs : List Byte) : leNat bs < 256 ^ bs.length := by
  induction bs with
  | nil => simp [leNat]
  | cons b bs ih =>
    have := b.isLt
    simp only [leNat, List.length_cons, Nat.pow_succ]
    omega

/-- A read of at most four bytes keeps every bit of them. -/
theorem leWord_toNat {bs : List Byte} (h : bs.length ≤ 4) : (leWord bs).toNat = leNat bs := by
  have h1 := leNat_lt bs
  have h2 : 256 ^ bs.length ≤ 256 ^ 4 := Nat.pow_le_pow_right (by decide) h
  simp only [leWord, BitVec.toNat_ofNat]
  apply Nat.mod_eq_of_lt
  omega

theorem Size.bytes_le (z : Size) : z.bytes ≤ 4 := by cases z <;> decide

theorem Size.bytes_pos (z : Size) : 1 ≤ z.bytes := by cases z <;> decide

theorem packNat_lt (n : Nat) (bs : Bits) : packNat n bs < 2 ^ n := by
  induction n generalizing bs with
  | zero => simp [packNat]
  | succ n ih =>
    have h := ih bs.tail
    have hb : (bs.headD false).toNat ≤ 1 := Bool.toNat_le _
    have : (bs.headD false).toNat * 2 ^ n ≤ 1 * 2 ^ n := Nat.mul_le_mul_right _ hb
    simp only [packNat, Nat.pow_succ]
    omega

/-- Bit `n - 1 - t` of a packed number is bit `t` of the string. -/
theorem packNat_testBit (n t : Nat) (bs : Bits) (h : t < n) :
    (packNat n bs).testBit (n - 1 - t) = bs[t]?.getD false := by
  induction n generalizing bs t with
  | zero => omega
  | succ n ih =>
    have hlt := packNat_lt n bs.tail
    rw [packNat, Nat.mul_comm, Nat.testBit_two_pow_mul_add _ hlt]
    cases t with
    | zero =>
      rw [if_neg (by omega), show n + 1 - 1 - 0 - n = 0 by omega]
      cases bs with
      | nil => rfl
      | cons b bs => cases b <;> simp
    | succ t =>
      rw [if_pos (by omega), show n + 1 - 1 - (t + 1) = n - 1 - t by omega, ih t bs.tail (by omega)]
      cases bs <;> rfl

/-- Bit `j` of a byte sequence's bits (20_memory.md R66). -/
theorem flatMap_byteBits_getElem? (bs : List Byte) (j : Nat) (h : j < 8 * bs.length) :
    (bs.flatMap byteBits)[j]? = bs[j / 8]?.map fun b => b.getLsbD (7 - j % 8) := by
  induction bs generalizing j with
  | nil => simp at h
  | cons b bs ih =>
    rw [List.flatMap_cons]
    have hl : (byteBits b).length = 8 := by simp [byteBits]
    by_cases hj : j < 8
    · rw [List.getElem?_append_left (by omega)]
      have : j / 8 = 0 := by omega
      have e : j % 8 = j := by omega
      simp [byteBits, this, hj, e]
    · rw [List.getElem?_append_right (by omega), hl, ih _ (by simp at h; omega)]
      have : j / 8 = (j - 8) / 8 + 1 := by omega
      rw [this, List.getElem?_cons_succ]
      have : (j - 8) % 8 = j % 8 := by omega
      rw [this]

theorem flatMap_byteBits_length (bs : List Byte) : (bs.flatMap byteBits).length = 8 * bs.length := by
  induction bs with
  | nil => rfl
  | cons b bs ih => rw [List.flatMap_cons, List.length_append, ih]; simp [byteBits]; omega

/-- The bounds of a legal part (00_scope.md R7). -/
theorem params_bounds {p : Params} (h : p.wf = true) :
    1 ≤ p.ibufBytes ∧ p.ibufBytes ≤ 16777216 ∧ 1 ≤ p.obufBytes ∧ p.obufBytes ≤ 268435456 := by
  simp only [Params.wf, Config.maxIbufBytes, Config.maxObufBytes, Bool.and_eq_true] at h
  obtain ⟨⟨⟨h1, h2⟩, h3⟩, h4⟩ := h
  have h2 := of_decide_eq_true h2
  have h4 := of_decide_eq_true h4
  exact ⟨of_decide_eq_true h1, by omega, of_decide_eq_true h3, by omega⟩

end Sys2Proof.Machine
end

