-- ==== Sys2Proof/Laws/Tree.lean ====
section
/-! SUPPORT. The tree builder and the code generator: the leaves, the extraction of the least key, what the merge loop keeps,
and which entries the walk of the tree gives. -/

namespace Sys2Proof.Machine

/-! ### Leaves -/

theorem leafNodes_map_range' (f : Nat → Word) (n s : Nat) :
    leafNodes s ((List.range' s n).map f) =
      ((List.range' s n).filter fun i => f i ≠ 0).map fun i => leafNode i (f i) := by
  induction n generalizing s with
  | zero => rfl
  | succ n ih =>
    rw [List.range'_succ, List.map_cons, leafNodes, ih, List.filter_cons]
    by_cases h : f s = 0#32 <;> simp [h]

/-- The symbols with a nonzero frequency, ascending. -/
def presentList (freq : Vector Word 256) : List Byte :=
  ((List.range 256).filter fun i => atSymbol freq (BitVec.ofNat 8 i) ≠ 0).map (BitVec.ofNat 8)

theorem mem_presentList (freq : Vector Word 256) (b : Byte) : b ∈ presentList freq ↔ atSymbol freq b ≠ 0 := by
  simp only [presentList, List.mem_map, List.mem_filter, List.mem_range, decide_eq_true_eq]
  constructor
  · rintro ⟨i, ⟨-, h⟩, rfl⟩; exact h
  · intro h; exact ⟨b.toNat, ⟨b.isLt, by simpa using h⟩, by simp⟩

theorem presentList_length (freq : Vector Word 256) : (presentList freq).length = presentSymbols freq := by
  rw [presentList, List.length_map, presentSymbols, countP_toList]

theorem presentList_ascending (freq : Vector Word 256) :
    (presentList freq).Pairwise (fun a b => a.toNat < b.toNat) := by
  rw [presentList, List.pairwise_map]
  have h : ((List.range 256).filter fun i => atSymbol freq (BitVec.ofNat 8 i) ≠ 0).Pairwise (· < ·) :=
    List.Pairwise.filter _ List.pairwise_lt_range
  refine List.Pairwise.imp_of_mem ?_ h
  intro a b ha hb hab
  have ha := List.mem_range.1 (List.mem_filter.1 ha).1
  have hb := List.mem_range.1 (List.mem_filter.1 hb).1
  simp only [BitVec.toNat_ofNat]
  omega

theorem presentList_nodup (freq : Vector Word 256) : (presentList freq).Nodup :=
  (presentList_ascending freq).imp fun h => by rintro rfl; omega

/-- The leaves are those of the present symbols. -/
theorem leafNodes_eq (freq : Vector Word 256) :
    leafNodes 0 freq.toList = (presentList freq).map fun b => leafNode b.toNat (atSymbol freq b) := by
  rw [toList_eq_map, List.range_eq_range', leafNodes_map_range', presentList, List.range_eq_range', List.map_map]
  apply List.map_congr_left
  intro i hi
  have hi : i < 256 := by
    have := (List.mem_filter.1 hi).1
    simpa using this
  have : (BitVec.ofNat 8 i).toNat = i := by simp; omega
  simp only [Function.comp, this]

/-! ### Extraction -/

theorem leastCand_eq_none (q : List Cand) : leastCand q = none ↔ q = [] := by
  cases q with
  | nil => simp [leastCand]
  | cons c cs =>
    simp only [leastCand, reduceCtorEq, iff_false]
    cases leastCand cs with
    | none => simp
    | some d => simp only; split <;> simp

theorem leastCand_mem {q : List Cand} {c : Cand} (h : leastCand q = some c) : c ∈ q := by
  induction q generalizing c with
  | nil => simp [leastCand] at h
  | cons d ds ih =>
    simp only [leastCand] at h
    cases he : leastCand ds with
    | none => simp only [he, Option.some.injEq] at h; simp [h]
    | some e =>
      simp only [he] at h
      split at h <;> simp only [Option.some.injEq] at h <;> subst h
      · exact List.mem_cons_of_mem _ (ih he)
      · simp

/-- `a`'s key is not greater than `b`'s. -/
def Cand.le (a b : Cand) : Prop :=
  a.weight.toNat < b.weight.toNat ∨ (a.weight = b.weight ∧ a.index ≤ b.index)

theorem Cand.le_of_not_less {a b : Cand} (h : b.less a = false) : a.le b := by
  simp only [Cand.less, Bool.or_eq_false_iff, decide_eq_false_iff_not, Bool.and_eq_false_iff,
    beq_eq_false_iff_ne] at h
  unfold Cand.le
  by_cases hw : b.weight = a.weight
  · right
    refine ⟨hw.symm, ?_⟩
    rcases h.2 with h2 | h2
    · exact absurd hw h2
    · omega
  · left
    have : b.weight.toNat ≠ a.weight.toNat := fun h' => hw (BitVec.eq_of_toNat_eq h')
    omega

theorem Cand.le_of_less {a b : Cand} (h : a.less b = true) : a.le b := by
  simp only [Cand.less, Bool.or_eq_true, decide_eq_true_eq, Bool.and_eq_true, beq_iff_eq] at h
  unfold Cand.le
  rcases h with h | h
  · exact .inl h
  · exact .inr ⟨h.1, by omega⟩

theorem Cand.le_trans {a b c : Cand} (h1 : a.le b) (h2 : b.le c) : a.le c := by
  unfold Cand.le at *
  rcases h1 with h1 | ⟨e1, h1⟩ <;> rcases h2 with h2 | ⟨e2, h2⟩
  · left; omega
  · left; rw [← e2]; exact h1
  · left; rw [e1]; exact h2
  · right; exact ⟨e1.trans e2, by omega⟩

theorem Cand.le_refl (a : Cand) : a.le a := .inr ⟨rfl, Nat.le_refl _⟩

theorem leastCand_le {q : List Cand} {c : Cand} (h : leastCand q = some c) : ∀ d ∈ q, c.le d := by
  induction q generalizing c with
  | nil => simp [leastCand] at h
  | cons d ds ih =>
    simp only [leastCand] at h
    cases he : leastCand ds with
    | none =>
      simp only [he, Option.some.injEq] at h
      subst h
      have := (leastCand_eq_none ds).1 he
      subst this
      intro x hx
      simp only [List.mem_singleton] at hx
      subst hx
      exact Cand.le_refl _
    | some e =>
      simp only [he] at h
      have ih := ih he
      split at h <;> rename_i hl <;> simp only [Option.some.injEq] at h <;> subst h
      · intro x hx
        rcases List.mem_cons.1 hx with rfl | hx
        · exact Cand.le_of_less hl
        · exact ih x hx
      · intro x hx
        rcases List.mem_cons.1 hx with rfl | hx
        · exact Cand.le_refl _
        · exact Cand.le_trans (Cand.le_of_not_less (by simpa using hl)) (ih x hx)

theorem extractLeast_eq_none {q : List Cand} : extractLeast q = none ↔ q = [] := by
  simp [extractLeast, leastCand_eq_none]

theorem extractLeast_perm {q q' : List Cand} {c : Cand} (h : extractLeast q = some (c, q')) :
    leastCand q = some c ∧ q.Perm (c :: q') := by
  unfold extractLeast at h
  cases hl : leastCand q with
  | none => simp [hl] at h
  | some d =>
    simp only [hl, Option.map_some, Option.some.injEq, Prod.mk.injEq] at h
    obtain ⟨rfl, rfl⟩ := h
    exact ⟨rfl, List.perm_cons_erase (leastCand_mem hl)⟩

/-! ### The merge loop -/

/-- The node at index `i` of a growing arena heads a tree of two-child internal nodes whose leaves are `syms`, left to right,
and whose height is `h`. -/
inductive SubTree (nodes : List Node) : Nat → List Byte → Nat → Prop where
  | leaf {i : Nat} {nd : Node} (h : nodes[i]? = some nd) (hl : nd.leaf = true) : SubTree nodes i [nd.symbol] 0
  | node {i ha hb : Nat} {nd : Node} {a b : List Byte} (h : nodes[i]? = some nd) (hl : nd.leaf = false)
      (hr : nd.right ≠ Config.NIL) (sl : SubTree nodes nd.left.toNat a ha)
      (sr : SubTree nodes nd.right.toNat b hb) : SubTree nodes i (a ++ b) (max ha hb + 1)

theorem SubTree.extend {nodes : List Node} {i h : Nat} {a : List Byte} (t : SubTree nodes i a h)
    (more : List Node) : SubTree (nodes ++ more) i a h := by
  have grow : ∀ {j : Nat} {nd : Node}, nodes[j]? = some nd → (nodes ++ more)[j]? = some nd := by
    intro j nd hj
    rw [List.getElem?_append_left (List.getElem?_eq_some_iff.1 hj).1, hj]
  induction t with
  | leaf h hl => exact .leaf (grow h) hl
  | node h hl hr _ _ sl sr => exact .node (grow h) hl hr sl sr

/-- The walk of a subtree gives its leaves, when it may go deep enough. -/
theorem visit_subTree {nodes : List Node} {arena : Vector Node 511}
    (hsub : ∀ (j : Nat) (nd : Node), nodes[j]? = some nd → arena[j]? = some nd)
    {i h : Nat} {a : List Byte} (t : SubTree nodes i a h) (v : BitVec 9) (hv : v.toNat = i) (depth : Nat)
    (hd : h < depth) (p : Bits) : (visit arena depth v p).map Prod.fst = a := by
  induction t generalizing v depth p with
  | leaf h hl =>
    obtain ⟨d, rfl⟩ : ∃ d, depth = d + 1 := ⟨depth - 1, by omega⟩
    simp [visit, hv, hsub _ _ h, hl]
  | node h hl hr _ _ sl sr =>
    obtain ⟨d, rfl⟩ : ∃ d, depth = d + 1 := ⟨depth - 1, by omega⟩
    simp only [visit, hv, hsub _ _ h, hl, Bool.false_eq_true, if_false, hr, ne_eq, not_false_eq_true, if_true,
      List.map_append]
    rw [sl _ rfl d (by omega), sr _ rfl d (by omega)]

/-- The children of the internal nodes. -/
def childIndices (nodes : List Node) : List Nat := nodes.flatMap fun nd => [nd.left.toNat, nd.right.toNat]

/-- What the merge loop keeps of its collection `q` and arena `nodes`, over `n` leaves of the symbols `syms`. -/
structure Merging (leaves : List Node) (syms : List Byte) (q : List Cand) (nodes : List Node) : Prop where
  few : leaves.length ≤ 256
  length : nodes.length + q.length = 2 * leaves.length
  front : ∃ more, nodes = leaves ++ more
  /-- Every node so far is in the collection or the child of exactly one node. -/
  once : (q.map Cand.index ++ childIndices (nodes.drop leaves.length)).Perm (List.range nodes.length)
  weights : ∀ c ∈ q, ∃ nd, nodes[c.index]? = some nd ∧ nd.weight = c.weight
  internal : ∀ (i : Nat) (nd : Node), leaves.length ≤ i → nodes[i]? = some nd →
    nd.leaf = false ∧ nd.symbol = 0 ∧ nd.left.toNat < i ∧ nd.right.toNat < i ∧
      ∃ l r : Node, nodes[nd.left.toNat]? = some l ∧ nodes[nd.right.toNat]? = some r ∧
        nd.weight = l.weight + r.weight
  /-- Each internal node's children had the two least keys when it was made, LEFT the least (R126, R129). -/
  least : ∀ (i : Nat) (nd : Node), leaves.length ≤ i → nodes[i]? = some nd →
    LeastKey nodes i (childIndices ((nodes.take i).drop leaves.length)) nd.left.toNat ∧
      LeastKey nodes i (nd.left.toNat :: childIndices ((nodes.take i).drop leaves.length)) nd.right.toNat
  /-- Each member heads a tree no higher than its number of leaves less one, and together they have the leaves. -/
  cover : ∃ (f : Nat → List Byte) (g : Nat → Nat),
    (∀ c ∈ q, SubTree nodes c.index (f c.index) (g c.index) ∧ g c.index + 1 ≤ (f c.index).length) ∧
      (q.flatMap fun c => f c.index).Perm syms

theorem Merging.index_lt {leaves : List Node} {syms : List Byte} {q : List Cand} {nodes : List Node}
    (m : Merging leaves syms q nodes) {c : Cand} (h : c ∈ q) : c.index < nodes.length := by
  obtain ⟨nd, h, -⟩ := m.weights c h
  exact (List.getElem?_eq_some_iff.1 h).1

/-- A least member of the part of the collection outside `skip` has the least key of the indices that are in the collection
and outside `skip`. -/
theorem Merging.leastKey {leaves : List Node} {syms : List Byte} {q part : List Cand} {nodes : List Node} {c : Cand}
    (m : Merging leaves syms q nodes) (skip : List Nat) (hc : c ∈ q) (hs : c.index ∉ skip)
    (hp : ∀ d ∈ q, d.index ∉ skip → d ∈ part) (hl : ∀ d ∈ part, c.le d) (more : List Node) :
    LeastKey (nodes ++ more) nodes.length (skip ++ childIndices (nodes.drop leaves.length)) c.index := by
  have hnd := m.once.nodup_iff.2 List.nodup_range
  have grow : ∀ {j : Nat}, j < nodes.length → (nodes ++ more)[j]? = nodes[j]? := fun h => List.getElem?_append_left h
  obtain ⟨nd, h1, h2⟩ := m.weights c hc
  refine ⟨m.index_lt hc, ?_, nd, by rw [grow (m.index_lt hc), h1], ?_⟩
  · rw [List.mem_append, not_or]
    exact ⟨hs, fun h => List.disjoint_of_nodup_append hnd (List.mem_map_of_mem hc) h⟩
  · intro j other hj hju ho
    rw [grow hj] at ho
    rw [List.mem_append, not_or] at hju
    obtain ⟨d, hd, rfl⟩ : ∃ d ∈ q, d.index = j := by
      rcases List.mem_append.1 (m.once.mem_iff.2 (List.mem_range.2 hj)) with h | h
      · exact List.mem_map.1 h
      · exact absurd h hju.2
    obtain ⟨x, h3, h4⟩ := m.weights d hd
    obtain rfl := Option.some.inj (ho.symm.trans h3)
    rw [h2, h4]
    exact hl d (hp d hd hju.1)

/-- One merge of the two least members keeps `Merging`. -/
theorem Merging.step {leaves : List Node} {syms : List Byte} {q q2 : List Cand} {nodes : List Node} {a b : Cand}
    (m : Merging leaves syms q nodes) (hq : q.Perm (a :: b :: q2)) (hla : ∀ d ∈ q, a.le d)
    (hlb : ∀ d ∈ b :: q2, b.le d) :
    Merging leaves syms (q2 ++ [⟨a.weight + b.weight, nodes.length⟩]) (nodes ++ [mergeNode a b]) := by
  have hlen := hq.length_eq
  simp only [List.length_cons] at hlen
  have ha : a ∈ q := hq.mem_iff.2 (by simp)
  have hb : b ∈ q := hq.mem_iff.2 (by simp)
  have hm : ∀ c ∈ q2, c ∈ q := fun c hc => hq.mem_iff.2 (by simp [hc])
  have hai := m.index_lt ha
  have hbi := m.index_lt hb
  have hL := m.length
  have hF := m.few
  have hia : (BitVec.ofNat 9 a.index).toNat = a.index := by simp; omega
  have hib : (BitVec.ofNat 9 b.index).toNat = b.index := by simp; omega
  have grow : ∀ {j : Nat} {nd : Node}, nodes[j]? = some nd → (nodes ++ [mergeNode a b])[j]? = some nd := by
    intro j nd hj
    rw [List.getElem?_append_left (List.getElem?_eq_some_iff.1 hj).1, hj]
  have new : (nodes ++ [mergeNode a b])[nodes.length]? = some (mergeNode a b) := by simp
  obtain ⟨more, hmore⟩ := m.front
  have hle : leaves.length ≤ nodes.length := by rw [hmore]; simp
  refine ⟨m.few, ?_, ⟨more ++ [mergeNode a b], by rw [hmore]; simp⟩, ?_, ?_, ?_, ?_, ?_⟩
  · simp only [List.length_append, List.length_cons, List.length_nil]; omega
  · have e1 : childIndices ((nodes ++ [mergeNode a b]).drop leaves.length) =
        childIndices (nodes.drop leaves.length) ++ [a.index, b.index] := by
      rw [List.drop_append_of_le_length hle]
      simp only [childIndices, List.flatMap_append, List.flatMap_cons, List.flatMap_nil, List.append_nil,
        mergeNode, hia, hib]
    rw [e1, List.length_append, List.length_singleton, List.range_succ]
    have h1 := (hq.map Cand.index).append_right (childIndices (nodes.drop leaves.length))
    have h2 := h1.symm.trans m.once
    simp only [List.map_cons, List.map_append, List.map_nil, List.cons_append] at h2 ⊢
    refine List.Perm.trans ?_ (h2.append_right [nodes.length])
    generalize childIndices (nodes.drop leaves.length) = ch
    generalize q2.map Cand.index = qi
    have p1 : (qi ++ [nodes.length] ++ (ch ++ [a.index, b.index])).Perm
        ([a.index, b.index] ++ ((qi ++ ch) ++ [nodes.length])) := by
      have : (qi ++ [nodes.length] ++ (ch ++ [a.index, b.index])) =
          (qi ++ ([nodes.length] ++ ch)) ++ [a.index, b.index] := by simp
      rw [this]
      refine List.perm_append_comm.trans (List.Perm.append_left _ ?_)
      rw [List.append_assoc]
      exact List.Perm.append_left _ List.perm_append_comm
    simpa using p1
  · intro c hc
    rcases List.mem_append.1 hc with hc | hc
    · obtain ⟨nd, h1, h2⟩ := m.weights c (hm c hc)
      exact ⟨nd, grow h1, h2⟩
    · simp only [List.mem_singleton] at hc
      subst hc
      exact ⟨_, new, rfl⟩
  · intro i nd hi hnd
    rcases Nat.lt_or_ge i nodes.length with h | h
    · rw [List.getElem?_append_left h] at hnd
      obtain ⟨h1, h2, h3, h4, l, r, h5, h6, h7⟩ := m.internal i nd hi hnd
      exact ⟨h1, h2, h3, h4, l, r, grow h5, grow h6, h7⟩
    · have hi' : i = nodes.length := by
        have := (List.getElem?_eq_some_iff.1 hnd).1
        simp at this; omega
      subst hi'
      rw [new] at hnd
      obtain rfl := Option.some.inj hnd
      obtain ⟨l, hl1, hl2⟩ := m.weights a ha
      obtain ⟨r, hr1, hr2⟩ := m.weights b hb
      refine ⟨rfl, rfl, ?_, ?_, l, r, ?_, ?_, ?_⟩
      · simpa [mergeNode, hia] using hai
      · simpa [mergeNode, hib] using hbi
      · simp only [mergeNode, hia]; exact grow hl1
      · simp only [mergeNode, hib]; exact grow hr1
      · simp [mergeNode, hl2, hr2]
  · intro i nd hi hnd
    rcases Nat.lt_or_ge i nodes.length with h | h
    · rw [List.getElem?_append_left h] at hnd
      rw [List.take_append_of_le_length (Nat.le_of_lt h)]
      have key : ∀ {used : List Nat} {k : Nat}, LeastKey nodes i used k → LeastKey (nodes ++ [mergeNode a b]) i used k := by
        rintro used k ⟨h1, h2, x, h3, h4⟩
        refine ⟨h1, h2, x, grow h3, fun j other hj hju ho => h4 j other hj hju ?_⟩
        rwa [List.getElem?_append_left (by omega)] at ho
      exact ⟨key (m.least i nd hi hnd).1, key (m.least i nd hi hnd).2⟩
    · have hi' : i = nodes.length := by
        have := (List.getElem?_eq_some_iff.1 hnd).1
        simp at this; omega
      subst hi'
      rw [new] at hnd
      obtain rfl := Option.some.inj hnd
      rw [List.take_left]
      have hne : b.index ≠ a.index := by
        have h1 := (hq.map Cand.index).nodup_iff.1 (List.nodup_append.1 (m.once.nodup_iff.2 List.nodup_range)).1
        simp only [List.map_cons, List.nodup_cons, List.mem_cons, not_or] at h1
        exact Ne.symm h1.1.1
      refine ⟨?_, ?_⟩
      · simp only [mergeNode, hia]
        exact m.leastKey [] ha (by simp) (fun d hd _ => hd) hla _
      · simp only [mergeNode, hia, hib]
        refine m.leastKey (part := b :: q2) [a.index] hb (by simpa using hne) ?_ hlb _
        intro d hd hda
        rcases List.mem_cons.1 (hq.mem_iff.1 hd) with rfl | h'
        · simp at hda
        · exact h'
  · obtain ⟨f, g, h1, h2⟩ := m.cover
    have hne : ∀ c ∈ q, c.index ≠ nodes.length := fun c hc => by have := m.index_lt hc; omega
    refine ⟨Function.update f nodes.length (f a.index ++ f b.index),
      Function.update g nodes.length (max (g a.index) (g b.index) + 1), ?_, ?_⟩
    · intro c hc
      rcases List.mem_append.1 hc with hc | hc
      · have hc' := hm c hc
        rw [Function.update_of_ne (hne c hc'), Function.update_of_ne (hne c hc')]
        exact ⟨(h1 c hc').1.extend _, (h1 c hc').2⟩
      · simp only [List.mem_singleton] at hc
        subst hc
        simp only [Function.update_self, List.length_append]
        refine ⟨.node new rfl ?_ ?_ ?_, ?_⟩
        · simp only [mergeNode, Config.NIL, ne_eq]
          intro h
          have := congrArg BitVec.toNat h
          rw [hib] at this
          simp at this; omega
        · simp only [mergeNode, hia]; exact (h1 a ha).1.extend _
        · simp only [mergeNode, hib]; exact (h1 b hb).1.extend _
        · have := (h1 a ha).2
          have := (h1 b hb).2
          omega
    · have e : (q2 ++ [(⟨a.weight + b.weight, nodes.length⟩ : Cand)]).flatMap
          (fun c => Function.update f nodes.length (f a.index ++ f b.index) c.index) =
          q2.flatMap (fun c => f c.index) ++ (f a.index ++ f b.index) := by
        rw [List.flatMap_append]
        congr 1
        · apply List.flatMap_congr
          intro c hc
          rw [Function.update_of_ne (hne c (hm c hc))]
        · simp
      rw [e]
      refine List.Perm.trans ?_ ((hq.flatMap_right _).symm.trans h2)
      simp only [List.flatMap_cons]
      refine List.perm_append_comm.trans ?_
      rw [List.append_assoc]

/-- The merge loop ends with one member, the last node made. -/
theorem mergeAll_spec {leaves : List Node} {syms : List Byte} (fuel : Nat) {q : List Cand} {nodes : List Node}
    (m : Merging leaves syms q nodes) (h2 : 2 ≤ q.length) (hf : q.length ≤ fuel + 1) :
    ∃ c : Cand, Merging leaves syms [c] (mergeAll fuel q nodes) ∧
      c.index = (mergeAll fuel q nodes).length - 1 := by
  induction fuel generalizing q nodes with
  | zero => omega
  | succ fuel ih =>
    unfold mergeAll
    cases h1 : extractLeast q with
    | none => rw [extractLeast_eq_none] at h1; subst h1; simp at h2
    | some x =>
      obtain ⟨a, q1⟩ := x
      obtain ⟨e1, p1⟩ := extractLeast_perm h1
      have l1 := p1.length_eq
      simp only [List.length_cons] at l1
      cases h3 : extractLeast q1 with
      | none => rw [extractLeast_eq_none] at h3; subst h3; simp at l1; omega
      | some y =>
        obtain ⟨b, q2⟩ := y
        obtain ⟨e2, p2⟩ := extractLeast_perm h3
        have l2 := p2.length_eq
        simp only [List.length_cons] at l2
        have m' := m.step (p1.trans (p2.cons a)) (leastCand_le e1)
          (fun d hd => leastCand_le e2 d (p2.mem_iff.2 hd))
        simp only [h3]
        rcases Nat.eq_zero_or_pos q2.length with hz | hp
        · have hq2 : q2 = [] := List.eq_nil_of_length_eq_zero hz
          subst hq2
          have hstop : ∀ (fuel : Nat) (c : Cand) (ns : List Node), mergeAll fuel [c] ns = ns := by
            intro fuel c ns
            cases fuel <;> simp [mergeAll, extractLeast, leastCand]
          rw [List.nil_append, hstop]
          exact ⟨_, m', by simp⟩
        · exact ih m' (by simp; omega) (by simp; omega)

theorem leafCands_index (leaves : List Node) : (leafCands leaves).map Cand.index = List.range leaves.length := by
  rw [leafCands, List.map_map]
  have : (Cand.index ∘ fun x : Node × Nat => (⟨x.1.weight, x.2⟩ : Cand)) = Prod.snd := rfl
  rw [show (fun x : Node × Nat => match x with | (nd, i) => (⟨nd.weight, i⟩ : Cand)) =
    fun x : Node × Nat => (⟨x.1.weight, x.2⟩ : Cand) from rfl, this, List.zipIdx_map_snd, List.range_eq_range']

theorem mem_leafCands {leaves : List Node} {c : Cand} (h : c ∈ leafCands leaves) :
    ∃ nd, leaves[c.index]? = some nd ∧ nd.weight = c.weight := by
  obtain ⟨⟨nd, i⟩, h1, rfl⟩ := List.mem_map.1 h
  exact ⟨nd, List.mem_zipIdx_iff_getElem?.1 h1, rfl⟩

/-- Before the first merge. -/
theorem Merging.start {leaves : List Node} (hl : ∀ nd ∈ leaves, nd.leaf = true) (hn : leaves.length ≤ 256) :
    Merging leaves (leaves.map Node.symbol) (leafCands leaves) leaves := by
  have hlen : (leafCands leaves).length = leaves.length := by
    have := congrArg List.length (leafCands_index leaves)
    simpa using this
  refine ⟨hn, by rw [hlen]; omega, ⟨[], by simp⟩, ?_, fun c hc => mem_leafCands hc, ?_, ?_, ?_⟩
  · rw [leafCands_index, List.drop_length]
    simp [childIndices]
  · intro i nd hi hnd
    have := (List.getElem?_eq_some_iff.1 hnd).1
    omega
  · intro i nd hi hnd
    have := (List.getElem?_eq_some_iff.1 hnd).1
    omega
  · refine ⟨fun i => (leaves[i]?.map Node.symbol).toList, fun _ => 0, ?_, ?_⟩
    · intro c hc
      obtain ⟨nd, h1, -⟩ := mem_leafCands hc
      have hlf := hl nd (List.mem_of_getElem? h1)
      simp only [h1, Option.map_some, Option.toList_some, List.length_singleton]
      exact ⟨.leaf h1 hlf, Nat.le_refl _⟩
    · have h := leafCands_index leaves
      have e : (leafCands leaves).flatMap (fun c => (leaves[c.index]?.map Node.symbol).toList) =
          (List.range leaves.length).flatMap (fun i => (leaves[i]?.map Node.symbol).toList) := by
        rw [← h, List.flatMap_map]
      rw [e]
      have e2 : ∀ l : List Node,
          (List.range l.length).flatMap (fun i => (l[i]?.map Node.symbol).toList) = l.map Node.symbol := by
        intro l
        induction l using List.reverseRecOn with
        | nil => rfl
        | append_singleton l x ih =>
          rw [List.length_append, List.length_singleton, List.range_succ, List.flatMap_append, List.map_append]
          congr 1
          · rw [← ih]
            apply List.flatMap_congr
            intro i hi
            rw [List.getElem?_append_left (List.mem_range.1 hi)]
          · simp
      rw [e2]

theorem buildNodes_of_two {freq : Vector Word 256} (h : 2 ≤ (leafNodes 0 freq.toList).length) :
    buildNodes freq = mergeAll (leafNodes 0 freq.toList).length (leafCands (leafNodes 0 freq.toList))
      (leafNodes 0 freq.toList) := by
  unfold buildNodes
  dsimp only
  split
  · rename_i heq; simp [heq] at h
  · rfl

theorem leafNodes_length (freq : Vector Word 256) : (leafNodes 0 freq.toList).length = presentSymbols freq := by
  rw [leafNodes_eq, List.length_map, presentList_length]

theorem leafNodes_leaf (freq : Vector Word 256) : ∀ nd ∈ leafNodes 0 freq.toList, nd.leaf = true := by
  rw [leafNodes_eq]
  intro nd h
  obtain ⟨b, -, rfl⟩ := List.mem_map.1 h
  rfl

theorem leafNodes_symbols (freq : Vector Word 256) :
    (leafNodes 0 freq.toList).map Node.symbol = presentList freq := by
  rw [leafNodes_eq, List.map_map]
  conv_rhs => rw [← List.map_id (presentList freq)]
  apply List.map_congr_left
  intro b _
  simp [leafNode]

/-- The tree over two symbols or more (41_encoder.md R126, R130). -/
theorem buildNodes_spec {freq : Vector Word 256} (h : 2 ≤ presentSymbols freq) :
    ∃ c : Cand, Merging (leafNodes 0 freq.toList) (presentList freq) [c] (buildNodes freq) ∧
      c.index = (buildNodes freq).length - 1 := by
  rw [← leafNodes_length] at h
  have hlen : (leafCands (leafNodes 0 freq.toList)).length = (leafNodes 0 freq.toList).length := by
    have := congrArg List.length (leafCands_index (leafNodes 0 freq.toList))
    simpa using this
  have m := Merging.start (leafNodes_leaf freq)
    (by rw [leafNodes_length]; exact presentSymbols_le freq)
  rw [leafNodes_symbols] at m
  rw [buildNodes_of_two h]
  exact mergeAll_spec _ m (by omega) (by omega)

/-- The tree of one symbol (41_encoder.md R127). -/
theorem buildNodes_one {freq : Vector Word 256} {b : Byte} (h : presentList freq = [b]) :
    buildNodes freq = [leafNode b.toNat (atSymbol freq b), singleNode (leafNode b.toNat (atSymbol freq b))] := by
  unfold buildNodes
  rw [leafNodes_eq, h]
  rfl

theorem buildNodes_length_le (freq : Vector Word 256) : (buildNodes freq).length ≤ 511 := by
  have h256 := presentSymbols_le freq
  rcases Nat.lt_or_ge (presentSymbols freq) 2 with h | h
  · rw [← leafNodes_length] at h
    unfold buildNodes
    dsimp only
    split
    · simp
    · generalize hl : leafNodes 0 freq.toList = ls at h
      rcases ls with _ | ⟨x, _ | ⟨y, ls⟩⟩
      · simp [mergeAll, leafCands]
      · rename_i hne; exact absurd hl (hne x)
      · simp at h
  · obtain ⟨c, m, -⟩ := buildNodes_spec h
    have := m.length
    have := m.few
    simp only [List.length_singleton] at *
    rw [leafNodes_length] at *
    omega

/-! ### The arena -/

theorem arenaOf_getElem? {nodes : List Node} {i : Nat} (hi : i < 511) :
    (arenaOf nodes)[i]? = some (nodes[i]?.getD Node.zero) := by
  have h1 : (arenaOf nodes).toList = (nodes ++ List.replicate 511 Node.zero).take 511 := rfl
  rw [← Vector.getElem?_toList, h1, List.getElem?_take_of_lt hi]
  rcases Nat.lt_or_ge i nodes.length with h | h
  · rw [List.getElem?_append_left h, List.getElem?_eq_getElem h]; rfl
  · rw [List.getElem?_append_right h, List.getElem?_replicate, if_pos (by omega),
      List.getElem?_eq_none h]; rfl

theorem arenaOf_of_getElem? {nodes : List Node} (hn : nodes.length ≤ 511) {i : Nat} {nd : Node}
    (h : nodes[i]? = some nd) : (arenaOf nodes)[i]? = some nd := by
  have := (List.getElem?_eq_some_iff.1 h).1
  rw [arenaOf_getElem? (by omega), h]; rfl

/-! ### The walk -/

/-- The node reached by following bits down from a node (41_encoder.md R133). -/
def walk (nodes : Vector Node 511) : BitVec 9 → Bits → Option (BitVec 9)
  | i, [] => some i
  | i, b :: bs =>
    match nodes[i.toNat]? with
    | none => none
    | some nd =>
      if nd.leaf then none
      else if b then (if nd.right ≠ Config.NIL then walk nodes nd.right bs else none)
      else walk nodes nd.left bs

theorem walk_append (nodes : Vector Node 511) (i : BitVec 9) (p q : Bits) :
    walk nodes i (p ++ q) = (walk nodes i p).bind fun j => walk nodes j q := by
  induction p generalizing i with
  | nil => rfl
  | cons b p ih =>
    simp only [List.cons_append, walk]
    cases nodes[i.toNat]? with
    | none => rfl
    | some nd =>
      cases hl : nd.leaf with
      | true => simp [hl]
      | false =>
        cases b with
        | false => simp [ih, hl]
        | true => by_cases hr : nd.right = Config.NIL <;> simp [ih, hr, hl]

/-- A walk stops at a leaf. -/
theorem walk_leaf {nodes : Vector Node 511} {i j : BitVec 9} {nd : Node} {q : Bits}
    (h : nodes[i.toNat]? = some nd) (hl : nd.leaf = true) (hw : walk nodes i q = some j) : q = [] := by
  cases q with
  | nil => rfl
  | cons b q => simp [walk, h, hl] at hw

/-- The entries of the walk of the tree: the leaves within its depth, each with the bits that lead to it. -/
theorem mem_visit {nodes : Vector Node 511} {depth : Nat} {i : BitVec 9} {p : Bits} {e : Byte × Bits} :
    e ∈ visit nodes depth i p ↔ ∃ (r : Bits) (j : BitVec 9) (nd : Node), e = (nd.symbol, p ++ r) ∧
      r.length < depth ∧ walk nodes i r = some j ∧ nodes[j.toNat]? = some nd ∧ nd.leaf = true := by
  induction depth generalizing i p with
  | zero => simp [visit]
  | succ depth ih =>
    unfold visit
    cases hi : nodes[i.toNat]? with
    | none =>
      simp only [List.not_mem_nil, false_iff]
      rintro ⟨r, j, nd, -, -, hw, hj, -⟩
      cases r with
      | nil => simp only [walk, Option.some.injEq] at hw; subst hw; simp [hi] at hj
      | cons b r => simp [walk, hi] at hw
    | some nd =>
      simp only
      by_cases hl : nd.leaf = true
      · simp only [hl, if_true, List.mem_singleton]
        constructor
        · rintro rfl
          exact ⟨[], i, nd, by simp, by simp, rfl, hi, hl⟩
        · rintro ⟨r, j, nd', rfl, -, hw, hj, -⟩
          obtain rfl := walk_leaf hi hl hw
          simp only [walk, Option.some.injEq] at hw
          subst hw
          rw [hi] at hj
          obtain rfl := Option.some.inj hj
          simp
      · rw [if_neg hl, List.mem_append, ih]
        have hl' : nd.leaf = false := by simpa using hl
        constructor
        · rintro (⟨r, j, nd', rfl, hr, hw, hj, hlj⟩ | h)
          · exact ⟨false :: r, j, nd', by simp, by simp; omega, by simp [walk, hi, hl', hw], hj, hlj⟩
          · split at h
            · rename_i hn
              obtain ⟨r, j, nd', rfl, hr, hw, hj, hlj⟩ := ih.1 h
              refine ⟨true :: r, j, nd', by simp, by simp; omega, ?_, hj, hlj⟩
              simp only [walk, hi, hl', Bool.false_eq_true, if_false, if_true]
              rw [if_pos hn, hw]
            · simp at h
        · rintro ⟨r, j, nd', rfl, hr, hw, hj, hlj⟩
          cases r with
          | nil =>
            simp only [walk, Option.some.injEq] at hw
            subst hw
            rw [hi] at hj
            obtain rfl := Option.some.inj hj
            exact absurd hlj hl
          | cons b r =>
            simp only [List.length_cons] at hr
            cases b with
            | false =>
              simp only [walk, hi, hl', Bool.false_eq_true, if_false] at hw
              exact .inl ⟨r, j, nd', by simp, by omega, hw, hj, hlj⟩
            | true =>
              simp only [walk, hi, hl', Bool.false_eq_true, if_false, if_true] at hw
              by_cases hn : nd.right ≠ Config.NIL
              · rw [if_pos hn] at hw ⊢
                exact .inr (ih.2 ⟨r, j, nd', by simp, by omega, hw, hj, hlj⟩)
              · rw [if_neg hn] at hw; simp at hw

/-- A path of the tree is a walk from its root. -/
theorem treePath_iff_walk {nodes : Vector Node 511} {root i : BitVec 9} {p : Bits} :
    TreePath nodes root p i ↔ walk nodes root p = some i := by
  constructor
  · intro h
    induction h with
    | here => rfl
    | left _ hn hl ih => rw [walk_append, ih]; simp [walk, hn, hl]
    | right _ hn hl hr ih => rw [walk_append, ih]; simp [walk, hn, hl, hr]
  · induction p using List.reverseRecOn generalizing i with
    | nil => intro h; simp only [walk, Option.some.injEq] at h; subst h; exact .here
    | append_singleton p b ih =>
      intro h
      rw [walk_append] at h
      cases hp : walk nodes root p with
      | none => simp [hp] at h
      | some j =>
        simp only [hp, Option.bind_some, walk] at h
        cases hj : nodes[j.toNat]? with
        | none => simp [hj] at h
        | some nd =>
          simp only [hj] at h
          cases hl : nd.leaf with
          | true => simp [hl] at h
          | false =>
            simp only [hl, Bool.false_eq_true, if_false] at h
            cases b with
            | false =>
              simp only [Bool.false_eq_true, if_false, Option.some.injEq] at h
              subst h; exact .left (ih hp) hj hl
            | true =>
              simp only [if_true] at h
              split at h
              · rename_i hn
                simp only [Option.some.injEq] at h
                subst h; exact .right (ih hp) hj hl hn
              · simp at h

/-! ### The table of a list of entries -/

theorem tableOf_fold (es : List (Byte × Bits)) (t : Vector Bits 256) (b : Byte) :
    (b ∉ es.map Prod.fst ∧ atSymbol (es.foldl (fun t e => setSymbol t e.1 e.2) t) b = atSymbol t b) ∨
      (b, atSymbol (es.foldl (fun t e => setSymbol t e.1 e.2) t) b) ∈ es := by
  induction es generalizing t with
  | nil => simp
  | cons e es ih =>
    rw [List.foldl_cons]
    rcases ih (setSymbol t e.1 e.2) with ⟨h1, h2⟩ | h
    · by_cases hb : e.1 = b
      · right
        rw [h2, ← hb, atSymbol_setSymbol_self]
        exact List.mem_cons_self
      · left
        rw [h2, atSymbol_setSymbol_ne _ _ hb]
        refine ⟨?_, rfl⟩
        simp only [List.map_cons, List.mem_cons, not_or]
        exact ⟨fun h => hb h.symm, h1⟩
    · exact .inr (List.mem_cons_of_mem _ h)

/-- An entry of the table of a list is one of the list's. -/
theorem tableOf_mem {es : List (Byte × Bits)} {b : Byte} (h : atSymbol (tableOf es) b ≠ []) :
    (b, atSymbol (tableOf es) b) ∈ es := by
  rcases tableOf_fold es emptyTable b with ⟨-, h2⟩ | h'
  · exact absurd (h2.trans (atSymbol_emptyTable b)) h
  · exact h'

theorem tableOf_not_mem {es : List (Byte × Bits)} {b : Byte} (h : b ∉ es.map Prod.fst) :
    atSymbol (tableOf es) b = [] := by
  rcases tableOf_fold es emptyTable b with ⟨-, h2⟩ | h'
  · exact h2.trans (atSymbol_emptyTable b)
  · exact absurd (List.mem_map_of_mem (f := Prod.fst) h') h

/-- A symbol in the list has one of its entries' codes. -/
theorem tableOf_entry {es : List (Byte × Bits)} {b : Byte} (h : b ∈ es.map Prod.fst) :
    (b, atSymbol (tableOf es) b) ∈ es := by
  rcases tableOf_fold es emptyTable b with ⟨h1, -⟩ | h'
  · exact absurd h h1
  · exact h'

/-! ### The generated table -/

theorem genTable_mem {nodes : Vector Node 511} {root : BitVec 9} {b : Byte}
    (h : atSymbol (genTable nodes root) b ≠ []) :
    (atSymbol (genTable nodes root) b).length ≤ 255 ∧ ∃ (j : BitVec 9) (nd : Node),
      walk nodes root (atSymbol (genTable nodes root) b) = some j ∧ nodes[j.toNat]? = some nd ∧
        nd.leaf = true ∧ nd.symbol = b := by
  obtain ⟨r, j, nd, he, hr, hw, hj, hl⟩ := mem_visit.1 (tableOf_mem h)
  simp only [List.nil_append, Prod.mk.injEq] at he
  rw [genTable, he.2]
  refine ⟨?_, j, nd, hw, hj, hl, he.1.symm⟩
  simp only [Config.maxCodeLen] at hr
  omega

theorem genTable_length_le (nodes : Vector Node 511) (root : BitVec 9) (b : Byte) :
    (atSymbol (genTable nodes root) b).length ≤ 255 := by
  by_cases h : atSymbol (genTable nodes root) b = []
  · simp [h]
  · exact (genTable_mem h).1

/-- The codes of any arena are a prefix code, since a walk stops at a leaf (41_encoder.md R135). -/
theorem genTable_prefixFree (nodes : Vector Node 511) (root : BitVec 9) : PrefixFree (genTable nodes root) := by
  intro a b ha hb ⟨r, hr⟩
  obtain ⟨-, j, nd, hw, hj, hl, hs⟩ := genTable_mem ha
  obtain ⟨-, j', nd', hw', hj', hl', hs'⟩ := genTable_mem hb
  rw [← hr, walk_append, hw, Option.bind_some] at hw'
  obtain rfl := walk_leaf hj hl hw'
  simp only [walk, Option.some.injEq] at hw'
  subst hw'
  rw [hj] at hj'
  obtain rfl := Option.some.inj hj'
  rw [← hs, ← hs']

/-- The symbols of the walk of a built tree are the present symbols (41_encoder.md R130). -/
theorem visit_buildNodes {freq : Vector Word 256} (h : 1 ≤ presentSymbols freq) :
    ((visit (arenaOf (buildNodes freq)) (Config.maxCodeLen + 1)
      (BitVec.ofNat 9 ((buildNodes freq).length - 1)) []).map Prod.fst).Perm (presentList freq) := by
  have hlen := buildNodes_length_le freq
  rcases Nat.eq_or_lt_of_le h with h1 | h2
  · obtain ⟨b, hb⟩ : ∃ b, presentList freq = [b] := List.length_eq_one_iff.1 (by rw [presentList_length]; omega)
    have hn := buildNodes_one hb
    have e0 : (arenaOf (buildNodes freq))[0]? = some (leafNode b.toNat (atSymbol freq b)) :=
      arenaOf_of_getElem? hlen (by rw [hn]; rfl)
    have e1 : (arenaOf (buildNodes freq))[1]? = some (singleNode (leafNode b.toNat (atSymbol freq b))) :=
      arenaOf_of_getElem? hlen (by rw [hn]; rfl)
    have hroot : BitVec.ofNat 9 ((buildNodes freq).length - 1) = 1#9 := by rw [hn]; rfl
    have hv : visit (arenaOf (buildNodes freq)) (254 + 1 + 1) 1#9 [] = [(b, [false])] := by
      rw [visit, show (1#9).toNat = 1 from rfl, e1]
      simp only [singleNode, Bool.false_eq_true, if_false, ne_eq, not_true_eq_false, List.append_nil]
      rw [visit, show (0 : BitVec 9).toNat = 0 from rfl, e0]
      simp [leafNode]
    rw [hroot, hb, show Config.maxCodeLen + 1 = 254 + 1 + 1 from rfl, hv]
    simp
  · obtain ⟨c, m, hc⟩ := buildNodes_spec h2
    obtain ⟨f, g, h3, h4⟩ := m.cover
    obtain ⟨t, hg⟩ := h3 c (by simp)
    simp only [List.flatMap_cons, List.flatMap_nil, List.append_nil] at h4
    have hlf := h4.length_eq
    rw [presentList_length] at hlf
    have h256 := presentSymbols_le freq
    have hlt := m.index_lt (c := c) (by simp)
    rw [← hc]
    rw [visit_subTree (fun j nd hj => arenaOf_of_getElem? hlen hj) t _ (by simp; omega) _
      (by simp only [Config.maxCodeLen]; omega)]
    exact h4

/-- The generated code covers exactly the present symbols (41_encoder.md R135, 10_state.md R46 (d)). -/
theorem genTable_covers {freq : Vector Word 256} (h : 1 ≤ presentSymbols freq) (b : Byte) :
    atSymbol (genTable (arenaOf (buildNodes freq)) (BitVec.ofNat 9 ((buildNodes freq).length - 1))) b ≠ [] ↔
      atSymbol freq b ≠ 0 := by
  have hperm := visit_buildNodes h
  rw [← mem_presentList, ← hperm.mem_iff]
  constructor
  · intro h0
    exact List.mem_map_of_mem (f := Prod.fst) (tableOf_mem h0)
  · intro hb h0
    have hmem := tableOf_entry hb
    unfold genTable at h0
    rw [h0] at hmem
    obtain ⟨r, j, nd, he, -, hw, hj, hl⟩ := mem_visit.1 hmem
    simp only [List.nil_append, Prod.mk.injEq] at he
    obtain rfl := he.2
    simp only [walk, Option.some.injEq] at hw
    subst hw
    have hlen := buildNodes_length_le freq
    rcases Nat.eq_or_lt_of_le h with h1 | h2
    · obtain ⟨x, hx⟩ : ∃ x, presentList freq = [x] :=
        List.length_eq_one_iff.1 (by rw [presentList_length]; omega)
      have hn := buildNodes_one hx
      have e1 : (arenaOf (buildNodes freq))[1]? = some (singleNode (leafNode x.toNat (atSymbol freq x))) :=
        arenaOf_of_getElem? hlen (by rw [hn]; rfl)
      have hroot : BitVec.ofNat 9 ((buildNodes freq).length - 1) = 1#9 := by rw [hn]; rfl
      rw [hroot, show (1#9).toNat = 1 from rfl, e1] at hj
      obtain rfl := Option.some.inj hj
      simp [singleNode] at hl
    · obtain ⟨c, m, hc⟩ := buildNodes_spec h2
      have hL := m.length
      simp only [List.length_singleton] at hL
      have hn := leafNodes_length freq
      have h256 := presentSymbols_le freq
      have hidx : (BitVec.ofNat 9 ((buildNodes freq).length - 1)).toNat = (buildNodes freq).length - 1 := by
        simp; omega
      rw [hidx] at hj
      have hlt : (buildNodes freq).length - 1 < (buildNodes freq).length := by omega
      rw [arenaOf_of_getElem? hlen (List.getElem?_eq_getElem hlt)] at hj
      have hi := m.internal ((buildNodes freq).length - 1) _ (by omega) (List.getElem?_eq_getElem hlt)
      rw [Option.some.inj hj] at hi
      rw [hi.1] at hl
      simp at hl

end Sys2Proof.Machine
end

