-- ==== Sys2Proof/Laws/Stages.lean ====
section
/-! SUPPORT. What the pseudocode of each stage can do, said once, and how a property of every part of a composite command
passes to the whole. -/

namespace Sys2Proof.Machine

/-- The state a pseudocode leaves, before the command's completion. -/
def Run.state : Run → State
  | .done s => s
  | .raised _ s => s

@[simp] theorem Run.state_done (s : State) : (Run.done s).state = s := rfl

@[simp] theorem Run.state_raised (e : Error) (s : State) : (Run.raised e s).state = s := rfl

/-- Completion changes the phase and STATUS only. -/
theorem Run.finish_eq (r : Run) :
    r.finish = { r.state with
      phase := .idle, done := true
      err := r.finish.err, errcode := r.finish.errcode, errinfo := r.finish.errinfo } := by
  cases r <;> rfl

/-- A relation that every part of a composite keeps and that composes holds of the composite. -/
theorem Run.andThen_rel {R : State → State → Prop} (hR : ∀ a b c, R a b → R b c → R a c) {s : State} {r : Run}
    {f : State → Run} (h1 : R s r.state) (h2 : ∀ t, R t (f t).state) : R s (r.andThen f).state := by
  cases r with
  | done t => exact hR _ _ _ h1 (h2 t)
  | raised e t => exact h1

theorem buildBody_empty {s : State} (h : s.nsym = 0) :
    buildBody s = .raised .emptyInput (State.unspecTree { s with treeV := false, codeV := false }) := by
  simp only [buildBody, if_pos h]

theorem buildBody_some {s : State} (h : s.nsym ≠ 0) :
    buildBody s = .done (State.finishTree { s with treeV := false, codeV := false } (buildNodes s.freq)) := by
  simp only [buildBody, if_neg h]

/-- The container PACK writes. -/
def State.container (s : State) : List Byte :=
  let total := bitTotal s.freq s.code
  header s.ncode.toNat (padOf total) s.code ++
    packBytes ((total + padOf total) / 8) (packedBits s.code s.input (padOf total))

theorem packBytes_length (n : Nat) (bits : Bits) : (packBytes n bits).length = n := by
  induction n generalizing bits with
  | zero => rfl
  | succ n ih => simp [packBytes, ih]

theorem packBody_fits {s : State} (h : s.container.length ≤ s.params.obufBytes) :
    packBody s = .done { s with
      obuf := s.obuf.putBytes 0 s.container
      outLen := BitVec.ofNat 32 s.container.length
      totalBits := BitVec.ofNat 32 (bitTotal s.freq s.code)
      pad := BitVec.ofNat 3 (padOf (bitTotal s.freq s.code))
      hdrLen := BitVec.ofNat 32 (header s.ncode.toNat (padOf (bitTotal s.freq s.code)) s.code).length } := by
  have hl : s.container.length = (header s.ncode.toNat (padOf (bitTotal s.freq s.code)) s.code).length +
      (bitTotal s.freq s.code + padOf (bitTotal s.freq s.code)) / 8 := by
    simp [State.container, packBytes_length]
  rw [hl] at h ⊢
  simp only [packBody, if_neg (Nat.not_lt.2 h)]
  rfl

theorem packBody_overflows {s : State} (h : s.params.obufBytes < s.container.length) :
    packBody s = .raised .capacityOut s.unspecContainer := by
  have hl : s.container.length = (header s.ncode.toNat (padOf (bitTotal s.freq s.code)) s.code).length +
      (bitTotal s.freq s.code + padOf (bitTotal s.freq s.code)) / 8 := by
    simp [State.container, packBytes_length]
  rw [hl] at h
  simp only [packBody, if_pos h]

/-- What COUNT, BUILD and GENCODE leave of a non-empty input: the state in which COMPRESS packs (41_encoder.md R150). -/
def State.encoded (s : State) : State :=
  let freq := countTable s.input
  let nodes := buildNodes freq
  let root := BitVec.ofNat 9 (nodes.length - 1)
  let code := genTable (arenaOf nodes) root
  { s with
    freq := freq, nsym := BitVec.ofNat 9 (presentSymbols freq), freqV := true
    node := arenaOf nodes, nnodes := BitVec.ofNat 10 nodes.length, root := root, treeV := true
    code := code, ncode := BitVec.ofNat 9 (tableSize code), maxlen := BitVec.ofNat 8 (tableMaxLen code)
    codeV := true, csrc := false }

/-- COUNT of a non-empty input finds a symbol. -/
theorem count_nsym_ne_zero {s : State} (h : s.inLen ≠ 0) :
    BitVec.ofNat 9 (presentSymbols (countTable s.input)) ≠ 0 := by
  have h1 : s.inLen.toNat ≠ 0 := fun hz => h (BitVec.eq_of_toNat_eq (by simpa using hz))
  have hlen := s.input_length
  have h0 : s.input ≠ [] := by
    intro hn; rw [hn] at hlen; exact h1 hlen.symm
  have hpos := presentSymbols_pos (by rw [hlen]; exact s.inLen.isLt) h0
  have hle := presentSymbols_le (countTable s.input)
  intro hz
  have := congrArg BitVec.toNat hz
  simp at this
  omega

/-- COMPRESS of a non-empty input packs. -/
theorem compressBody_nonempty {s : State} (h : s.inLen ≠ 0) : compressBody s = packBody s.encoded := by
  simp only [compressBody, countBody, Run.andThen_done]
  rw [buildBody_some (count_nsym_ne_zero h)]
  rfl

theorem State.encoded_input (s : State) : s.encoded.input = s.input := rfl

theorem parseBody_error {s : State} {e : FormatError} (h : parseContainer s.input = .error e) :
    parseBody s = .raised (.format e) (State.unspecTable { s with codeV := false }) := by
  simp only [parseBody, h]

theorem parseBody_ok {s : State} {l : Lines} (h : parseContainer s.input = .ok l) :
    parseBody s = .done { s with
      code := l.table
      ncode := BitVec.ofNat 9 l.entries
      maxlen := BitVec.ofNat 8 (tableMaxLen l.table)
      pad := BitVec.ofNat 3 l.pad
      hdrLen := BitVec.ofNat 32 (s.inLen.toNat - l.raw.length)
      totalBits := BitVec.ofNat 32 (8 * l.raw.length - l.pad)
      csrc := true
      codeV := true } := by
  simp only [parseBody, h, State.input_length]

/-- What the decode loop gives on the stream in IBUF. -/
def State.decoded (s : State) : Except Error (List Byte) :=
  decodeLoop s.code s.params.obufBytes 0 [] (s.streamBits s.hdrLen.toNat s.totalBits.toNat)

theorem decodeBody_error {s : State} {e : Error} (h : s.decoded = .error e) :
    decodeBody s = .raised e s.unspecOutput := by
  unfold State.decoded at h
  simp only [decodeBody, h]

theorem decodeBody_ok {s : State} {out : List Byte} (h : s.decoded = .ok out) :
    decodeBody s = .done { s with
      obuf := s.obuf.putBytes 0 out
      outLen := BitVec.ofNat 32 out.length } := by
  unfold State.decoded at h
  simp only [decodeBody, h]

/-- The launch check of a command that reads IBUF (60_exceptions.md R202). -/
theorem checkInput_eq_none {s : State} : s.checkInput = none ↔ s.inLen.toNat ≤ s.params.ibufBytes := by
  unfold State.checkInput
  split
  · simp only [reduceCtorEq, false_iff]; omega
  · simp only [true_iff]; omega

/-- The launch check of a stage that needs valid bits (60_exceptions.md R202). -/
theorem checkStage_eq_none {b : Bool} : checkStage b = none ↔ b = true := by cases b <;> simp [checkStage]

/-- The bit total as a sum over the symbols. -/
theorem bitTotal_eq_sum (freq : Vector Word 256) (code : Vector Bits 256) :
    bitTotal freq code = ((List.range 256).map fun i =>
      (atSymbol freq (BitVec.ofNat 8 i)).toNat * (atSymbol code (BitVec.ofNat 8 i)).length).sum := by
  rw [bitTotal, toList_eq_map freq, toList_eq_map code, List.zip_map', List.map_map]; rfl

/-- The entry lines of a header as a walk over the symbols. -/
theorem entryLines_eq_flatMap (code : Vector Bits 256) :
    entryLines 0 code.toList = (List.range 256).flatMap fun i =>
      if atSymbol code (BitVec.ofNat 8 i) = [] then [] else entryLine i (atSymbol code (BitVec.ofNat 8 i)) := by
  have h1 : ∀ (cs : List Bits) (s : Nat), entryLines s cs =
      (cs.zipIdx s).flatMap fun e => if e.1 = [] then [] else entryLine e.2 e.1 := by
    intro cs
    induction cs with
    | nil => intro s; rfl
    | cons c cs ih => intro s; rw [entryLines, ih]; simp [List.zipIdx_cons]
  have h2 : code.toList.zipIdx = (List.range 256).map fun i => (atSymbol code (BitVec.ofNat 8 i), i) := by
    rw [toList_eq_map, List.zipIdx_eq_zip_range']
    apply List.ext_getElem
    · simp
    · intro i h3 h4; simp
  rw [h1, h2, List.flatMap_map]

end Sys2Proof.Machine
end

