-- ==== Sys2Proof/Tests/Slice0.lean ====
section
/-! SUPPORT. Tests of the model on single steps, with results from spec/95_test_vectors.md and the examples of the rules, and
for each statement with hypotheses a state and operands that meet them all. -/

namespace Sys2Proof.Tests

open Sys2Proof Sys2Proof.Machine

set_option maxRecDepth 100000

/-! ### Helpers -/

/-- A part with two buffers of 64 bytes, right after reset, with a phase and events. -/
def base (ph : Phase) (events : List Event) : State := { State.resetWith ⟨64, 64⟩ 0 events with phase := ph }

/-- A part whose engine executes a command on an input. -/
def busyOn (op : Instr) (input : List Byte) : State :=
  { base (.busy op) [] with
    cmd := encode op
    ibuf := ⟨input.zipIdx.map fun (b, i) => (i, b), 0⟩
    inLen := BitVec.ofNat 32 input.length }

/-- A view of the next state. -/
def after {α : Type} (o : Host.Outcome State Fault Refusal) (f : State → α) : Option α :=
  match o with
  | .next s => some (f s)
  | .fault _ => none
  | .refused _ => none

/-- The next state, or a given one. -/
def nextOr (o : Host.Outcome State Fault Refusal) (s : State) : State :=
  match o with
  | .next t => t
  | .fault _ => s
  | .refused _ => s

/-- What the parser reads, or nothing. -/
def parsed (bytes : List Byte) : Lines :=
  match parseContainer bytes with
  | .ok l => l
  | .error _ => ⟨emptyTable, 0, 0, []⟩

/-- b"aaaabbbccd" (95_test_vectors.md 1.1). -/
def sample : List Byte := [97, 97, 97, 97, 98, 98, 98, 99, 99, 100]

/-- The container of 95_test_vectors.md 1.1. -/
def sampleContainer : List Byte :=
  [0x34, 0x0A, 0x39, 0x37, 0x20, 0x30, 0x0A, 0x39, 0x38, 0x20, 0x31, 0x30, 0x0A, 0x39, 0x39, 0x20, 0x31, 0x31, 0x31,
    0x0A, 0x31, 0x30, 0x30, 0x20, 0x31, 0x31, 0x30, 0x0A, 0x35, 0x0A, 0x0A, 0xBF, 0xC0]

/-- The container of b"ab" (95_test_vectors.md 2.4). -/
def abContainer : List Byte := [0x32, 0x0A, 0x39, 0x37, 0x20, 0x30, 0x0A, 0x39, 0x38, 0x20, 0x31, 0x0A, 0x36, 0x0A, 0x40]

/-- b"1\n97 0\n0\n" 80 (95_test_vectors.md 3.3): its one bit string starts with a dead candidate. -/
def deadContainer : List Byte := [0x31, 0x0A, 0x39, 0x37, 0x20, 0x30, 0x0A, 0x30, 0x0A, 0x80]

/-- A part in which the encoder's first three stages have run. -/
def encodedBusy (op : Instr) (input : List Byte) : State := (busyOn op input).encoded

/-- A part in which PARSE has run. -/
def parsedBusy (op : Instr) (bytes : List Byte) : State :=
  let l := parsed bytes
  { busyOn op bytes with
    code := l.table
    ncode := BitVec.ofNat 9 l.entries
    maxlen := BitVec.ofNat 8 (tableMaxLen l.table)
    pad := BitVec.ofNat 3 l.pad
    hdrLen := BitVec.ofNat 32 (bytes.length - l.raw.length)
    totalBits := BitVec.ofNat 32 (8 * l.raw.length - l.pad)
    csrc := true
    codeV := true }

/-! ### Well-formedness refuses ill-formed terms (00_scope.md R7, 20_memory.md R60) -/

theorem test_params_ibuf_zero : Params.wf ⟨0, 1⟩ = false := by decide
theorem test_params_ibuf_large : Params.wf ⟨2 ^ 24 + 1, 1⟩ = false := by decide
theorem test_params_obuf_zero : Params.wf ⟨1, 0⟩ = false := by decide
theorem test_params_obuf_large : Params.wf ⟨1, 2 ^ 28 + 1⟩ = false := by decide
theorem test_params_bounds_legal : Params.wf ⟨1, 1⟩ = true ∧ Params.wf ⟨2 ^ 24, 2 ^ 28⟩ = true := by decide
theorem test_txn_byte_too_wide : Txn.wf (.write 0x01000000 .byte 0x100) = false := by decide
theorem test_event_half_too_wide : Event.wf (.host (.write 0x01000000 .half 0x10000)) = false := by decide
theorem test_instr_wf : [Instr.nop, .count, .build, .gencode, .pack, .compress, .parse, .decode, .decompress, .clear].all
    Instr.wf = true := by decide

/-! ### Decoding: the words of 30_encoding.md R92, written out bit by bit -/

theorem test_decode_nop : decode 0b00000000000000000000000000000000#32 = .ok .nop := by decide
theorem test_decode_count : decode 0b00000000000000000000000000000001#32 = .ok .count := by decide
theorem test_decode_build : decode 0b00000000000000000000000000000010#32 = .ok .build := by decide
theorem test_decode_gencode : decode 0b00000000000000000000000000000011#32 = .ok .gencode := by decide
theorem test_decode_pack : decode 0b00000000000000000000000000000100#32 = .ok .pack := by decide
theorem test_decode_compress : decode 0b00000000000000000000000000000101#32 = .ok .compress := by decide
theorem test_decode_parse : decode 0b00000000000000000000000000001000#32 = .ok .parse := by decide
theorem test_decode_decode : decode 0b00000000000000000000000000001001#32 = .ok .decode := by decide
theorem test_decode_decompress : decode 0b00000000000000000000000000001010#32 = .ok .decompress := by decide
theorem test_decode_clear : decode 0b00000000000000000000000000001111#32 = .ok .clear := by decide

/-- R93: the reserved opcodes. -/
theorem test_decode_reserved : [6, 7, 11, 12, 13, 14].all (fun n => (decode (BitVec.ofNat 32 n)).toOption.isNone) = true := by
  decide

/-- R94, 95_test_vectors.md section 4: the words 0x11 and 0x10, and the highest reserved bit. -/
theorem test_decode_reserved_bits : decode 0x11 = .error .reservedBits ∧ decode 0x10 = .error .reservedBits ∧
    decode 0x80000000 = .error .reservedBits := by decide

/-- The row of COUNT handed over as the first instruction after reset is launched. -/
theorem test_fetch_count : decodeTableWord 32 1 = some .count ∧
    after (step (State.reset.withFetchWord 32 1)) State.phase = some (.busy .count) := by decide

/-! ### One step of each command -/

/-- R190 example, 95_test_vectors.md section 4: from STATUS 0x506, NOP is launched and then completes to 0x2. -/
theorem test_nop_launch : after (step { base .idle [cmdWrite 0] with
    done := true, err := true, errcode := 5, errinfo := 0 }) State.statusWord = some 0x1 := by decide
theorem test_nop_completes : after (exec .nop (base (.busy .nop) [])) State.statusWord = some 0x2 := by decide

/-- R191 example: VALID = 0, ROOT = 0x1FF, OUT_LEN = 0, and OBUF keeps its bytes. -/
theorem test_clear : after (exec .clear { encodedBusy .clear [97, 98] with outLen := 15, obuf := ⟨[(0, 0x34)], 0⟩ })
    (fun s => (s.validWord, s.root, s.outLen, atSymbol s.freq 97, s.obufByte 0)) = some (0, 0x1FF, 0, 0, 0x34) := by decide

/-- R121 example. -/
theorem test_count : after (exec .count (busyOn .count sample)) (fun s =>
    (s.nsym, [97, 98, 99, 100, 101].map (atSymbol s.freq), s.validWord)) = some (4, [4, 3, 2, 1, 0], 1) := by decide
theorem test_count_empty : after (exec .count (busyOn .count [])) (fun s => (s.nsym, s.validWord, s.statusWord)) =
    some (0, 1, 2) := by decide

/-- 95_test_vectors.md 2.2: the node words of "aabbcccc", where a leaf beats an internal node of equal weight. -/
theorem test_build : after (exec .build { busyOn .build [] with
      freq := countTable [97, 97, 98, 98, 99, 99, 99, 99], nsym := 3, freqV := true })
    (fun s => (s.nnodes, s.root, (List.range 12).drop 6 |>.map (nodeWindowWord s.node))) =
    some (5, 4, [4, 0x200, 8, 0x602, 0, 0]) := by decide

/-- 95_test_vectors.md 2.2: BUILD of an empty table is an EmptyInputError, VALID = 0x1. -/
theorem test_build_empty : after (exec .build { busyOn .build [] with freqV := true, nsym := 0 })
    (fun s => (s.statusWord, s.validWord)) = some (0x106, 1) := by decide

/-- 95_test_vectors.md 2.3: the CODE words of "aaaabbbccd", c = "111" before d = "110". -/
theorem test_gencode : after (exec .gencode { encodedBusy .gencode sample with code := emptyTable, codeV := false })
    (fun s => (s.ncode, s.maxlen, [97, 98, 99, 100].map fun b => codeWindowWord s.code (16 * b + 1))) =
    some (4, 3, [0, 0x80000000, 0xE0000000, 0xC0000000]) := by decide

/-- R134: the lone symbol's code is "0". -/
theorem test_gencode_single : after (exec .gencode { encodedBusy .gencode [97, 97, 97] with code := emptyTable })
    (fun s => (s.ncode, s.maxlen, atSymbol s.code 97)) = some (1, 1, [false]) := by decide

/-- 95_test_vectors.md 2.4: "ba" packs to 0x80 behind a header of 14 bytes. -/
theorem test_pack : after (exec .pack (encodedBusy .pack [98, 97]))
    (fun s => (s.totalBits, s.pad, s.hdrLen, s.outLen, s.obufByte 14)) = some (2, 6, 14, 15, 0x80) := by decide

/-- 95_test_vectors.md 2.4: the 33-byte container does not fit 32 bytes. -/
theorem test_pack_overflow : after (exec .pack { encodedBusy .pack sample with params := ⟨64, 32⟩ })
    (fun s => (s.statusWord, s.validWord)) = some (0x00020706, 7) := by decide

/-- R150 example. -/
theorem test_compress : after (exec .compress (busyOn .compress sample))
    (fun s => (s.output, s.validWord)) = some (sampleContainer, 7) := by decide
theorem test_compress_empty : after (exec .compress (busyOn .compress [])) (fun s => (s.statusWord, s.validWord)) =
    some (0x106, 1) := by decide

/-- R160 example. -/
theorem test_parse : after (exec .parse (busyOn .parse sampleContainer))
    (fun s => ((s.ncode, s.maxlen, s.pad), (s.hdrLen, s.totalBits), (atSymbol s.code 99, s.validWord))) =
    some ((4, 3, 5), (30, 19), ([true, true, true], 0xC)) := by decide

/-- 95_test_vectors.md 3.2: a leading zero is BAD_NUMBER. -/
theorem test_parse_bad_number : after (exec .parse (busyOn .parse [0x30, 0x31, 0x0A])) State.statusWord =
    some 0x00020206 := by decide

/-- R170 example. -/
theorem test_decode_stream : after (exec .decode (parsedBusy .decode sampleContainer)) State.output = some sample := by
  decide

/-- 95_test_vectors.md 1.2 S5: the container cut to 32 bytes leaves a candidate over. -/
theorem test_decode_leftover : after (exec .decode (parsedBusy .decode (sampleContainer.take 32))) State.statusWord =
    some 0x00020306 := by decide

/-- R180 example. -/
theorem test_decompress : after (exec .decompress (busyOn .decompress sampleContainer))
    (fun s => (s.output, s.validWord)) = some (sample, 0xC) := by decide

/-- 95_test_vectors.md 3.3: a dead candidate at the first bit; the parsed table stays valid. -/
theorem test_decompress_dead : after (exec .decompress (busyOn .decompress deadContainer))
    (fun s => (s.statusWord, s.validWord)) = some (0x00010306, 0xC) := by decide

/-! ### The host interface -/

/-- 95_test_vectors.md 5.1 row 8: GENCODE with TREE_V = 0. -/
theorem test_launch_sequence_error : after (step (base .idle [cmdOp .gencode])) (fun s => (s.statusWord, s.phase)) =
    some (0x606, .idle) := by decide

/-- 95_test_vectors.md 5.1 row 10. -/
theorem test_launch_illegal : after (step (base .idle [cmdWrite 0x11])) (fun s => (s.statusWord, s.cmd)) =
    some (0x506, 0x11) := by decide

/-- 95_test_vectors.md 2.1: IN_LEN = IBUF_BYTES + 1. -/
theorem test_launch_capacity : after (step { base .idle [cmdOp .count] with inLen := 65 }) State.statusWord =
    some 0x00010706 := by decide

/-- 95_test_vectors.md section 4: a CMD write while busy sets WIGN only. -/
theorem test_busy_write : after (step (base (.busy .count) [cmdWrite 0x11])) (fun s => (s.statusWord, s.cmd)) =
    some (0x9, 0) := by decide

/-- 95_test_vectors.md section 4: STATUS = 0xE, write 0x4. -/
theorem test_status_w1c : after (step { base .idle [wr32 0x014 4] with done := true, err := true, wign := true })
    State.statusWord = some 0xA := by decide

/-- 95_test_vectors.md section 4: a 16-bit read of STATUS and a misaligned read of OBUF answer ERR with data 0. -/
theorem test_err_half : after (step (base .idle [rd16 0x014])) State.resp = some (some ⟨false, some 0⟩) := by decide
theorem test_err_misaligned : after (step (base .idle [rd32 0x10000009])) State.resp = some (some ⟨false, some 0⟩) := by
  decide

/-- 95_test_vectors.md section 4: WR32 0x01000000, 0x64636261 stores b"abcd". -/
theorem test_ibuf_write : after (step (base .idle [wr32 0x01000000 0x64636261])) (fun s => s.ibufBytes 0 4) =
    some [97, 98, 99, 100] := by decide

/-- 95_test_vectors.md 5.1 row 50: RD32 0x1000001C. -/
theorem test_obuf_read : after (step { base .idle [rd32 0x1000001C] with
    obuf := (⟨[], 0⟩ : Memory).putBytes 0 sampleContainer }) State.resp = some (some ⟨true, some 0xBF0A0A35⟩) := by decide

/-- 95_test_vectors.md section 4: IRQ_EN = 0x4 after a launch error. -/
theorem test_irq : after (step { base .idle [wr32 0x018 4] with done := true, err := true, errcode := 5 }) State.irq =
    some true := by decide

/-- R231: a reset while busy. -/
theorem test_hard_reset : after (step { base (.busy .compress) [.hardReset] with cmd := 5 })
    (fun s => (s.phase, s.statusWord, s.cmd)) = some (.idle, 0, 0) := by decide

/-- R97: LOAD of two bytes is two byte writes and the write of IN_LEN. -/
theorem test_load : loadOp [97, 98] = [wr8 0x01000000 97, wr8 0x01000001 98, wr32 0x020 2] := by decide

/-! ### Witnesses: states and operands that meet the hypotheses of each statement -/

theorem witness_StepRunsTheDecodedCommand_launch :
    (base .idle [cmdWrite 1]).phase = .idle ∧ (base .idle [cmdWrite 1]).events = cmdWrite 1 :: [] ∧ decode 1 = .ok .count := by
  decide
theorem witness_StepRunsTheDecodedCommand_turn :
    (base (.busy .count) [.engine]).phase = .busy .count ∧ (base (.busy .count) [.engine]).events = .engine :: [] := by decide
theorem witness_StepRunsTheDecodedCommand_noEvent :
    (base (.busy .count) []).phase = .busy .count ∧ (base (.busy .count) []).events = [] := by decide
/-- R26: STATUS.BUSY reads 1 while the engine is busy. -/
theorem test_busy_status : after (step (base (.busy .pack) [rd32 0x014])) (fun s => s.resp) =
    some (some ⟨true, some 0x1⟩) := by decide
theorem witness_StepRunsTheDecodedCommand_idle :
    (base .idle [.engine]).phase = .idle ∧ (base .idle [.engine]).events = .engine :: [] ∧
      (base .idle []).phase = .idle ∧ (base .idle []).events = [] := by decide

theorem witness_CmdWriteLaunchesOrRejects_busy :
    (base (.busy .nop) [cmdWrite 0x11]).events = cmdWrite 0x11 :: [] ∧ (base (.busy .nop) [cmdWrite 0x11]).phase = .busy .nop := by
  decide
theorem witness_CmdWriteLaunchesOrRejects_illegal :
    [0x10, 0x80000000, 0x6, 0x7, 0xB, 0xC, 0xD, 0xE].all (fun w : Word =>
      decide ((base .idle [cmdWrite w]).events = cmdWrite w :: [] ∧ (base .idle [cmdWrite w]).phase = .idle ∧
        (w.extractLsb' 4 28 ≠ 0 ∨ w ∈ [0x6#32, 0x7#32, 0xB#32, 0xC#32, 0xD#32, 0xE#32]))) = true := by decide
theorem witness_CmdWriteLaunchesOrRejects_legal :
    [0x0, 0x1, 0x2, 0x3, 0x4, 0x5, 0x8, 0x9, 0xA, 0xF].all (fun w : Word =>
      decide ((base .idle [cmdWrite w]).events = cmdWrite w :: [] ∧ (base .idle [cmdWrite w]).phase = .idle ∧
        ¬ (w.extractLsb' 4 28 ≠ 0 ∨ w ∈ [0x6#32, 0x7#32, 0xB#32, 0xC#32, 0xD#32, 0xE#32]))) = true := by decide
/-- The IN_LEN check at its boundary: 64 bytes fit a buffer of 64, 65 do not (R202). -/
theorem witness_CmdWriteLaunchesOrRejects_boundary :
    (after (step { base .idle [cmdOp .parse] with inLen := 64 }) State.phase = some (.busy .parse)) ∧
    (after (step { base .idle [cmdOp .parse] with inLen := 65 }) State.phase = some .idle) := by decide

theorem witness_CommandRunsInTwoSteps :
    (base .idle [cmdOp .count, .engine]).phase = .idle ∧
      (base .idle [cmdOp .count, .engine]).events = cmdOp .count :: .engine :: [] ∧
      launchCheck .count (base .idle [cmdOp .count, .engine]) = none := by decide

theorem witness_EngineTurnCompletesTheCommand :
    ((base (.busy .parse) []).phase = .busy .parse ∧ (base (.busy .parse) []).events.head? = none) ∧
      ((base (.busy .parse) [.engine]).phase = .busy .parse ∧ (base (.busy .parse) [.engine]).events.head? = some .engine) := by
  decide

theorem witness_NopOnlyCompletes : (base (.busy .nop) []).phase = .busy .nop := by decide
theorem witness_ClearEmptiesTheStageResults : (base (.busy .clear) []).phase = .busy .clear := by decide
theorem witness_CountTakesTheFrequencies : (busyOn .count sample).phase = .busy .count := by decide
theorem witness_BuildRefusesAnEmptyTable : (base (.busy .build) []).phase = .busy .build ∧ (base (.busy .build) []).nsym = 0 := by
  decide
theorem witness_BuildStoresTheTree :
    (encodedBusy .build [97, 98]).phase = .busy .build ∧ (encodedBusy .build [97, 98]).nsym ≠ 0 := by decide
/-- The leaves' clause at its first and last index. -/
theorem witness_BuildPutsTheLeavesFirst :
    (buildNodes (countTable [98, 97]))[0]? = some ⟨true, 1, 97, 0x1FF, 0x1FF⟩ ∧
      (buildNodes (countTable [98, 97]))[1]? = some ⟨true, 1, 98, 0x1FF, 0x1FF⟩ := by decide
theorem witness_ExtractionTakesTheLeastKey :
    extractLeast [⟨2, 0⟩, ⟨1, 1⟩, ⟨1, 2⟩] = some (⟨1, 1⟩, [⟨2, 0⟩, ⟨1, 2⟩]) ∧ extractLeast [] = none := by decide
theorem witness_BuiltTreeIsAStrictTree_one : (countTable [97, 97]).toList.countP (fun f => f ≠ 0) = 1 := by decide
theorem witness_BuiltTreeIsAStrictTree_two :
    (countTable [97, 98]).toList.countP (fun f => f ≠ 0) = 2 ∧
      (buildNodes (countTable [97, 98]))[2]? = some ⟨false, 2, 0, 0, 1⟩ := by decide
/-- R129: the lighter 'b' is LEFT though its index is the greater. -/
theorem test_merge_order : (buildNodes (countTable [97, 97, 98]))[2]? = some ⟨false, 3, 0, 1, 0⟩ := by decide
theorem witness_GencodeStoresTheCodeTable : (encodedBusy .gencode [97]).phase = .busy .gencode := by decide

/-- The arena of the tree of "ab": leaf 0 is reached by "0", leaf 1 by "1"; symbol 99 has no leaf. -/
theorem witness_CodesAreTheTreePaths_leaf :
    ∃ (p : Bits) (i : BitVec 9) (nd : Node),
      TreePath (arenaOf (buildNodes (countTable [97, 98]))) 2 p i ∧
      (arenaOf (buildNodes (countTable [97, 98])))[i.toNat]? = some nd ∧ nd.leaf = true ∧ p.length ≤ 255 ∧
      (∀ (q : Bits) (j : BitVec 9) (nd' : Node), TreePath (arenaOf (buildNodes (countTable [97, 98]))) 2 q j →
        (arenaOf (buildNodes (countTable [97, 98])))[j.toNat]? = some nd' → nd'.leaf = true → nd'.symbol = nd.symbol →
        q = p) := by
  have e0 : (arenaOf (buildNodes (countTable [97, 98])))[0]? = some ⟨true, 1, 97, 0x1FF, 0x1FF⟩ := by decide
  have e1 : (arenaOf (buildNodes (countTable [97, 98])))[1]? = some ⟨true, 1, 98, 0x1FF, 0x1FF⟩ := by decide
  have e2 : (arenaOf (buildNodes (countTable [97, 98])))[2]? = some ⟨false, 2, 0, 0, 1⟩ := by decide
  have hp : TreePath (arenaOf (buildNodes (countTable [97, 98]))) 2 [false] 0 :=
    TreePath.left (nodes := arenaOf (buildNodes (countTable [97, 98]))) (p := []) (i := 2)
      (nd := ⟨false, 2, 0, 0, 1⟩) .here e2 rfl
  refine ⟨[false], 0, ⟨true, 1, 97, 0x1FF, 0x1FF⟩, hp, e0, rfl, by decide, ?_⟩
  intro q j nd' hq hj hl hs
  rw [treePath_iff_walk] at hq
  rcases q with _ | ⟨x, q⟩
  · simp only [walk, Option.some.injEq] at hq
    subst hq
    rw [show (2 : BitVec 9).toNat = 2 from rfl, e2] at hj
    obtain rfl := Option.some.inj hj
    simp at hl
  · simp only [walk, show (2 : BitVec 9).toNat = 2 from rfl, e2] at hq
    cases x
    · have := walk_leaf (i := 0) e0 rfl (by simpa using hq)
      rw [this]
    · have hw : walk (arenaOf (buildNodes (countTable [97, 98]))) 1 q = some j := by simpa [Config.NIL] using hq
      have := walk_leaf (i := 1) e1 rfl hw
      subst this
      simp only [walk, Option.some.injEq] at hw
      subst hw
      rw [show (1 : BitVec 9).toNat = 1 from rfl, e1] at hj
      obtain rfl := Option.some.inj hj
      simp at hs

theorem witness_CodesAreTheTreePaths_absent :
    ∀ (p : Bits) (i : BitVec 9) (nd : Node), TreePath (Vector.replicate 511 Node.zero) 0 p i →
      (Vector.replicate 511 Node.zero)[i.toNat]? = some nd → nd.leaf = true → nd.symbol ≠ 99 := by
  intro p i nd _ hi hl
  have h : nd = Node.zero := by
    have := Vector.mem_of_getElem? hi
    simpa using this
  rw [h] at hl
  simp [Node.zero] at hl

theorem witness_LoneSymbolGetsCodeZero :
    (encodedBusy .gencode [97, 97]).phase = .busy .gencode ∧
      (∀ c, atSymbol (encodedBusy .gencode [97, 97]).freq c ≠ 0 ↔ c = 97) ∧
      (encodedBusy .gencode [97, 97]).node = arenaOf (buildNodes (encodedBusy .gencode [97, 97]).freq) ∧
      (encodedBusy .gencode [97, 97]).root =
        BitVec.ofNat 9 ((buildNodes (encodedBusy .gencode [97, 97]).freq).length - 1) := by
  refine ⟨rfl, fun c => ?_, rfl, rfl⟩
  have := countTable_ne_zero (bytes := [97, 97]) (by decide) c
  rw [show (encodedBusy .gencode [97, 97]).freq = countTable [97, 97] from rfl, this]
  simp

theorem witness_PackWritesTheContainer :
    (encodedBusy .pack [97, 98]).phase = .busy .pack ∧
      (encodedBusy .pack [97, 98]).container.length ≤ (encodedBusy .pack [97, 98]).params.obufBytes := by decide
theorem witness_PackRefusesAContainerTooLong :
    (State.phase { encodedBusy .pack [97, 98] with params := ⟨64, 14⟩ } = .busy .pack) ∧
      (14 < (header 2 (padOf (bitTotal (encodedBusy .pack [97, 98]).freq (encodedBusy .pack [97, 98]).code))
        (encodedBusy .pack [97, 98]).code).length +
        (bitTotal (encodedBusy .pack [97, 98]).freq (encodedBusy .pack [97, 98]).code +
          padOf (bitTotal (encodedBusy .pack [97, 98]).freq (encodedBusy .pack [97, 98]).code)) / 8) := by decide
theorem witness_BitTotalIsTheStreamLength :
    ∀ b : Byte, (atSymbol (encodedBusy .pack [97, 98]).freq b).toNat = (encodedBusy .pack [97, 98]).input.count b :=
  countTable_toNat (by decide)
theorem witness_PackedBytesAreMostSignificantBitFirst :
    (packBytes 1 [false, true, false, false, false, false, false, true])[0]? = some 0x41 := by decide

theorem witness_CompressIsTheFourStagesInOrder :
    ∃ t1 t2 t3 : State, (busyOn .compress [97, 98]).phase = .busy .compress ∧ (busyOn .compress [97, 98]).err = false ∧
      (busyOn .compress [97, 98]).errcode = 0 ∧ (busyOn .compress [97, 98]).errinfo = 0 ∧
      exec .count (busyOn .compress [97, 98]) = .next t1 ∧ exec .build (t1.launch .build) = .next t2 ∧ t2.err = false ∧
      exec .gencode (t2.launch .gencode) = .next t3 :=
  ⟨_, _, _, rfl, rfl, rfl, rfl, rfl, rfl, by decide, rfl⟩
theorem witness_CompressRefusesAnEmptyInput :
    (busyOn .compress []).phase = .busy .compress ∧ (busyOn .compress []).inLen = 0 := by decide
theorem witness_CompressLeavesEveryStageResult :
    (busyOn .compress [97, 98]).phase = .busy .compress ∧ (busyOn .compress [97, 98]).inLen ≠ 0 ∧
      (encodedBusy .compress [97, 98]).container.length ≤ (busyOn .compress [97, 98]).params.obufBytes := by decide

theorem witness_ParseStoresTheTable :
    (busyOn .parse abContainer).phase = .busy .parse ∧
      parseContainer (busyOn .parse abContainer).input = .ok (parsed abContainer) := ⟨rfl, by decide⟩
theorem witness_ParseReportsTheFormatError :
    (busyOn .parse []).phase = .busy .parse ∧ parseContainer (busyOn .parse []).input = .error .truncated := by decide
/-- Both directions of the grammar at boundaries: the shortest container, and padding with no data (95_test_vectors.md 3.1, 3.2). -/
theorem witness_ParserAcceptsExactlyTheGrammar :
    (parseContainer [0x31, 0x0A, 0x39, 0x37, 0x20, 0x30, 0x0A, 0x30, 0x0A]).toOption.isSome = true ∧
      parseContainer [0x31, 0x0A, 0x39, 0x37, 0x20, 0x30, 0x0A, 0x33, 0x0A] = .error .padNoData := by decide
/-- 95_test_vectors.md 3.2: one rejected container for each cause. -/
theorem test_parse_causes :
    [[0x34], [0x30, 0x31, 0x0A], [0x31, 0x20, 0x0A], [0x30, 0x0A, 0x30, 0x0A],
      [0x31, 0x0A, 0x32, 0x35, 0x36, 0x20, 0x30, 0x0A], [0x31, 0x0A, 0x39, 0x37, 0x20, 0x0A, 0x30, 0x0A],
      [0x31, 0x0A, 0x39, 0x37, 0x20] ++ List.replicate 256 0x30 ++ [0x0A, 0x30, 0x0A, 0x00],
      [0x31, 0x0A, 0x39, 0x37, 0x20, 0x30, 0x0A, 0x39, 0x37, 0x20, 0x30, 0x0A],
      [0x32, 0x0A, 0x39, 0x37, 0x20, 0x30, 0x0A, 0x39, 0x38, 0x20, 0x30, 0x31, 0x0A],
      [0x32, 0x0A, 0x39, 0x37, 0x20, 0x30, 0x0A, 0x30, 0x0A, 0x00],
      [0x31, 0x0A, 0x39, 0x37, 0x20, 0x30, 0x0A, 0x38, 0x0A, 0x00],
      [0x31, 0x0A, 0x39, 0x37, 0x20, 0x30, 0x0A, 0x33, 0x0A]].map parseContainer =
    [.error .truncated, .error .badNumber, .error .badSeparator, .error .badCount, .error .badSymbol, .error .badCode,
      .error .codeTooLong, .error .dupSymbol, .error .prefixConflict, .error .countMismatch, .error .badPad,
      .error .padNoData] := by decide
/-- "2\n97 0\n98 01\n": a violation after an entry line without one. -/
theorem witness_ParserReportsTheFirstViolation :
    Violation [0x32, 0x0A, 0x39, 0x37, 0x20, 0x30, 0x0A, 0x39, 0x38, 0x20, 0x30, 0x31, 0x0A] .prefixConflict :=
  .line (count := 2) (es := [(97, [false])]) (bytes := entryText (98, [false, true]) ++ []) (by decide) (by decide)
    ⟨by decide, by decide, by simp⟩ (.prefixConflict (by decide) (by decide) (by decide) ⟨(97, [false]), by simp, by decide⟩)
theorem witness_ParseNumAcceptsExactlyCanonicalNumbers :
    parseNum [0x39, 0x39, 0x39, 0x0A] = .ok (999, [0x0A]) ∧ parseNum [0x30, 0x20] = .ok (0, [0x20]) := by decide

/-- The code table 97 = "0", 98 = "10". -/
def twoCodes : Vector Bits 256 := setSymbol (setSymbol emptyTable 97 [false]) 98 [true, false]

theorem twoCodes_prefixFree : PrefixFree twoCodes :=
  ((TableOf.empty.store (v := 97) (c := [false]) (by decide) (by decide) (by decide) (by decide)).store
    (v := 98) (c := [true, false]) (by decide) (by decide) (by decide) (by decide)).prefixFree

/-- A part about to decode `n` bits of one byte under `twoCodes`, with room for `cap` bytes. -/
def decoding (byte : Byte) (n cap : Nat) : State :=
  { busyOn .decode [byte] with
    params := ⟨64, cap⟩, code := twoCodes, codeV := true, csrc := true, hdrLen := 0, totalBits := BitVec.ofNat 32 n }

/-- "ba" is the stream "100", OBUF just full. -/
theorem witness_DecodeEmitsTheSymbols :
    (decoding 0x80 3 2).phase = .busy .decode ∧ PrefixFree (decoding 0x80 3 2).code ∧
      (∀ b ∈ [98, 97], atSymbol (decoding 0x80 3 2).code b ≠ []) ∧ [98, 97].length ≤ (decoding 0x80 3 2).params.obufBytes ∧
      (decoding 0x80 3 2).streamBits (decoding 0x80 3 2).hdrLen.toNat (decoding 0x80 3 2).totalBits.toNat =
        [98, 97].flatMap (atSymbol (decoding 0x80 3 2).code) :=
  ⟨rfl, twoCodes_prefixFree, by decide, by decide, by decide⟩

/-- "a" and the first bit of b's code. -/
theorem witness_DecodeReportsTheFirstError_leftover :
    (decoding 0x40 2 1).phase = .busy .decode ∧ PrefixFree (decoding 0x40 2 1).code ∧
      (∀ b ∈ [97], atSymbol (decoding 0x40 2 1).code b ≠ []) ∧ [97].length ≤ (decoding 0x40 2 1).params.obufBytes ∧
      (decoding 0x40 2 1).streamBits (decoding 0x40 2 1).hdrLen.toNat (decoding 0x40 2 1).totalBits.toNat =
        [97].flatMap (atSymbol (decoding 0x40 2 1).code) ++ [true] ∧
      [true] ≠ [] ∧ atSymbol (decoding 0x40 2 1).code 98 = [true] ++ false :: [] :=
  ⟨rfl, twoCodes_prefixFree, by decide, by decide, by decide, by decide, by decide⟩
/-- "a" and "11", which begins no code. -/
theorem witness_DecodeReportsTheFirstError_dead :
    (decoding 0x60 3 1).phase = .busy .decode ∧ PrefixFree (decoding 0x60 3 1).code ∧
      (decoding 0x60 3 1).streamBits (decoding 0x60 3 1).hdrLen.toNat (decoding 0x60 3 1).totalBits.toNat =
        [97].flatMap (atSymbol (decoding 0x60 3 1).code) ++ [true, true] ∧
      atSymbol (decoding 0x60 3 1).code 98 = [true] ++ false :: [] ∧
      (∀ b : Byte, ¬ ([true] ++ [true]) <+: atSymbol (decoding 0x60 3 1).code b) :=
  ⟨rfl, twoCodes_prefixFree, by decide, by decide, (isLive_false (by decide)).1 (by decide)⟩
/-- A second "a" with room for one byte. -/
theorem witness_DecodeReportsTheFirstError_full :
    (decoding 0x00 2 1).phase = .busy .decode ∧ PrefixFree (decoding 0x00 2 1).code ∧
      (decoding 0x00 2 1).streamBits (decoding 0x00 2 1).hdrLen.toNat (decoding 0x00 2 1).totalBits.toNat =
        [97].flatMap (atSymbol (decoding 0x00 2 1).code) ++ [false] ∧
      [97].length = (decoding 0x00 2 1).params.obufBytes ∧ atSymbol (decoding 0x00 2 1).code 97 ≠ [] ∧
      atSymbol (decoding 0x00 2 1).code 97 <+: [false] :=
  ⟨rfl, twoCodes_prefixFree, by decide, by decide, by decide, by decide⟩
theorem witness_StreamBitsAreMostSignificantBitFirst :
    (decoding 0x80 3 2).streamBits 0 3 = [true, false, false] := by decide

theorem witness_DecompressIsParseThenDecode :
    ∃ t1 : State, (busyOn .decompress abContainer).phase = .busy .decompress ∧
      (busyOn .decompress abContainer).err = false ∧ (busyOn .decompress abContainer).errcode = 0 ∧
      (busyOn .decompress abContainer).errinfo = 0 ∧ exec .parse (busyOn .decompress abContainer) = .next t1 ∧
      t1.err = false := ⟨_, rfl, rfl, rfl, rfl, rfl, by decide⟩
theorem witness_DecompressIsParseThenDecode_error :
    ∃ t1 : State, exec .parse (busyOn .decompress []) = .next t1 ∧ t1.err = true := ⟨_, rfl, by decide⟩
theorem witness_DecompressLeavesTableAndOutput :
    (busyOn .decompress abContainer).phase = .busy .decompress ∧ (busyOn .decompress abContainer).params.wf = true ∧
      (busyOn .decompress abContainer).inLen.toNat ≤ (busyOn .decompress abContainer).params.ibufBytes ∧
      parseContainer (busyOn .decompress abContainer).input = .ok (parsed abContainer) ∧
      decodeLoop (parsed abContainer).table (busyOn .decompress abContainer).params.obufBytes 0 []
        (((parsed abContainer).raw.flatMap byteBits).take (8 * (parsed abContainer).raw.length - (parsed abContainer).pad)) =
          .ok [97, 98] := ⟨rfl, by decide, by decide, by decide, by decide⟩
theorem witness_DecompressKeepsTheTableAfterADecodeError :
    (busyOn .decompress deadContainer).phase = .busy .decompress ∧ (busyOn .decompress deadContainer).params.wf = true ∧
      (busyOn .decompress deadContainer).inLen.toNat ≤ (busyOn .decompress deadContainer).params.ibufBytes ∧
      parseContainer (busyOn .decompress deadContainer).input = .ok (parsed deadContainer) ∧
      decodeLoop (parsed deadContainer).table (busyOn .decompress deadContainer).params.obufBytes 0 []
        (((parsed deadContainer).raw.flatMap byteBits).take
          (8 * (parsed deadContainer).raw.length - (parsed deadContainer).pad)) = .error .dead :=
  ⟨rfl, by decide, by decide, by decide, by decide⟩

/-! ### Witnesses of the invariant -/

/-- A command that reads IBUF, launched on an input that fits, meets the invariant. -/
theorem busyOn_inv {op : Instr} {input : List Byte} (hl : launchCheck op (busyOn op input) = none)
    (hw : (busyOn op input).ibuf.wf) (hi : ∀ c ∈ (busyOn op input).ibuf.cells, c.1 < 64) : (busyOn op input).Inv where
  params_wf := show Params.wf ⟨64, 64⟩ = true by decide
  ibuf_wf := hw
  obuf_wf := by simp [busyOn, base, State.resetWith, Memory.wf]
  ibuf_within := hi
  obuf_within := by simp [busyOn, base, State.resetWith]
  busy_launched := by
    intro j hj
    obtain rfl : op = j := by simpa [busyOn, base] using hj
    exact ⟨rfl, hl, rfl, rfl⟩
  no_error := fun _ => ⟨rfl, rfl⟩
  an_error := by simp [busyOn, base, State.resetWith]
  freq_valid := by simp [busyOn, base, State.resetWith]
  tree_valid := by simp [busyOn, base, State.resetWith]
  code_generated := by simp [busyOn, base, State.resetWith]
  code_parsed := by simp [busyOn, base, State.resetWith]
  code_counts := by simp [busyOn, base, State.resetWith]

/-- After the encoder's first three stages. -/
theorem encoded_inv : State.Inv { encodedBusy .nop [97, 98] with phase := .idle } where
  params_wf := by decide
  ibuf_wf := by decide
  obuf_wf := by decide
  ibuf_within := by decide
  obuf_within := by decide
  busy_launched := by simp
  no_error := fun _ => ⟨rfl, rfl⟩
  an_error := by simp [encodedBusy, State.encoded, busyOn, base, State.resetWith]
  freq_valid := fun _ => ⟨by decide, rfl, rfl⟩
  tree_valid := fun _ => ⟨rfl, by decide, rfl, rfl, rfl⟩
  code_generated := fun _ _ => ⟨rfl, rfl⟩
  code_parsed := by simp [encodedBusy, State.encoded]
  code_counts := fun _ => ⟨rfl, rfl⟩

/-- After PARSE. -/
theorem parsed_inv : State.Inv { parsedBusy .nop abContainer with phase := .idle } where
  params_wf := by decide
  ibuf_wf := by decide
  obuf_wf := by decide
  ibuf_within := by decide
  obuf_within := by decide
  busy_launched := by simp
  no_error := fun _ => ⟨rfl, rfl⟩
  an_error := by simp [parsedBusy, busyOn, base, State.resetWith]
  freq_valid := by simp [parsedBusy, busyOn, base, State.resetWith]
  tree_valid := by simp [parsedBusy, busyOn, base, State.resetWith]
  code_generated := by simp [parsedBusy]
  code_parsed := fun _ _ => ⟨by decide, parsed abContainer, by decide, rfl, rfl, by decide, rfl⟩
  code_counts := fun _ => ⟨by decide, rfl⟩

theorem witness_CompressThenDecompressGivesTheInputBack :
    ∃ t : State, (busyOn .compress [97, 98]).Inv ∧ (busyOn .compress [97, 98]).phase = .busy .compress ∧
      1 ≤ (busyOn .compress [97, 98]).input.length ∧ exec .compress (busyOn .compress [97, 98]) = .next t ∧ t.err = false ∧
      (busyOn .decompress abContainer).Inv ∧ (busyOn .decompress abContainer).phase = .busy .decompress ∧
      (busyOn .decompress abContainer).input = t.output ∧
      (busyOn .compress [97, 98]).input.length ≤ (busyOn .decompress abContainer).params.obufBytes :=
  ⟨_, busyOn_inv (by decide) (by decide) (by decide), rfl, by decide, rfl, by decide,
    busyOn_inv (by decide) (by decide) (by decide), rfl, by decide, by decide⟩

theorem witness_EngineLeavesTheHostStateAlone :
    ∃ t : State, (busyOn .count sample).phase ≠ .idle ∧ exec .count (busyOn .count sample) = .next t ∧
      Instr.count ∉ [Instr.pack, .compress, .decode, .decompress] := ⟨_, by decide, rfl, by decide⟩

theorem witness_ValidBitsFollowTheTable_idle :
    ∃ t : State, (base .idle []).phase = .idle ∧ exec .build (base .idle []) = .next t := ⟨_, rfl, rfl⟩
theorem witness_ValidBitsFollowTheTable_busy (i : Instr) :
    ∃ t : State, (busyOn i [97, 98]).phase ≠ .idle ∧ exec i (busyOn i [97, 98]) = .next t := by
  obtain ⟨t, ht⟩ := exec_answers i (busyOn i [97, 98])
  exact ⟨t, by simp [busyOn, base], ht⟩
theorem witness_ValidBitsFollowTheTable_parse :
    (∃ l, parseContainer (busyOn .parse abContainer).input = .ok l) ∧
      (∃ e, parseContainer (busyOn .parse []).input = .error e) ∧ (busyOn .compress [97]).inLen ≠ 0 ∧
      (busyOn .compress []).inLen = 0 := ⟨⟨_, rfl⟩, ⟨_, rfl⟩, by decide, by decide⟩

theorem witness_StagesMayBeRepeated_build :
    ∃ t : State, (encodedBusy .build [97, 98]).err = false ∧ (encodedBusy .build [97, 98]).errcode = 0 ∧
      (encodedBusy .build [97, 98]).errinfo = 0 ∧ (encodedBusy .build [97, 98]).phase = .busy .build ∧
      exec .build (encodedBusy .build [97, 98]) = .next t ∧ t.err = false := ⟨_, rfl, rfl, rfl, rfl, rfl, by decide⟩
theorem witness_StagesMayBeRepeated_gencode :
    ∃ t : State, (encodedBusy .gencode [97, 98]).phase = .busy .gencode ∧
      exec .gencode (encodedBusy .gencode [97, 98]) = .next t ∧ t.err = false := ⟨_, rfl, rfl, by decide⟩
theorem witness_StagesMayBeRepeated_pack :
    ∃ t : State, (encodedBusy .pack [97, 98]).phase = .busy .pack ∧
      exec .pack (encodedBusy .pack [97, 98]) = .next t ∧ t.err = false := ⟨_, rfl, rfl, by decide⟩
theorem witness_StagesMayBeRepeated_decode :
    ∃ t : State, (parsedBusy .decode abContainer).phase = .busy .decode ∧
      exec .decode (parsedBusy .decode abContainer) = .next t ∧ t.err = false := ⟨_, rfl, rfl, by decide⟩

/-- The first and last legal accesses of each region, in the parts of the least and the greatest sizes (R61, R62, R64). -/
theorem witness_AddressMap :
    Params.wf ⟨1, 1⟩ = true ∧ Params.wf ⟨2 ^ 24, 2 ^ 28⟩ = true ∧
      resolve ⟨1, 1⟩ 0xFC .word = some (.reg 0xFC) ∧ resolve ⟨1, 1⟩ 0x100 .word = none ∧
      resolve ⟨1, 1⟩ 0x3FC .word = none ∧ resolve ⟨1, 1⟩ 0x400 .word = some (.freq 0) ∧
      resolve ⟨1, 1⟩ 0x7FC .word = some (.freq 255) ∧ resolve ⟨1, 1⟩ 0x800 .word = none ∧
      resolve ⟨1, 1⟩ 0x1FFC .word = some (.node 1023) ∧ resolve ⟨1, 1⟩ 0x7FFC .word = some (.code 4095) ∧
      resolve ⟨1, 1⟩ 0x01000000 .byte = some (.ibuf 0) ∧ resolve ⟨1, 1⟩ 0x01000000 .half = none ∧
      resolve ⟨2 ^ 24, 2 ^ 28⟩ 0x01FFFFFC .word = some (.ibuf 0xFFFFFC) ∧
      resolve ⟨2 ^ 24, 2 ^ 28⟩ 0x02000000 .byte = none ∧
      resolve ⟨2 ^ 24, 2 ^ 28⟩ 0x1FFFFFFF .byte = some (.obuf 0xFFFFFFF) ∧
      resolve ⟨2 ^ 24, 2 ^ 28⟩ 0x20000000 .byte = none := by decide

theorem witness_ErrResponseHasNoEffect_read :
    resolve (base .idle [rd32 0x100]).params 0x100 .word = none ∧
      (base .idle [rd32 0x100]).events = .host (.read 0x100 .word) :: [] := by decide
theorem witness_ErrResponseHasNoEffect_write :
    resolve (base .idle [wr32 0x100 5]).params 0x100 .word = none ∧
      (base .idle [wr32 0x100 5]).events = .host (.write 0x100 .word 5) :: [] := by decide
/-- The register reads at the first and last offset. -/
theorem witness_RegistersReadTheirFields :
    [0x000, 0x0FC].all (fun off : Nat =>
      decide ((base .idle [rd32 (BitVec.ofNat 32 off)]).phase = .idle ∧ off ≤ 0xFC ∧ off % 4 = 0 ∧
        (base .idle [rd32 (BitVec.ofNat 32 off)]).events = .host (.read (BitVec.ofNat 32 off) .word) :: [])) = true := by decide
theorem witness_StatusIsWriteOneToClear : (base .idle [wr32 0x014 0xE]).events = wr32 0x014 0xE :: [] := by decide
theorem witness_IrqEnGatesTheInterrupt : (base (.busy .pack) [wr32 0x018 6]).events = wr32 0x018 6 :: [] := by decide
theorem witness_BusyWriteOnlySetsWign :
    (base (.busy .pack) [wr32 0x020 5]).phase = .busy .pack ∧
      (base (.busy .pack) [wr32 0x020 5]).events = .host (.write 0x020 .word 5) :: [] ∧
      resolve (base (.busy .pack) [wr32 0x020 5]).params 0x020 .word = some (.reg 0x020) ∧
      Target.reg 0x020 ≠ .reg 0x014 ∧ Target.reg 0x020 ≠ .reg 0x018 := by decide
/-- A defined register, an IBUF byte and a result register read while busy. -/
theorem witness_BusyReadsOfResultsAreUnspecified :
    resolve (base (.busy .pack) [rd32 0x018]).params 0x018 .word = some (.reg 0x018) ∧
      (base (.busy .pack) [rd32 0x018]).events = .host (.read 0x018 .word) :: [] ∧
      resolve (base (.busy .pack) [rd32 0x014]).params 0x014 .word = some (.reg 0x014) ∧
      resolve (base (.busy .pack) [rd32 0x0FC]).params 0x0FC .word = some (.reg 0x0FC) ∧
      resolve (base (.busy .pack) [rd8 0x0100003F]).params 0x0100003F .byte = some (.ibuf 63) ∧
      resolve (base (.busy .pack) [rd32 0x01C]).params 0x01C .word = some (.reg 0x01C) ∧
      (base (.busy .pack) [rd32 0x018]).phase = .busy .pack := by decide
theorem witness_ReadOnlyStateIgnoresWrites :
    (base .idle [wr32 0x000 5]).phase = .idle ∧ (base .idle [wr32 0x000 5]).events = .host (.write 0x000 .word 5) :: [] ∧
      resolve (base .idle [wr32 0x000 5]).params 0x000 .word = some (.reg 0) ∧ (∀ k, Target.reg 0 ≠ .ibuf k) ∧
      Target.reg 0 ≠ .reg 0x010 ∧ Target.reg 0 ≠ .reg 0x014 ∧ Target.reg 0 ≠ .reg 0x018 ∧ Target.reg 0 ≠ .reg 0x020 :=
  ⟨rfl, rfl, by decide, by simp, by decide, by decide, by decide, by decide⟩
theorem witness_InLenWriteClearsTheValidBits :
    (base .idle [wr32 0x020 0xFFFFFFFF]).phase = .idle ∧
      (base .idle [wr32 0x020 0xFFFFFFFF]).events = wr32 0x020 0xFFFFFFFF :: [] := by decide
theorem witness_IbufWriteStoresLittleEndian :
    (base .idle [wr16 0x0100003E 0x6463]).phase = .idle ∧
      (base .idle [wr16 0x0100003E 0x6463]).events = .host (.write 0x0100003E .half 0x6463) :: [] ∧
      resolve (base .idle [wr16 0x0100003E 0x6463]).params 0x0100003E .half = some (.ibuf 62) := by decide
theorem witness_BufferReadsAreLittleEndian :
    (base .idle [rd32 0x0100003C]).events = .host (.read 0x0100003C .word) :: [] ∧
      resolve (base .idle [rd32 0x0100003C]).params 0x0100003C .word = some (.ibuf 60) ∧
      (base .idle [rd32 0x1000003C]).phase = .idle ∧
      (base .idle [rd32 0x1000003C]).events = .host (.read 0x1000003C .word) :: [] ∧
      resolve (base .idle [rd32 0x1000003C]).params 0x1000003C .word = some (.obuf 60) := by decide
/-- An address of each clause, at the ends of its range. -/
theorem witness_WindowsShowTheArrays :
    (base .idle [rd32 0x7FC]).phase = .idle ∧ (base .idle [rd32 0x7FC]).events = .host (.read 0x7FC .word) :: [] ∧
      (0x7FC : Word).toNat = 0x400 + 4 * (255 : Byte).toNat ∧ (0x1FF0 : Word).toNat = 0x1000 + 8 * 510 ∧
      (encodedBusy .nop [97]).node[510]? = some Node.zero ∧ (0x1FF4 : Word).toNat = 0x1004 + 8 * 510 ∧
      (0x1FFC : Word).toNat = 0x1FFC ∧ (0x7FC0 : Word).toNat = 0x4000 + 64 * (255 : Byte).toNat ∧
      (atSymbol (encodedBusy .nop [97]).code 255).length ≤ 255 ∧
      (0x7FE0 : Word).toNat = 0x4004 + 64 * (255 : Byte).toNat + 4 * 7 ∧
      (0x7FFC : Word).toNat = 0x4024 + 64 * (255 : Byte).toNat + 4 * 6 := by decide
theorem witness_HardResetAbandonsTheCommand :
    (base (.busy .compress) [.hardReset]).events = .hardReset :: [] := by decide

theorem witness_EveryStepKeepsTheInvariant :
    ∃ t : State, (busyOn .compress [97, 98]).Inv ∧ step (busyOn .compress [97, 98]) = .next t :=
  ⟨_, busyOn_inv (by decide) (by decide) (by decide), rfl⟩
theorem witness_ResetMeetsTheInvariant : Params.wf ⟨1, 1⟩ = true := by decide
/-- Launch and execution of CLEAR after reset. -/
theorem witness_ReachableStatesMeetTheInvariant : ∃ s : State, s.Reachable ∧ s.done = true ∧ s.cmd = encode .clear :=
  ⟨_, ⟨⟨1, 1⟩, 7, [cmdOp .clear], 2, by decide, rfl⟩, rfl, rfl⟩
theorem witness_ValidCodeTableIsAPrefixCode_generated :
    State.Inv { encodedBusy .nop [97, 98] with phase := .idle } ∧
      State.codeV { encodedBusy .nop [97, 98] with phase := .idle } = true ∧
      State.csrc { encodedBusy .nop [97, 98] with phase := .idle } = false := ⟨encoded_inv, rfl, rfl⟩
theorem witness_ValidCodeTableIsAPrefixCode_parsed :
    State.Inv { parsedBusy .nop abContainer with phase := .idle } ∧
      State.codeV { parsedBusy .nop abContainer with phase := .idle } = true := ⟨parsed_inv, rfl⟩

end Sys2Proof.Tests
end

section
/-! PROOFS. A step runs the command in progress or the one just written to CMD (10_state.md R24; 20_memory.md R74). -/

namespace Sys2Proof.Machine

variable {s : State}

theorem step_noEvent (h : s.events = []) : step s = s.engineTurn := by simp only [step, h]

theorem step_engine {rest : List Event} (h : s.events = .engine :: rest) :
    step s = State.engineTurn { s with events := rest } := by simp only [step, h, State.handle]

theorem engineTurn_idle (h : s.phase = .idle) : s.engineTurn = .next s := by simp only [State.engineTurn, h]

theorem engineTurn_busy {op : Instr} (h : s.phase = .busy op) : s.engineTurn = exec op s := by
  simp only [State.engineTurn, h]

/-- Settles O3: a CMD write while idle, and the engine's turn in either phase. -/
theorem stepRunsTheDecodedCommand : Obligations.StepRunsTheDecodedCommand := by
  refine ⟨fun s w i rest hp he hd => ?_, fun s i rest hp he => ?_, fun s i hp he => ?_, fun s rest hp he => ?_,
    fun s hp he => ?_⟩
  · rw [step_cmdWrite_idle hp he]
    simp only [State.writeCmd, hd]
  · rw [step_engine he]
    exact engineTurn_busy hp
  · rw [step_noEvent he]
    exact engineTurn_busy hp
  · rw [step_engine he]
    exact engineTurn_idle hp
  · rw [step_noEvent he]
    exact engineTurn_idle hp

end Sys2Proof.Machine
end

section
/-! PROOFS. The invariant is kept by every step (10_state.md R31, R46, R51; 60_exceptions.md R208). `State.Sound` is the
invariant without its rule on a command in progress; each pseudocode keeps it where the command's launch check holds, and
leaves the launch check of the stage that follows it in a composite command holding. -/

namespace Sys2Proof.Machine

/-! ### The invariant apart from the command in progress -/

/-- The state with the fields cleared of which `State.Inv` says nothing while no command is in progress. -/
def State.vouched (s : State) : State :=
  { s with
    cmd := 0, done := false, wign := false, doneIE := false, errIE := false, outLen := 0
    phase := .idle, events := [], resp := none, draw := 0 }

/-- The invariant but for its rule on a command in progress. -/
def State.Sound (s : State) : Prop := s.vouched.Inv

variable {s t : State}

theorem State.Inv.sound (h : s.Inv) : s.Sound := { h with busy_launched := nofun }

theorem State.Sound.inv (h : s.Sound)
    (hb : ∀ op, s.phase = .busy op → s.cmd = encode op ∧ launchCheck op s = none ∧ s.done = false ∧ s.err = false) :
    s.Inv := { h with busy_launched := hb }

theorem State.Sound.inv_of_idle (h : s.Sound) (hp : s.phase = .idle) : s.Inv := h.inv (by simp [hp])

theorem State.Sound.congr (h : s.Sound) (e : t.vouched = s.vouched) : t.Sound := by
  unfold State.Sound
  rw [e]
  exact h

/-! ### Launch, completion and errors -/

theorem State.Sound.complete (h : s.Sound) : s.complete.Sound := h.congr rfl

theorem State.Sound.takeError (h : s.Sound) (e : Error) : (s.takeError e).Sound :=
  { h with busy_launched := nofun, no_error := nofun, an_error := fun _ => ⟨e, rfl, rfl⟩ }

theorem State.Sound.launch (h : s.Sound) (op : Instr) : (s.launch op).Sound :=
  { h with busy_launched := nofun, no_error := fun _ => ⟨rfl, rfl⟩, an_error := nofun }

/-- A launch or a rejection of the word in CMD meets the whole invariant. -/
theorem launchOrReject_inv {op : Instr} (h : s.Sound) (hc : s.cmd = encode op) : (launchOrReject op s).Inv := by
  rcases launchOrReject_cases op s with ⟨hl, e⟩ | ⟨err, -, e⟩
  · rw [e]
    refine (h.launch op).inv fun j hj => ?_
    obtain rfl : op = j := by simpa using hj
    exact ⟨hc, (launchCheck_congr op rfl rfl rfl rfl rfl rfl).trans hl, rfl, rfl⟩
  · rw [e]
    exact (h.takeError err).inv_of_idle rfl

/-! ### The pseudocode of each stage -/

/-- The run leaves a sound state, and where it did not raise the launch check of `next` holds. -/
def Run.Prepares (next : Instr) : Run → Prop
  | .done t => t.Sound ∧ launchCheck next t = none
  | .raised _ t => t.Sound

theorem Run.Prepares.finish_sound {r : Run} {next : Instr} (h : r.Prepares next) : r.finish.Sound := by
  cases r with
  | done t => exact h.1.complete
  | raised e t => exact State.Sound.takeError h e

/-- Parts of a composite command follow one another: the first prepares the second. -/
theorem Run.Prepares.andThen {r : Run} {f : State → Run} {i j : Instr} (h : r.Prepares i)
    (hf : ∀ t : State, t.Sound → launchCheck i t = none → (f t).Prepares j) : (r.andThen f).Prepares j := by
  cases r with
  | done t => exact hf t h.1 h.2
  | raised e t => exact h

theorem countBody_prepares (h : s.Sound) (hl : launchCheck .count s = none) : (countBody s).Prepares .build :=
  ⟨{ h with
      busy_launched := nofun
      freq_valid := fun _ => ⟨checkInput_eq_none.1 hl, rfl, rfl⟩
      tree_valid := nofun
      code_generated := nofun
      code_parsed := nofun
      code_counts := nofun }, rfl⟩

theorem buildBody_prepares (h : s.Sound) (hl : launchCheck .build s = none) : (buildBody s).Prepares .gencode := by
  by_cases h0 : s.nsym = 0
  · rw [buildBody_empty h0]
    exact { h with
      busy_launched := nofun
      tree_valid := nofun
      code_generated := nofun
      code_parsed := nofun
      code_counts := nofun }
  · rw [buildBody_some h0]
    exact ⟨{ h with
      busy_launched := nofun
      tree_valid := fun _ => ⟨checkStage_eq_none.1 hl, h0, rfl, rfl, rfl⟩
      code_generated := nofun
      code_parsed := nofun
      code_counts := nofun }, rfl⟩

theorem gencodeBody_prepares (h : s.Sound) (hl : launchCheck .gencode s = none) :
    (gencodeBody s).Prepares .pack := by
  have htree : s.treeV = true := checkStage_eq_none.1 hl
  have hfreq : s.freqV = true := (h.tree_valid htree).1
  exact ⟨{ h with
    busy_launched := nofun
    code_generated := fun _ _ => ⟨htree, rfl⟩
    code_parsed := nofun
    code_counts := fun _ => ⟨rfl, rfl⟩ }, checkStage_eq_none.2 (by simp [hfreq])⟩

theorem packBody_prepares (h : s.Sound) (hl : launchCheck .pack s = none) : (packBody s).Prepares .nop := by
  have hgenerated : s.csrc ≠ true := by
    have hready := checkStage_eq_none.1 hl
    simp only [Bool.and_eq_true, Bool.not_eq_true'] at hready
    simp [hready.2]
  rcases Nat.lt_or_ge s.params.obufBytes s.container.length with hn | hn
  · rw [packBody_overflows hn]
    exact { h with
      busy_launched := nofun
      obuf_wf := Memory.unspecified_wf s.draw
      obuf_within := nofun
      code_parsed := fun _ hp => absurd hp hgenerated }
  · rw [packBody_fits hn]
    exact ⟨{ h with
      busy_launched := nofun
      obuf_wf := Memory.putBytes_wf h.obuf_wf 0 _
      obuf_within := Memory.putBytes_within h.obuf_within ((Nat.zero_add _).trans_le hn)
      code_parsed := fun _ hp => absurd hp hgenerated }, rfl⟩

theorem compressBody_prepares (h : s.Sound) (hl : launchCheck .compress s = none) :
    (compressBody s).Prepares .nop :=
  (((countBody_prepares h hl).andThen fun _ => buildBody_prepares).andThen fun _ => gencodeBody_prepares).andThen
    fun _ => packBody_prepares

theorem parseBody_prepares (h : s.Sound) (hl : launchCheck .parse s = none) : (parseBody s).Prepares .decode := by
  cases hc : parseContainer s.input with
  | error e =>
    rw [parseBody_error hc]
    exact { h with
      busy_launched := nofun
      code_generated := nofun
      code_parsed := nofun
      code_counts := nofun }
  | ok l =>
    rw [parseBody_ok hc]
    obtain ⟨htable, -⟩ := parseContainer_table hc
    exact ⟨{ h with
      busy_launched := nofun
      code_generated := nofun
      code_parsed := fun _ _ => ⟨checkInput_eq_none.1 hl, l, hc, rfl, rfl,
        congrArg (fun n => BitVec.ofNat 32 (n - l.raw.length)) s.input_length.symm, rfl⟩
      code_counts := fun _ => ⟨congrArg (BitVec.ofNat 9) htable.size.symm, rfl⟩ }, rfl⟩

theorem decodeBody_prepares (h : s.Sound) : (decodeBody s).Prepares .nop := by
  cases hd : s.decoded with
  | error e =>
    rw [decodeBody_error hd]
    exact { h with
      busy_launched := nofun
      obuf_wf := Memory.unspecified_wf s.draw
      obuf_within := nofun }
  | ok out =>
    rw [decodeBody_ok hd]
    exact ⟨{ h with
      busy_launched := nofun
      obuf_wf := Memory.putBytes_wf h.obuf_wf 0 out
      obuf_within := Memory.putBytes_within h.obuf_within (decodeLoop_length (Nat.zero_le _) hd) }, rfl⟩

theorem decompressBody_prepares (h : s.Sound) (hl : launchCheck .decompress s = none) :
    (decompressBody s).Prepares .nop :=
  (parseBody_prepares h hl).andThen fun _ h _ => decodeBody_prepares h

theorem clearBody_prepares (h : s.Sound) : (clearBody s).Prepares .nop :=
  ⟨{ h with
      busy_launched := nofun
      freq_valid := nofun
      tree_valid := nofun
      code_generated := nofun
      code_parsed := nofun
      code_counts := nofun }, rfl⟩

/-- Every command whose launch check holds leaves a sound state when it ends. -/
theorem bodyOf_finish_sound (i : Instr) (h : s.Sound) (hl : launchCheck i s = none) : (bodyOf i s).finish.Sound :=
  match i with
  | .nop => h.complete
  | .count => (countBody_prepares h hl).finish_sound
  | .build => (buildBody_prepares h hl).finish_sound
  | .gencode => (gencodeBody_prepares h hl).finish_sound
  | .pack => (packBody_prepares h hl).finish_sound
  | .compress => (compressBody_prepares h hl).finish_sound
  | .parse => (parseBody_prepares h hl).finish_sound
  | .decode => (decodeBody_prepares h).finish_sound
  | .decompress => (decompressBody_prepares h hl).finish_sound
  | .clear => (clearBody_prepares h).finish_sound

@[simp] theorem Run.finish_phase (r : Run) : r.finish.phase = .idle := by cases r <;> rfl

/-! ### The engine's turn -/

theorem State.Inv.engineTurn (h : s.Inv) (e : s.engineTurn = .next t) : t.Inv := by
  cases hp : s.phase with
  | idle => exact Host.Outcome.next.inj ((engineTurn_idle hp).symm.trans e) ▸ h
  | busy op =>
    rw [engineTurn_busy hp, exec_busy op hp] at e
    obtain ⟨-, hl, -, -⟩ := h.busy_launched op hp
    exact Host.Outcome.next.inj e ▸ (bodyOf_finish_sound op h.sound hl).inv_of_idle (Run.finish_phase _)

/-! ### Hard reset -/

theorem resetWith_inv {p : Params} (hp : p.wf = true) (d : Nat) (events : List Event) :
    (State.resetWith p d events).Inv where
  params_wf := hp
  ibuf_wf := Memory.unspecified_wf d
  obuf_wf := Memory.unspecified_wf d
  ibuf_within := nofun
  obuf_within := nofun
  busy_launched := nofun
  no_error := fun _ => ⟨rfl, rfl⟩
  an_error := nofun
  freq_valid := nofun
  tree_valid := nofun
  code_generated := nofun
  code_parsed := nofun
  code_counts := nofun

/-! ### Host transactions -/

theorem State.Inv.takeEvent (h : s.Inv) (rest : List Event) : State.Inv { s with events := rest } := { h with }

theorem State.Inv.respond (h : s.Inv) (r : Response) : (s.respond r).Inv := { h with }

theorem State.Inv.ignoreWrite (h : s.Inv) : s.ignoreWrite.Inv := { h with }

theorem State.Inv.writeIrqEn (h : s.Inv) (v : Word) : (s.writeIrqEn v).Inv := { h with }

theorem State.Inv.writeStatus (h : s.Inv) (v : Word) : (s.writeStatus v).Inv :=
  { h with
    busy_launched := fun op hp => by
      obtain ⟨hc, hl, hd, he⟩ := h.busy_launched op hp
      exact ⟨hc, hl, by simp [hd], by simp [he]⟩
    no_error := fun he => by
      cases hv : v.getLsbD 2 with
      | true => exact ⟨if_pos hv, if_pos hv⟩
      | false =>
        have herr : s.err = false := by simpa only [State.writeStatus_err, hv, Bool.not_false, Bool.and_true] using he
        simpa only [State.writeStatus_errcode, State.writeStatus_errinfo, hv, Bool.false_eq_true, if_false]
          using h.no_error herr
    an_error := fun he => by
      simp only [State.writeStatus_err, Bool.and_eq_true, Bool.not_eq_true'] at he
      obtain ⟨herr, hv⟩ := he
      simpa only [State.writeStatus_errcode, State.writeStatus_errinfo, hv, Bool.false_eq_true, if_false]
        using h.an_error herr }

theorem State.Sound.writeInLen (h : s.Sound) (v : Word) : (s.writeInLen v).Sound :=
  { h with
    busy_launched := nofun
    freq_valid := nofun
    tree_valid := nofun
    code_generated := nofun
    code_parsed := nofun
    code_counts := nofun }

@[simp] theorem leBytes_length (n : Nat) (v : Word) : (leBytes n v).length = n := by simp [leBytes]

theorem State.Sound.writeIbuf (h : s.Sound) {k : Nat} {size : Size} (hk : k + size.bytes ≤ s.params.ibufBytes)
    (v : Word) : (s.writeIbuf k size v).Sound :=
  { h with
    busy_launched := nofun
    ibuf_wf := Memory.putBytes_wf h.ibuf_wf k _
    ibuf_within := Memory.putBytes_within h.ibuf_within ((leBytes_length _ v).symm ▸ hk)
    freq_valid := nofun
    tree_valid := nofun
    code_generated := nofun
    code_parsed := nofun
    code_counts := nofun }

/-- A legal write outside CMD keeps the invariant: IN_LEN and IBUF are stored while the engine is idle only
(20_memory.md R71). -/
theorem State.Inv.writeTarget (h : s.Inv) {addr : Word} {size : Size} {tgt : Target} (v : Word)
    (hr : resolve s.params addr size = some tgt) (hi : s.phase = .idle ∨ tgt.writableWhileBusy = true) :
    (s.writeTarget tgt size v).Inv := by
  rcases writeTarget_cases s tgt size v with
    ⟨-, e⟩ | ⟨-, e⟩ | ⟨rfl, e⟩ | ⟨k, rfl, e⟩ | ⟨-, -, -, -, e⟩ <;> rw [e]
  · exact h.writeStatus v
  · exact h.writeIrqEn v
  · exact (h.sound.writeInLen v).inv_of_idle (hi.resolve_right (by decide))
  · exact (h.sound.writeIbuf (resolve_ibuf hr).1 v).inv_of_idle (hi.resolve_right (by simp [Target.writableWhileBusy]))
  · exact h

/-- The opcode map is the inverse of the opcodes (30_encoding.md R92). -/
theorem opcodeOf_of_decodeOp {op : BitVec 4} {i : Instr} (h : decodeOp op = .ok i) : opcodeOf i = op := by
  unfold decodeOp at h
  split at h <;> simp only [Except.ok.injEq, reduceCtorEq] at h <;> subst h <;>
    exact BitVec.eq_of_toNat_eq (Eq.symm ‹_›)

/-- A word that decodes to a command is the command's word (30_encoding.md R95). -/
theorem eq_encode_of_decode {w : Word} {i : Instr} (h : decode w = .ok i) : w = encode i := by
  unfold decode at h
  split at h
  · rename_i h0
    rw [encode, opcodeOf_of_decodeOp h]
    exact word_of_rsvdField_zero h0
  · cases h

theorem State.Inv.writeCmd (h : s.Inv) (hp : s.phase = .idle) {v : Word} (e : s.writeCmd v = .next t) : t.Inv := by
  have hs : State.Sound { s with cmd := v } := h.sound.congr rfl
  unfold State.writeCmd at e
  cases hd : decode v with
  | error _ =>
    simp only [hd, Host.Outcome.next.injEq] at e
    exact e ▸ (hs.takeError .illegalCommand).inv_of_idle rfl
  | ok i =>
    have hx : exec i { s with cmd := v } = _ := exec_idle i hp
    simp only [hd, hx, Host.Outcome.next.injEq] at e
    exact e ▸ launchOrReject_inv hs (eq_encode_of_decode hd)

theorem State.Inv.hostWrite (h : s.Inv) {addr : Word} {size : Size} {v : Word}
    (e : s.hostWrite addr size v = .next t) : t.Inv := by
  unfold State.hostWrite at e
  cases hr : resolve s.params addr size with
  | none =>
    simp only [hr, Host.Outcome.next.injEq] at e
    exact e ▸ h.respond _
  | some tgt =>
    simp only [hr] at e
    have hs := h.respond ⟨true, none⟩
    rcases writeOk_cases (s.respond ⟨true, none⟩) tgt size v with ⟨-, -, e'⟩ | ⟨hp, -, e'⟩ | ⟨hi, -, e'⟩ <;>
      rw [e'] at e
    · exact Host.Outcome.next.inj e ▸ hs.ignoreWrite
    · exact hs.writeCmd hp e
    · exact Host.Outcome.next.inj e ▸ hs.writeTarget v hr hi

theorem State.Inv.readOk (h : s.Inv) (tgt : Target) (size : Size) : (s.readOk tgt size).Inv := by
  unfold State.readOk
  split
  · exact { h with }
  · exact h.respond _

theorem State.Inv.hostRead (h : s.Inv) (addr : Word) (size : Size) : (s.hostRead addr size).Inv := by
  unfold State.hostRead
  split
  · exact h.respond _
  · exact h.readOk _ size

theorem State.Inv.transact (h : s.Inv) {txn : Txn} (e : s.transact txn = .next t) : t.Inv := by
  cases txn with
  | read addr size => exact Host.Outcome.next.inj e ▸ h.hostRead addr size
  | write addr size v => exact h.hostWrite e

/-! ### The step -/

/-- Settles O56: by the cases of a step, each of which keeps the invariant. -/
theorem everyStepKeepsTheInvariant : Obligations.EveryStepKeepsTheInvariant := by
  intro s t h e
  rcases step_cases s with ⟨-, e'⟩ | ⟨rest, ⟨-, e'⟩ | ⟨-, e'⟩ | ⟨txn, -, e'⟩⟩ <;> rw [e'] at e
  · exact h.engineTurn e
  · exact (h.takeEvent rest).engineTurn e
  · exact Host.Outcome.next.inj e ▸ resetWith_inv h.params_wf s.draw rest
  · exact (h.takeEvent rest).transact e

/-- Settles O57: no valid bit, error or command in progress is there to vouch for anything. -/
theorem resetMeetsTheInvariant : Obligations.ResetMeetsTheInvariant :=
  ⟨resetWith_inv (by decide) 0 [], fun _ d events hp => resetWith_inv hp d events⟩

end Sys2Proof.Machine
end

section
/-! PROOFS. What the valid bits vouch for in a code table (10_state.md R46). -/

namespace Sys2Proof.Machine

variable {s : State}

/-- The generated code has as many entries as there are symbols with a nonzero frequency (10_state.md R46 (d)). -/
theorem tableSize_genTable {freq : Vector Word 256} (h : 1 ≤ presentSymbols freq) :
    tableSize (genTable (arenaOf (buildNodes freq)) (BitVec.ofNat 9 ((buildNodes freq).length - 1))) =
      presentSymbols freq := by
  unfold tableSize presentSymbols
  rw [countP_toList, countP_toList]
  simp only [genTable_covers h]

/-- A generated table is that of the tree over the present symbols, of which there is at least one
(10_state.md R31, R34, R51). -/
theorem State.Inv.generated (h : s.Inv) (hv : s.codeV = true) (hc : s.csrc = false) :
    1 ≤ presentSymbols s.freq ∧ s.nsym = BitVec.ofNat 9 (presentSymbols s.freq) ∧
      s.code = genTable (arenaOf (buildNodes s.freq)) (BitVec.ofNat 9 ((buildNodes s.freq).length - 1)) := by
  obtain ⟨htree, hcode⟩ := h.code_generated hv hc
  obtain ⟨hfreq, hne, hnode, -, hroot⟩ := h.tree_valid htree
  obtain ⟨-, -, hnsym⟩ := h.freq_valid hfreq
  refine ⟨Nat.one_le_iff_ne_zero.2 fun h0 => hne (by rw [hnsym, h0]; rfl), hnsym, ?_⟩
  rw [hcode, hnode, hroot]

/-- A valid table, generated or parsed, is a `TableOf` with at least one entry: `PrefixFree`, and no code longer than 255
bits. -/
theorem State.Inv.code_tableOf (h : s.Inv) (hv : s.codeV = true) : ∃ n, 1 ≤ n ∧ TableOf s.code n := by
  cases hc : s.csrc with
  | false =>
    obtain ⟨hpos, -, hcode⟩ := h.generated hv hc
    rw [hcode]
    exact ⟨_, hpos, genTable_prefixFree _ _, tableSize_genTable hpos, genTable_length_le _ _⟩
  | true =>
    obtain ⟨-, l, hl, hcode, -⟩ := h.code_parsed hv hc
    obtain ⟨htable, hpos⟩ := parseContainer_table hl
    exact ⟨l.entries, hpos, hcode ▸ htable⟩

/-- Settles O59: a generated table is the tree's, a parsed one is the container's, and both are `TableOf`s. -/
theorem validCodeTableIsAPrefixCode : Obligations.ValidCodeTableIsAPrefixCode := by
  intro s h hv
  obtain ⟨n, hn, htable⟩ := h.code_tableOf hv
  obtain ⟨hncode, hmaxlen⟩ := h.code_counts hv
  have hsize : s.ncode.toNat = tableSize s.code := by
    have := tableSize_le s.code
    rw [hncode, BitVec.toNat_ofNat]
    omega
  have hmax : s.maxlen.toNat = tableMaxLen s.code := by
    have := tableMaxLen_le htable.short
    rw [hmaxlen, BitVec.toNat_ofNat]
    omega
  refine ⟨htable.prefixFree, hsize, hsize ▸ htable.size.symm ▸ hn, fun b => hmax ▸ length_le_tableMaxLen s.code b,
    hmax ▸ tableMaxLen_attained s.code, fun hc => ?_⟩
  obtain ⟨hpos, hnsym, hcode⟩ := h.generated hv hc
  rw [hncode, hnsym, hcode, tableSize_genTable hpos]
  exact ⟨genTable_covers hpos, rfl⟩

end Sys2Proof.Machine
end

section
/-! PROOFS. The host's reads and writes as steps: what a legal read of an idle block answers, what a legal write of a
register stores, and what reset leaves (10_state.md R20 to R45, R52). -/

namespace Sys2Proof.Machine

variable {s : State}

/-! ### Steps that read -/

/-- A legal read of an idle block answers the location's value and changes nothing (20_memory.md R62, R65). -/
theorem step_read_idle {addr : Word} {size : Size} {tgt : Target} {rest : List Event} (hp : s.phase = .idle)
    (he : s.events = .host (.read addr size) :: rest) (hr : resolve s.params addr size = some tgt) :
    step s = .next { s with events := rest, resp := some ⟨true, some (s.readTarget tgt size)⟩ } := by
  have hb : State.isBusy { s with events := rest } = false := State.isBusy_idle hp
  simp only [step, he, State.handle, State.transact, State.hostRead, hr, State.readOk, hb, Bool.false_and,
    Bool.false_eq_true, if_false]
  cases tgt <;> rfl

/-! ### Addresses of the register page and the array windows -/

theorem resolve_reg {p : Params} {addr : Word} (h : addr.toNat < 0x100) (h4 : addr.toNat % 4 = 0) :
    resolve p addr .word = some (.reg addr.toNat) := by
  unfold resolve
  rw [if_pos h, wordAccess_eq_some]
  exact ⟨rfl, h4, rfl⟩

theorem resolve_freq {p : Params} {addr : Word} {w : Nat} (h : addr.toNat = 0x400 + 4 * w) (hw : w < 256) :
    resolve p addr .word = some (.freq w) := by
  unfold resolve
  rw [if_neg (by omega), if_pos (by omega), wordAccess_eq_some]
  exact ⟨rfl, by omega, congrArg Target.freq (by omega)⟩

theorem resolve_node {p : Params} {addr : Word} {w : Nat} (h : addr.toNat = 0x1000 + 4 * w) (hw : w < 1024) :
    resolve p addr .word = some (.node w) := by
  unfold resolve
  rw [if_neg (by omega), if_neg (by omega), if_pos (by omega), wordAccess_eq_some]
  exact ⟨rfl, by omega, congrArg Target.node (by omega)⟩

theorem resolve_code {p : Params} {addr : Word} {w : Nat} (h : addr.toNat = 0x4000 + 4 * w) (hw : w < 4096) :
    resolve p addr .word = some (.code w) := by
  unfold resolve
  rw [if_neg (by omega), if_neg (by omega), if_neg (by omega), if_pos (by omega), wordAccess_eq_some]
  exact ⟨rfl, by omega, congrArg Target.code (by omega)⟩

/-! ### Registers -/

/-- A reserved offset reads zero (10_state.md R42). -/
theorem State.readReg_reserved (s : State) {off : Nat} (h : off = 0x00C ∨ 0x048 ≤ off) : s.readReg off = 0 := by
  unfold State.readReg
  split
  all_goals try omega
  rfl

/-- Settles O44: the step's answer is `State.readReg`, and each clause is the register's value. -/
theorem registersReadTheirFields : Obligations.RegistersReadTheirFields := by
  intro s rest off hp hoff h4 he
  have haddr : (BitVec.ofNat 32 off).toNat = off := by
    rw [BitVec.toNat_ofNat]
    omega
  have hr : resolve s.params (BitVec.ofNat 32 off) .word = some (.reg off) := by
    rw [resolve_reg (by omega) (by omega), haddr]
  refine ⟨s.readReg off, step_read_idle hp he hr, ?id, ?ibufSize, ?obufSize, ?cmd, ?status, ?irqEn, ?valid, ?inLen,
    ?outLen, ?nsym, ?ncode, ?nnodes, ?root, ?maxlen, ?totalBits, ?pad, ?hdrLen, s.readReg_reserved⟩
  case status =>
    rintro rfl
    have hbusy : s.isBusy.toNat = 0 := by rw [State.isBusy_idle hp]; rfl
    exact s.statusWord_toNat.trans (by omega)
  case irqEn => rintro rfl; exact s.irqEnWord_toNat
  case valid => rintro rfl; exact s.validWord_toNat
  case nsym | ncode | nnodes | root | maxlen | pad =>
    rintro rfl
    exact BitVec.toNat_setWidth_of_le (by decide)
  all_goals
    rintro rfl
    rfl

/-! ### Window words -/

theorem freqWindowWord_symbol (freq : Vector Word 256) (b : Byte) :
    freqWindowWord freq b.toNat = atSymbol freq b := by
  simp [freqWindowWord, atSymbol, b.isLt]

theorem nodeWindowWord_entry {nodes : Vector Node 511} {i : Nat} {nd : Node} (h : nodes[i]? = some nd) (second : Bool) :
    nodeWindowWord nodes (2 * i + second.toNat) = nd.word second := by
  have hdiv : (2 * i + second.toNat) / 2 = i := by have := Bool.toNat_le second; omega
  have hmod : ((2 * i + second.toNat) % 2 == 1) = second := by cases second <;> simp
  unfold nodeWindowWord
  rw [hdiv, h, hmod]

/-- Slot 511 is no entry (10_state.md R44). -/
theorem nodeWindowWord_slot511 (nodes : Vector Node 511) {w : Nat} (h : 1022 ≤ w) : nodeWindowWord nodes w = 0 := by
  unfold nodeWindowWord
  rw [Vector.getElem?_eq_none (by omega)]

theorem Node.word_second_toNat (nd : Node) :
    (nd.word true).toNat = nd.left.toNat + 2 ^ 9 * nd.right.toNat +
      2 ^ 18 * (if nd.leaf then nd.symbol.toNat else 0) + 2 ^ 31 * nd.leaf.toNat := by
  have hsymbol : (if nd.leaf then nd.symbol else 0).toNat = if nd.leaf then nd.symbol.toNat else 0 :=
    apply_ite BitVec.toNat _ _ _
  simp only [Node.word, if_true, toNat_append, toNat_ofBool, hsymbol, show (0 : BitVec 5).toNat = 0 from rfl]
  omega

/-- The first of a symbol's 16 words is CLEN (10_state.md R45). -/
theorem codeWindowWord_length (code : Vector Bits 256) (b : Byte) :
    codeWindowWord code (16 * b.toNat) = (BitVec.ofNat 8 (atSymbol code b).length).setWidth 32 := by
  have hdiv : 16 * b.toNat / 16 = b.toNat := by omega
  have hmod : 16 * b.toNat % 16 = 0 := by omega
  unfold codeWindowWord
  rw [hdiv, hmod]
  simp [atSymbol, b.isLt]

/-- The words behind it are the eight code words, then zeros (10_state.md R45). -/
theorem codeWindowWord_bits (code : Vector Bits 256) (b : Byte) {w : Nat} (hw : w < 15) :
    codeWindowWord code (16 * b.toNat + (w + 1)) = if w < 8 then codeWord (atSymbol code b) w else 0 := by
  have hdiv : (16 * b.toNat + (w + 1)) / 16 = b.toNat := by omega
  have hmod : (16 * b.toNat + (w + 1)) % 16 = w + 1 := by omega
  unfold codeWindowWord
  rw [hdiv, hmod]
  simp [atSymbol, b.isLt]

/-- Bit `31 − j` of code word `w` is code bit `32w + j` (10_state.md R45). -/
theorem codeWord_getLsbD (bits : Bits) (w : Nat) {j : Nat} (hj : j < 32) :
    (codeWord bits w).getLsbD (31 - j) = bits[32 * w + j]?.getD false := by
  have h := packNat_testBit 32 j (bits.drop (32 * w)) hj
  rw [List.getElem?_drop] at h
  rw [codeWord, BitVec.getLsbD_ofNat, decide_eq_true (by omega), Bool.true_and, ← h]

/-- Settles O53: each address resolves to a word of a window, and the step answers that word. -/
theorem windowsShowTheArrays : Obligations.WindowsShowTheArrays := by
  intro s addr rest hp he
  have hstep : ∀ {tgt : Target} {v : Word}, resolve s.params addr .word = some tgt → s.readTarget tgt .word = v →
      step s = .next { s with events := rest, resp := some ⟨true, some v⟩ } :=
    fun hr hv => hv ▸ step_read_idle hp he hr
  refine ⟨fun b ha => ?freq, fun i nd hnd => ⟨fun ha => ?weight, fun ha => ?fields⟩, fun ha => ?slot511, fun b =>
    ⟨fun ha hlen => ?clen, fun w hw ha => ?codeWords, fun w hw ha => ?zeros⟩⟩
  case freq => exact hstep (resolve_freq ha b.isLt) (freqWindowWord_symbol s.freq b)
  case weight =>
    have hi := (Vector.getElem?_eq_some_iff.1 hnd).1
    exact hstep (resolve_node (w := 2 * i) (by omega) (by omega)) (nodeWindowWord_entry hnd false)
  case fields =>
    have hi := (Vector.getElem?_eq_some_iff.1 hnd).1
    exact ⟨_, hstep (resolve_node (w := 2 * i + 1) (by omega) (by omega)) (nodeWindowWord_entry hnd true),
      nd.word_second_toNat⟩
  case slot511 =>
    exact hstep (resolve_node (w := (addr.toNat - 0x1000) / 4) (by omega) (by omega))
      (nodeWindowWord_slot511 s.node (by omega))
  case clen =>
    refine ⟨_, hstep (resolve_code (w := 16 * b.toNat) (by omega) (by omega)) (codeWindowWord_length s.code b), ?_⟩
    rw [BitVec.toNat_setWidth_of_le (by decide), BitVec.toNat_ofNat]
    omega
  case codeWords =>
    refine ⟨_, hstep (resolve_code (w := 16 * b.toNat + (w + 1)) (by omega) (by omega))
      (codeWindowWord_bits s.code b (by omega)), ?_⟩
    rw [if_pos hw]
    exact fun j hj => codeWord_getLsbD _ w hj
  case zeros =>
    refine hstep (resolve_code (w := 16 * b.toNat + (w + 8 + 1)) (by omega) (by omega)) ?_
    exact (codeWindowWord_bits s.code b (by omega)).trans (if_neg (by omega))

/-! ### Steps that write a register -/

/-- A write of a register that is accepted in the block's phase, outside CMD, stores and answers OK
(20_memory.md R63, R70, R71). -/
theorem step_write_reg {addr v : Word} {off : Nat} {rest : List Event} (he : s.events = wr32 addr v :: rest)
    (hr : resolve s.params addr .word = some (.reg off)) (hoff : off ≠ 0x010)
    (hi : s.phase = .idle ∨ Target.writableWhileBusy (.reg off) = true) :
    step s = .next (State.writeTarget { s with events := rest, resp := some ⟨true, none⟩ } (.reg off) .word v) := by
  have hstep : step s = State.writeOk { s with events := rest, resp := some ⟨true, none⟩ } (.reg off) .word v := by
    simp only [step, he, wr32, State.handle, State.transact, State.hostWrite, hr, State.respond]
  rcases writeOk_cases { s with events := rest, resp := some ⟨true, none⟩ } (.reg off) .word v with
    ⟨hb, hw, -⟩ | ⟨-, hcmd, -⟩ | ⟨-, -, e⟩
  · rcases hi with hp | hw'
    · exact absurd ((State.isBusy_idle hp).symm.trans hb) nofun
    · exact absurd (hw.symm.trans hw') nofun
  · exact absurd (Target.reg.inj hcmd) hoff
  · rw [hstep, e]

/-- Clearing a flag where a bit is 1 (10_state.md R25). -/
theorem and_not_eq_ite (flag bit : Bool) : (flag && !bit) = if bit then false else flag := by
  cases bit <;> simp

/-- Settles O45: a write to STATUS is accepted in either phase. -/
theorem statusIsWriteOneToClear : Obligations.StatusIsWriteOneToClear := by
  intro s v rest he
  rw [step_write_reg he (resolve_status _) (by decide) (.inr (by decide))]
  simp only [State.writeTarget, State.writeStatus, and_not_eq_ite]

/-- Settles O46: a write to IRQ_EN is accepted in either phase. -/
theorem irqEnGatesTheInterrupt : Obligations.IrqEnGatesTheInterrupt := fun _ _ _ he =>
  ⟨_, step_write_reg he (resolve_irqEn _) (by decide) (.inr (by decide)), rfl, rfl⟩

/-- Settles O50: a write to IN_LEN is accepted while idle. -/
theorem inLenWriteClearsTheValidBits : Obligations.InLenWriteClearsTheValidBits := fun _ _ _ hp he =>
  step_write_reg he (resolve_inLen _) (by decide) (.inl hp)

/-! ### Reset -/

/-- Settles O54: the registers of fields through their values as numbers, every other one by its definition. -/
theorem resetLeavesTheListedValues : Obligations.ResetLeavesTheListedValues := fun _ _ _ =>
  ⟨rfl, rfl, BitVec.eq_of_toNat_eq (State.statusWord_toNat _), BitVec.eq_of_toNat_eq (State.irqEnWord_toNat _),
    BitVec.eq_of_toNat_eq (State.validWord_toNat _), rfl, rfl, rfl, rfl, rfl, rfl, rfl, rfl, rfl, rfl, rfl, rfl⟩

end Sys2Proof.Machine
end

section
/-! PROOFS. The address map (20_memory.md R61, R62, R64), and each host read and write as a step: what an ERR response, a
legal read and a legal write leave, idle and busy (R60, R63 to R65, R69 to R72). -/

namespace Sys2Proof.Machine

variable {s : State}

/-! ### The address map -/

/-- The accesses that address a target (20_memory.md R61, R62, R64). -/
def Target.AddressedBy (p : Params) (a : Nat) (size : Size) : Target → Prop
  | .reg off => (size = .word ∧ a % 4 = 0) ∧ a ≤ 0xFF ∧ off = a
  | .freq w => (size = .word ∧ a % 4 = 0) ∧ a = 0x400 + 4 * w ∧ w < 256
  | .node w => (size = .word ∧ a % 4 = 0) ∧ a = 0x1000 + 4 * w ∧ w < 1024
  | .code w => (size = .word ∧ a % 4 = 0) ∧ a = 0x4000 + 4 * w ∧ w < 4096
  | .ibuf k => a = 0x01000000 + k ∧ k % size.bytes = 0 ∧ k + size.bytes ≤ p.ibufBytes
  | .obuf k => a = 0x10000000 + k ∧ k % size.bytes = 0 ∧ k + size.bytes ≤ p.obufBytes

/-- An access that resolves to a target addresses it: one case for each region of the map. -/
theorem addressedBy_of_resolve {p : Params} {addr : Word} {size : Size} {tgt : Target}
    (h : resolve p addr size = some tgt) : tgt.AddressedBy p addr.toNat size := by
  unfold resolve at h
  dsimp only at h
  split_ifs at h with hreg hfreq hnode hcode hibuf hobuf
  · obtain ⟨hs, h4, rfl⟩ := wordAccess_eq_some.1 h
    exact ⟨⟨hs, h4⟩, by omega, rfl⟩
  · obtain ⟨hs, h4, rfl⟩ := wordAccess_eq_some.1 h
    exact ⟨⟨hs, h4⟩, by omega, by omega⟩
  · obtain ⟨hs, h4, rfl⟩ := wordAccess_eq_some.1 h
    exact ⟨⟨hs, h4⟩, by omega, by omega⟩
  · obtain ⟨hs, h4, rfl⟩ := wordAccess_eq_some.1 h
    exact ⟨⟨hs, h4⟩, by omega, by omega⟩
  · obtain ⟨hk, hle, rfl⟩ := bufferAccess_eq_some.1 h
    exact ⟨by omega, hk, hle⟩
  · obtain ⟨hk, hle, rfl⟩ := bufferAccess_eq_some.1 h
    exact ⟨by omega, hk, hle⟩

theorem resolve_ibuf_offset {p : Params} {addr : Word} {size : Size} {k : Nat} (h : addr.toNat = 0x01000000 + k)
    (hk : k % size.bytes = 0) (hle : k + size.bytes ≤ p.ibufBytes) : resolve p addr size = some (.ibuf k) := by
  have hpos := Size.bytes_pos size
  have hsub : addr.toNat - 0x01000000 = k := by omega
  unfold resolve
  rw [if_neg (by omega), if_neg (by omega), if_neg (by omega), if_neg (by omega), if_pos (by omega), hsub,
    bufferAccess_eq_some]
  exact ⟨hk, hle, rfl⟩

/-- The IBUF region of a legal part ends below the OBUF region (00_scope.md R7). -/
theorem resolve_obuf_offset {p : Params} {addr : Word} {size : Size} {k : Nat} (hp : p.wf = true)
    (h : addr.toNat = 0x10000000 + k) (hk : k % size.bytes = 0) (hle : k + size.bytes ≤ p.obufBytes) :
    resolve p addr size = some (.obuf k) := by
  obtain ⟨-, hibuf, -, -⟩ := params_bounds hp
  have hpos := Size.bytes_pos size
  have hsub : addr.toNat - 0x10000000 = k := by omega
  unfold resolve
  rw [if_neg (by omega), if_neg (by omega), if_neg (by omega), if_neg (by omega), if_neg (by omega), if_pos (by omega),
    hsub, bufferAccess_eq_some]
  exact ⟨hk, hle, rfl⟩

/-- In a legal part the regions do not overlap, so an access that addresses a target resolves to it. -/
theorem resolve_of_addressedBy {p : Params} (hp : p.wf = true) {addr : Word} {size : Size} {tgt : Target}
    (h : tgt.AddressedBy p addr.toNat size) : resolve p addr size = some tgt := by
  cases tgt with
  | reg off =>
    obtain ⟨⟨rfl, h4⟩, hlt, rfl⟩ := h
    exact resolve_reg (by omega) h4
  | freq w =>
    obtain ⟨⟨rfl, -⟩, ha, hw⟩ := h
    exact resolve_freq ha hw
  | node w =>
    obtain ⟨⟨rfl, -⟩, ha, hw⟩ := h
    exact resolve_node ha hw
  | code w =>
    obtain ⟨⟨rfl, -⟩, ha, hw⟩ := h
    exact resolve_code ha hw
  | ibuf k =>
    obtain ⟨ha, hk, hle⟩ := h
    exact resolve_ibuf_offset ha hk hle
  | obuf k =>
    obtain ⟨ha, hk, hle⟩ := h
    exact resolve_obuf_offset hp ha hk hle

/-- The address map of a legal part. -/
theorem resolve_eq_some_iff {p : Params} (hp : p.wf = true) {addr : Word} {size : Size} {tgt : Target} :
    resolve p addr size = some tgt ↔ tgt.AddressedBy p addr.toNat size :=
  ⟨addressedBy_of_resolve, resolve_of_addressedBy hp⟩

/-- Settles O42: `resolve_eq_some_iff` for each kind of target. -/
theorem addressMap : Obligations.AddressMap := fun _ _ _ hp =>
  ⟨fun _ => resolve_eq_some_iff hp, fun _ => resolve_eq_some_iff hp, fun _ => resolve_eq_some_iff hp,
    fun _ => resolve_eq_some_iff hp, fun _ => resolve_eq_some_iff hp, fun _ => resolve_eq_some_iff hp⟩

/-! ### Accesses with response ERR -/

/-- Settles O43: both kinds of transaction record the response ERR and nothing else. -/
theorem errResponseHasNoEffect : Obligations.ErrResponseHasNoEffect := by
  intro s addr v size rest hr
  refine ⟨fun he => ?_, fun he => ?_⟩
  · simp only [step, he, State.handle, State.transact, State.hostRead, hr, State.respond]
  · simp only [step, he, State.handle, State.transact, State.hostWrite, hr, State.respond]

/-! ### Legal reads -/

theorem step_read {addr : Word} {size : Size} {tgt : Target} {rest : List Event}
    (he : s.events = .host (.read addr size) :: rest) (hr : resolve s.params addr size = some tgt) :
    step s = .next (State.readOk { s with events := rest } tgt size) := by
  simp only [step, he, State.handle, State.transact, State.hostRead, hr]

/-- A legal read of a location that is not UNSPEC answers its value, in either phase, and changes nothing
(20_memory.md R62, R65, R72). -/
theorem step_read_specified {addr : Word} {size : Size} {tgt : Target} {rest : List Event}
    (he : s.events = .host (.read addr size) :: rest) (hr : resolve s.params addr size = some tgt)
    (hu : tgt.unspecWhileBusy = false) :
    step s = .next { s with events := rest, resp := some ⟨true, some (s.readTarget tgt size)⟩ } := by
  rw [step_read he hr]
  simp only [State.readOk, hu, Bool.and_false, Bool.false_eq_true, if_false]
  cases tgt <;> rfl

/-- A legal read answers some value, and moves at most the counter of free values (20_memory.md R65, R72). -/
theorem step_read_answers {addr : Word} {size : Size} {tgt : Target} {rest : List Event}
    (he : s.events = .host (.read addr size) :: rest) (hr : resolve s.params addr size = some tgt) :
    ∃ (v : Word) (draw : Nat), step s = .next { s with events := rest, resp := some ⟨true, some v⟩, draw := draw } := by
  rw [step_read he hr]
  unfold State.readOk
  split
  · exact ⟨_, s.draw + 1, rfl⟩
  · exact ⟨_, s.draw, rfl⟩

/-- The bytes of an access as a number (20_memory.md R64). -/
theorem leWord_access_toNat (f : Nat → Byte) (size : Size) :
    (leWord ((List.range size.bytes).map f)).toNat =
      ((List.range size.bytes).map fun i => (f i).toNat * 256 ^ i).sum := by
  rw [leWord_toNat (by simpa using Size.bytes_le size), leNat_eq_sum]

/-- A read of IBUF, in either phase (20_memory.md R64, R72). -/
theorem step_read_ibuf {addr : Word} {size : Size} {k : Nat} {rest : List Event}
    (he : s.events = .host (.read addr size) :: rest) (hr : resolve s.params addr size = some (.ibuf k)) :
    ∃ v : Word, step s = .next { s with events := rest, resp := some ⟨true, some v⟩ } ∧
      v.toNat = ((List.range size.bytes).map fun i => (s.ibufByte (k + i)).toNat * 256 ^ i).sum :=
  ⟨_, step_read_specified he hr rfl, leWord_access_toNat _ size⟩

/-- Settles O52: the step's answer is the little-endian word of the bytes. -/
theorem bufferReadsAreLittleEndian : Obligations.BufferReadsAreLittleEndian := fun _ _ size _ _ he =>
  ⟨step_read_ibuf he, fun hp hr => ⟨_, step_read_idle hp he hr, leWord_access_toNat _ size⟩⟩

/-- The registers that keep their meaning while the engine is busy (20_memory.md R72). -/
theorem Target.reg_unspecWhileBusy_eq_false {off : Nat} (h : off ≤ 0x018 ∨ off = 0x020 ∨ 0x048 ≤ off) :
    (Target.reg off).unspecWhileBusy = false := by
  simp only [Target.unspecWhileBusy, decide_eq_false_iff_not, List.mem_cons, List.not_mem_nil, or_false]
  omega

/-- Settles O48: the specified locations answer their values, and every legal read answers. -/
theorem busyReadsOfResultsAreUnspecified : Obligations.BusyReadsOfResultsAreUnspecified := by
  intro s op addr size tgt rest hp he hr
  refine ⟨fun off htgt hoff => ?registers, fun k htgt => step_read_ibuf he (htgt ▸ hr), step_read_answers he hr⟩
  subst htgt
  refine ⟨s.readReg off, step_read_specified he hr (Target.reg_unspecWhileBusy_eq_false hoff), ?id, ?ibufSize,
    ?obufSize, ?cmd, ?status, ?irqEn, ?inLen, s.readReg_reserved⟩
  case status =>
    rintro rfl
    have hbusy : s.isBusy.toNat = 1 := by rw [State.isBusy_busy hp]; rfl
    rw [← hbusy]
    exact s.statusWord_toNat
  case irqEn => rintro rfl; exact s.irqEnWord_toNat
  all_goals
    rintro rfl
    rfl

/-! ### Legal writes -/

theorem step_write {addr v : Word} {size : Size} {tgt : Target} {rest : List Event}
    (he : s.events = .host (.write addr size v) :: rest) (hr : resolve s.params addr size = some tgt) :
    step s = State.writeOk { s with events := rest, resp := some ⟨true, none⟩ } tgt size v := by
  simp only [step, he, State.handle, State.transact, State.hostWrite, hr, State.respond]

/-- Settles O47: such a location is not writable while busy, so the write is ignored. -/
theorem busyWriteOnlySetsWign : Obligations.BusyWriteOnlySetsWign := by
  intro s op addr v size tgt rest hp he hr hstatus hirq
  have hb : State.isBusy { s with events := rest, resp := some ⟨true, none⟩ } = true := State.isBusy_busy hp
  have hw : tgt.writableWhileBusy = false := by
    cases tgt with
    | reg off =>
      rw [Target.writableWhileBusy, decide_eq_false_iff_not]
      rintro (rfl | rfl)
      · exact hstatus rfl
      · exact hirq rfl
    | freq | node | code | ibuf | obuf => rfl
  rw [step_write he hr, State.writeOk, hb, hw]
  rfl

/-- A legal write to an idle block outside CMD is the location's own write (20_memory.md R63, R70). -/
theorem step_write_idle {addr v : Word} {size : Size} {tgt : Target} {rest : List Event} (hp : s.phase = .idle)
    (he : s.events = .host (.write addr size v) :: rest) (hr : resolve s.params addr size = some tgt)
    (hcmd : tgt ≠ .reg 0x010) :
    step s = .next (State.writeTarget { s with events := rest, resp := some ⟨true, none⟩ } tgt size v) := by
  have hb : State.isBusy { s with events := rest, resp := some ⟨true, none⟩ } = false := State.isBusy_idle hp
  rw [step_write he hr, State.writeOk, hb, Bool.false_and, if_neg (by decide), if_neg hcmd]

/-- Settles O49: of the cases of a location's own write, only the one that stores nothing is left. -/
theorem readOnlyStateIgnoresWrites : Obligations.ReadOnlyStateIgnoresWrites := by
  intro s addr v size tgt rest hp he hr hibuf hcmd hstatus hirq hinLen
  rw [step_write_idle hp he hr hcmd]
  rcases writeTarget_cases { s with events := rest, resp := some ⟨true, none⟩ } tgt size v with
    ⟨h, -⟩ | ⟨h, -⟩ | ⟨h, -⟩ | ⟨k, h, -⟩ | ⟨-, -, -, -, e⟩
  · exact absurd h hstatus
  · exact absurd h hirq
  · exact absurd h hinLen
  · exact absurd h (hibuf k)
  · rw [e]

theorem leBytes_getElem? (v : Word) {n i : Nat} (h : i < n) : (leBytes n v)[i]? = some (v.extractLsb' (8 * i) 8) := by
  simp [leBytes, h]

/-- A write to IBUF stores its bytes at `k`, byte `i` at `k + i` (20_memory.md R64). -/
theorem writeIbuf_ibufByte_inside (s : State) (k : Nat) (size : Size) (v : Word) {i : Nat} (hi : i < size.bytes) :
    (s.writeIbuf k size v).ibufByte (k + i) = v.extractLsb' (8 * i) 8 := by
  have hget : (s.writeIbuf k size v).ibuf.get? (k + i) = some (v.extractLsb' (8 * i) 8) := by
    refine (Memory.putBytes_get? _ k (k + i) _).trans ?_
    rw [leBytes_length, if_pos (by omega), Nat.add_sub_cancel_left, leBytes_getElem? v hi]
  rw [State.ibufByte, hget, Option.getD_some]

/-- It leaves every other byte. -/
theorem writeIbuf_ibufByte_outside (s : State) (k : Nat) (size : Size) (v : Word) {j : Nat}
    (hj : j < k ∨ k + size.bytes ≤ j) : (s.writeIbuf k size v).ibufByte j = s.ibufByte j := by
  have hget : (s.writeIbuf k size v).ibuf.get? j = s.ibuf.get? j := by
    refine (Memory.putBytes_get? _ k j _).trans ?_
    rw [leBytes_length, if_neg (by omega)]
  have hepoch : (s.writeIbuf k size v).ibuf.epoch = s.ibuf.epoch := Memory.putBytes_epoch _ _ _
  rw [State.ibufByte, hget, hepoch, State.ibufByte]

/-- Settles O51: the step is `State.writeIbuf`, whose bytes the two lemmas above give. -/
theorem ibufWriteStoresLittleEndian : Obligations.IbufWriteStoresLittleEndian := fun s _ v size k rest hp he hr =>
  ⟨_, step_write_idle hp he hr nofun, rfl,
    fun _ => writeIbuf_ibufByte_inside { s with events := rest, resp := some ⟨true, none⟩ } k size v,
    fun _ => writeIbuf_ibufByte_outside { s with events := rest, resp := some ⟨true, none⟩ } k size v⟩

end Sys2Proof.Machine
end

section
/-! PROOFS. Packed bytes (20_memory.md R66; 41_encoder.md R144). -/

namespace Sys2Proof.Machine

/-- Bit `7 − t` of a packed byte is bit `t` of the string (20_memory.md R66). -/
theorem pack8_getLsbD (bits : Bits) {t : Nat} (ht : t < 8) : (pack8 bits).getLsbD (7 - t) = bits[t]?.getD false := by
  rw [pack8, BitVec.getLsbD_ofNat, decide_eq_true (by omega), Bool.true_and]
  exact packNat_testBit 8 t bits ht

/-- Packed byte `j` is made of the eight bits from bit `8j` on (41_encoder.md R144). -/
theorem packBytes_getElem? {n j : Nat} (hj : j < n) (bits : Bits) :
    (packBytes n bits)[j]? = some (pack8 ((bits.drop (8 * j)).take 8)) := by
  induction n generalizing j bits with
  | zero => omega
  | succ n ih =>
    cases j with
    | zero => rfl
    | succ j =>
      rw [packBytes, List.getElem?_cons_succ, ih (by omega), List.drop_drop, Nat.mul_succ, Nat.add_comm]

/-- Settles O24: the bits of a packed byte are those of its eight bits of the string. -/
theorem packedBytesAreMostSignificantBitFirst : Obligations.PackedBytesAreMostSignificantBitFirst := by
  intro n bits
  refine ⟨packBytes_length n bits, fun j t b hb ht => ?_⟩
  have hj : j < n := packBytes_length n bits ▸ (List.getElem?_eq_some_iff.1 hb).1
  rw [packBytes_getElem? hj, Option.some.injEq] at hb
  rw [← hb, pack8_getLsbD _ ht, List.getElem?_take_of_lt ht, List.getElem?_drop]

end Sys2Proof.Machine
end

section
/-! PROOFS. The frame of the engine: what belongs to the host, and OBUF (20_memory.md R68; 10_state.md R24, R29, R30, R32,
R47, R48). -/

namespace Sys2Proof.Machine

/-- What belongs to the host or comes from outside: IBUF, IN_LEN, IRQ_EN, CMD, WIGN, the part's sizes, the events still to
come and the last response. -/
def State.hostPart (s : State) : Memory × Word × Bool × Bool × Word × Bool × Params × List Event × Option Response :=
  (s.ibuf, s.inLen, s.doneIE, s.errIE, s.cmd, s.wign, s.params, s.events, s.resp)

/-- The run leaves the host's part of the state it began in. -/
def Run.KeepsHost (s : State) (r : Run) : Prop := r.state.hostPart = s.hostPart

/-- Parts of a composite command that keep the host's part keep it together. -/
theorem Run.KeepsHost.andThen {s : State} {r : Run} {f : State → Run} (h : r.KeepsHost s)
    (hf : ∀ t, (f t).KeepsHost t) : (r.andThen f).KeepsHost s :=
  Run.andThen_rel (R := fun a b => b.hostPart = a.hostPart) (fun _ _ _ hab hbc => hbc.trans hab) h hf

/-- BUILD leaves OBUF too, whether it raises or not. -/
theorem buildBody_frame (s : State) : (buildBody s).KeepsHost s ∧ (buildBody s).state.obuf = s.obuf := by
  by_cases h : s.nsym = 0
  · rw [buildBody_empty h]
    exact ⟨rfl, rfl⟩
  · rw [buildBody_some h]
    exact ⟨rfl, rfl⟩

/-- PARSE leaves OBUF too, whether it raises or not. -/
theorem parseBody_frame (s : State) : (parseBody s).KeepsHost s ∧ (parseBody s).state.obuf = s.obuf := by
  cases h : parseContainer s.input with
  | error e =>
    rw [parseBody_error h]
    exact ⟨rfl, rfl⟩
  | ok l =>
    rw [parseBody_ok h]
    exact ⟨rfl, rfl⟩

theorem packBody_keepsHost (s : State) : (packBody s).KeepsHost s := by
  rcases Nat.lt_or_ge s.params.obufBytes s.container.length with h | h
  · rw [packBody_overflows h]
    rfl
  · rw [packBody_fits h]
    rfl

theorem decodeBody_keepsHost (s : State) : (decodeBody s).KeepsHost s := by
  cases h : s.decoded with
  | error e =>
    rw [decodeBody_error h]
    rfl
  | ok out =>
    rw [decodeBody_ok h]
    rfl

theorem compressBody_keepsHost (s : State) : (compressBody s).KeepsHost s :=
  have hcount : (countBody s).KeepsHost s := rfl
  have hgencode : ∀ t, (gencodeBody t).KeepsHost t := fun _ => rfl
  ((hcount.andThen fun t => (buildBody_frame t).1).andThen hgencode).andThen packBody_keepsHost

theorem decompressBody_keepsHost (s : State) : (decompressBody s).KeepsHost s :=
  (parseBody_frame s).1.andThen decodeBody_keepsHost

theorem bodyOf_keepsHost (i : Instr) (s : State) : (bodyOf i s).KeepsHost s :=
  match i with
  | .nop | .count | .gencode | .clear => rfl
  | .build => (buildBody_frame s).1
  | .pack => packBody_keepsHost s
  | .compress => compressBody_keepsHost s
  | .parse => (parseBody_frame s).1
  | .decode => decodeBody_keepsHost s
  | .decompress => decompressBody_keepsHost s

/-- Only PACK, DECODE and the composite commands that end in them write OBUF. -/
theorem bodyOf_obuf {i : Instr} (h : i ∉ [Instr.pack, .compress, .decode, .decompress]) (s : State) :
    (bodyOf i s).state.obuf = s.obuf :=
  match i with
  | .nop | .count | .gencode | .clear => rfl
  | .build => (buildBody_frame s).2
  | .parse => (parseBody_frame s).2
  | .pack | .compress | .decode | .decompress => absurd h (by decide)

/-- Settles O39: a command's completion changes the phase and STATUS, its pseudocode none of the host's part. -/
theorem engineLeavesTheHostStateAlone : Obligations.EngineLeavesTheHostStateAlone := by
  intro i s t hp e
  rw [exec_not_idle i hp, Run.finish_eq, Host.Outcome.next.injEq] at e
  subst e
  have hkeeps := bodyOf_keepsHost i s
  simp only [Run.KeepsHost, State.hostPart, Prod.mk.injEq] at hkeeps
  obtain ⟨hibuf, hinLen, hdoneIE, herrIE, hcmd, hwign, hparams, hevents, hresp⟩ := hkeeps
  exact ⟨hibuf, hinLen, hdoneIE, herrIE, hcmd, hwign, hparams, hevents, hresp, fun hi => bodyOf_obuf hi s⟩

end Sys2Proof.Machine
end

section
/-! PROOFS. The command word (30_encoding.md R92 to R95). -/

namespace Sys2Proof

/-- The word of a command decodes to it (30_encoding.md R95). -/
theorem decode_encode (i : Instr) : decode (encode i) = .ok i := by cases i <;> rfl

/-- Settles O1: decoding and encoding are inverse to each other. -/
theorem decodeAcceptsExactlyTheTenWords : Obligations.DecodeAcceptsExactlyTheTenWords :=
  ⟨fun _ i => ⟨Machine.eq_encode_of_decode, fun h => h ▸ decode_encode i⟩, rfl⟩

/-- Settles O2: the command words are `encode` of their commands, the others are refused by name. -/
theorem specWordsDecodeAsTheTableSays : Obligations.SpecWordsDecodeAsTheTableSays :=
  ⟨decode_encode .nop, decode_encode .build, decode_encode .pack, decode_encode .decode, decode_encode .clear,
    by decide⟩

end Sys2Proof
end

section
/-! PROOFS. The length of the header (30_encoding.md R106). -/

namespace Sys2Proof.Machine

@[simp] theorem asciiCode_length (c : Bits) : (asciiCode c).length = c.length := List.length_map _

theorem entryLine_length (s : Nat) (c : Bits) : (entryLine s c).length = (dec s).length + 1 + c.length + 1 := by
  simp only [entryLine, List.length_append, List.length_singleton, asciiCode_length]

/-- The entry lines are as long as those of the symbols with a code together. -/
theorem entryLines_length (code : Vector Bits 256) :
    (entryLines 0 code.toList).length = ((List.range 256).map fun i =>
      let c := atSymbol code (BitVec.ofNat 8 i)
      if c = [] then 0 else (dec i).length + 1 + c.length + 1).sum := by
  rw [entryLines_eq_flatMap, List.length_flatMap]
  simp only [apply_ite List.length, List.length_nil, entryLine_length]

/-- Settles O22: the three parts of `header`, the entry lines' length from the lemma above. -/
theorem headerLengthIsTheSumOfItsLines : Obligations.HeaderLengthIsTheSumOfItsLines := by
  intro n pad code
  simp only [header, List.length_append, List.length_singleton, entryLines_length]

end Sys2Proof.Machine
end

section
/-! PROOFS. The parser accepts exactly the containers of the grammar (30_encoding.md R101 to R105; 42_decoder.md R160 to
R166). One pass of the line loop takes the padding line or one entry line; the table it carries holds the entries read so
far, which are valid, so an induction over the lines gives both directions. -/

namespace Sys2Proof.Machine

/-! ### Numbers -/

theorem dec_snoc_digit {v k : Nat} (hv : 1 ≤ v) (hv' : v < 100) (hk : k < 10) :
    dec (10 * v + k) = dec v ++ [digit k] := by
  have hdiv : (10 * v + k) / 10 = v := by omega
  have hmod : (10 * v + k) % 10 = k := by omega
  have hdiv' : (10 * v + k) / 100 = v / 10 := by omega
  unfold dec
  rw [if_neg (by omega), hdiv, hmod, hdiv']
  by_cases h : v < 10
  · rw [if_pos (by omega), if_pos h]; rfl
  · rw [if_neg (by omega), if_neg h, if_pos hv']; rfl

theorem lt_of_dec_length_ne_three {v : Nat} (h : (dec v).length ≠ 3) : v < 100 := by
  by_contra hv
  exact h (by rw [dec, if_neg (by omega), if_neg hv]; rfl)

/-- Having read the spelling of `v`, the number loop reads on to the end of the spelling of its result
(42_decoder.md R161). -/
theorem numLoop_dec_ok {v w : Nat} {bytes rest : List Byte} (hv : v ≤ 999)
    (h : numLoop v (dec v).length bytes = .ok (w, rest)) :
    w ≤ 999 ∧ dec v ++ bytes = dec w ++ rest ∧ ∃ (c : Byte) (tail : List Byte), rest = c :: tail ∧ isDigit c = false := by
  induction bytes generalizing v with
  | nil => cases h
  | cons c bytes ih =>
    cases hc : isDigit c with
    | false =>
      rw [numLoop_stop hc, Except.ok.injEq, Prod.mk.injEq] at h
      obtain ⟨rfl, rfl⟩ := h
      exact ⟨hv, rfl, c, bytes, rfl, hc⟩
    | true =>
      obtain ⟨k, hk, rfl⟩ := isDigit_spec hc
      rw [numLoop_digit hk] at h
      split_ifs at h with hlast
      rw [not_or, not_and'] at hlast
      obtain ⟨h3, hzero⟩ := hlast
      have hpos : 1 ≤ v := Nat.one_le_iff_ne_zero.2 fun h0 => hzero h0 (by rw [h0]; rfl)
      have hlt : v < 100 := lt_of_dec_length_ne_three h3
      have hdec := dec_snoc_digit hpos hlt hk
      have := ih (v := 10 * v + k) (by omega) (by rw [hdec]; simpa using h)
      rwa [hdec, List.append_assoc] at this

/-- `parse_num` accepts exactly the spellings of the numbers 0 to 999, a byte that is no digit after them
(42_decoder.md R161; 30_encoding.md R103). -/
theorem parseNum_ok_iff {bytes rest : List Byte} {v : Nat} :
    parseNum bytes = .ok (v, rest) ↔
      v ≤ 999 ∧ bytes = dec v ++ rest ∧ ∃ (c : Byte) (tail : List Byte), rest = c :: tail ∧ isDigit c = false := by
  constructor
  · intro h
    cases bytes with
    | nil => cases h
    | cons b bytes =>
      cases hb : isDigit b with
      | false => simp [parseNum, hb] at h
      | true =>
        obtain ⟨k, hk, rfl⟩ := isDigit_spec hb
        have hdec : dec k = [digit k] := if_pos hk
        rw [parseNum_digit hk] at h
        have := numLoop_dec_ok (v := k) (by omega) (by rw [hdec]; exact h)
        rwa [hdec] at this
  · rintro ⟨hv, rfl, c, tail, rfl, hc⟩
    exact parseNum_dec hv hc tail

/-- A number with a given byte, no digit, after it. -/
theorem parseNum_ok_cons_iff {bytes tail : List Byte} {v : Nat} {c : Byte} (hc : isDigit c = false) :
    parseNum bytes = .ok (v, c :: tail) ↔ v ≤ 999 ∧ bytes = dec v ++ c :: tail := by
  rw [parseNum_ok_iff]
  exact ⟨fun ⟨hv, hb, _⟩ => ⟨hv, hb⟩, fun ⟨hv, hb⟩ => ⟨hv, hb, c, tail, rfl, hc⟩⟩

/-! ### One pass of the line loop -/

/-- The line loop ends at a padding line. -/
theorem linesLoop_padding {fuel v : Nat} {table : Vector Bits 256} {n : Nat} (hv : v ≤ 999) (raw : List Byte) :
    linesLoop (fuel + 1) table n (dec v ++ Ascii.LF :: raw) = .ok ⟨table, n, v, raw⟩ := by
  simp [linesLoop, parseNum_dec hv (show isDigit Ascii.LF = false by decide)]

/-- The line loop takes an entry line whose entry `parse_entry` accepts (42_decoder.md R163, R164). -/
theorem linesLoop_entryText {fuel n : Nat} {table : Vector Bits 256} {e : Byte × Bits} (rest : List Byte)
    (hne : e.2 ≠ []) (hl : e.2.length ≤ 255) (hnew : atSymbol table e.1 = []) (hc : conflicts table e.2 = false) :
    linesLoop (fuel + 1) table n (entryText e ++ rest) = linesLoop fuel (setSymbol table e.1 e.2) (n + 1) rest := by
  have hcode : codeLoop [] (asciiCode e.2 ++ Ascii.LF :: rest) = .ok (e.2, rest) :=
    (codeLoop_ok (by simp)).2 ⟨e.2, rfl, rfl, hne, hl⟩
  have htext : entryText e ++ rest = dec e.1.toNat ++ Ascii.SP :: (asciiCode e.2 ++ Ascii.LF :: rest) := by
    simp [entryText]
  rw [htext, linesLoop_entry, hcode]
  simp only [storeEntry_ok.2 ⟨hnew, hc, rfl⟩]

/-- What the line loop accepts begins with a padding line, where it ends, or with an entry line whose entry
`parse_entry` accepts. -/
theorem linesLoop_succ_ok {fuel n : Nat} {table : Vector Bits 256} {bytes : List Byte} {l : Lines}
    (h : linesLoop (fuel + 1) table n bytes = .ok l) :
    (∃ (v : Nat) (raw : List Byte), v ≤ 999 ∧ bytes = dec v ++ Ascii.LF :: raw ∧ l = ⟨table, n, v, raw⟩) ∨
    ∃ (e : Byte × Bits) (rest : List Byte), bytes = entryText e ++ rest ∧ e.2 ≠ [] ∧ e.2.length ≤ 255 ∧
      atSymbol table e.1 = [] ∧ conflicts table e.2 = false ∧
      linesLoop fuel (setSymbol table e.1 e.2) (n + 1) rest = .ok l := by
  rw [linesLoop] at h
  split at h
  · cases h
  · rename_i v rest hnum
    obtain ⟨hv, rfl, c, tail, rfl, -⟩ := parseNum_ok_iff.1 hnum
    split at h
    · rename_i hlf
      obtain rfl : c = Ascii.LF := by simpa using hlf
      cases h
      exact .inl ⟨v, tail, hv, rfl, rfl⟩
    · split at h
      · cases h
      · rename_i table' rest hentry
        obtain ⟨hsym, code, hline, hne, hl, hnew, hc, rfl⟩ := parseEntry_ok.1 hentry
        have hto : (BitVec.ofNat 8 v).toNat = v := by rw [BitVec.toNat_ofNat]; omega
        refine .inr ⟨(BitVec.ofNat 8 v, code), rest, ?_, hne, hl, hnew, hc, h⟩
        simp [hline, entryText, hto]

/-! ### The entries a table holds -/

/-- The table holds the entries, and no other. -/
structure Holds (table : Vector Bits 256) (es : List (Byte × Bits)) : Prop where
  entry : ∀ e ∈ es, atSymbol table e.1 = e.2
  absent : ∀ b, b ∉ es.map Prod.fst → atSymbol table b = []

theorem Holds.empty : Holds emptyTable [] := ⟨nofun, fun b _ => atSymbol_emptyTable b⟩

theorem Holds.unique {table table' : Vector Bits 256} {es : List (Byte × Bits)} (h : Holds table es)
    (h' : Holds table' es) : table = table' := by
  refine table_ext fun b => ?_
  by_cases hb : b ∈ es.map Prod.fst
  · obtain ⟨e, he, rfl⟩ := List.mem_map.1 hb
    rw [h.entry e he, h'.entry e he]
  · rw [h.absent b hb, h'.absent b hb]

theorem Holds.store {table : Vector Bits 256} {es : List (Byte × Bits)} {e : Byte × Bits} (h : Holds table es)
    (hnew : e.1 ∉ es.map Prod.fst) : Holds (setSymbol table e.1 e.2) (es ++ [e]) where
  entry := by
    intro x hx
    rcases List.mem_append.1 hx with hx | hx
    · have hne : e.1 ≠ x.1 := fun he => hnew (he ▸ List.mem_map_of_mem hx)
      rw [atSymbol_setSymbol_ne _ _ hne, h.entry x hx]
    · rw [List.mem_singleton.1 hx, atSymbol_setSymbol_self]
  absent := by
    intro b hb
    rw [List.map_append, List.mem_append, not_or] at hb
    obtain ⟨hes, he⟩ := hb
    rw [atSymbol_setSymbol_ne _ _ fun heb => he (by simp [heb]), h.absent b hes]

theorem ValidEntries.nil : ValidEntries [] := ⟨.nil, nofun, .nil⟩

theorem ValidEntries.sublist {es es' : List (Byte × Bits)} (h : ValidEntries es) (hs : es'.Sublist es) :
    ValidEntries es' :=
  ⟨h.symbols.sublist (hs.map _), fun e he => h.lengths e (hs.subset he), h.codes.sublist hs⟩

theorem validEntries_snoc {es : List (Byte × Bits)} {e : Byte × Bits} :
    ValidEntries (es ++ [e]) ↔ ValidEntries es ∧ e.1 ∉ es.map Prod.fst ∧ (1 ≤ e.2.length ∧ e.2.length ≤ 255) ∧
      ∀ x ∈ es, ¬ x.2 <+: e.2 ∧ ¬ e.2 <+: x.2 := by
  constructor
  · rintro ⟨hsym, hlen, hcode⟩
    rw [List.map_append, List.nodup_append] at hsym
    rw [List.pairwise_append] at hcode
    obtain ⟨hsym, -, hnew⟩ := hsym
    obtain ⟨hcode, -, hfree⟩ := hcode
    exact ⟨⟨hsym, fun x hx => hlen x (by simp [hx]), hcode⟩, fun he => hnew _ he e.1 (by simp) rfl,
      hlen e (by simp), fun x hx => hfree x hx e (by simp)⟩
  · rintro ⟨⟨hsym, hlen, hcode⟩, hnew, hl, hfree⟩
    refine ⟨?_, ?_, ?_⟩
    · rw [List.map_append, List.nodup_append]
      refine ⟨hsym, by simp, fun a ha b hb => ?_⟩
      obtain rfl : b = e.1 := by simpa using hb
      exact fun hab => hnew (hab ▸ ha)
    · intro x hx
      rcases List.mem_append.1 hx with hx | hx
      · exact hlen x hx
      · rw [List.mem_singleton.1 hx]; exact hl
    · rw [List.pairwise_append]
      refine ⟨hcode, by simp, fun x hx y hy => ?_⟩
      rw [List.mem_singleton.1 hy]; exact hfree x hx

section

variable {table : Vector Bits 256} {es : List (Byte × Bits)} (hv : ValidEntries es) (ht : Holds table es)
include hv ht

/-- A symbol's place in the table is free when no entry has the symbol. -/
theorem Holds.free_iff {b : Byte} : atSymbol table b = [] ↔ b ∉ es.map Prod.fst := by
  refine ⟨fun hb hmem => ?_, ht.absent b⟩
  obtain ⟨e, he, rfl⟩ := List.mem_map.1 hmem
  have hlen := (hv.lengths e he).1
  rw [← ht.entry e he, hb] at hlen
  exact absurd hlen (by decide)

/-- A code conflicts with none of the table when it conflicts with none of the entries. -/
theorem Holds.conflicts_eq_false {c : Bits} :
    conflicts table c = false ↔ ∀ x ∈ es, ¬ x.2 <+: c ∧ ¬ c <+: x.2 := by
  rw [← Bool.not_eq_true, conflicts_eq_true]
  constructor
  · intro h x hx
    have hne : atSymbol table x.1 ≠ [] := fun h0 => (ht.free_iff hv).1 h0 (List.mem_map_of_mem hx)
    rw [← ht.entry x hx]
    exact ⟨fun hp => h ⟨x.1, hne, .inr hp⟩, fun hp => h ⟨x.1, hne, .inl hp⟩⟩
  · rintro h ⟨b, hne, hp⟩
    have hb : b ∈ es.map Prod.fst := not_not.1 fun hb => hne (ht.absent b hb)
    obtain ⟨x, hx, rfl⟩ := List.mem_map.1 hb
    rw [ht.entry x hx] at hp
    exact hp.elim (h x hx).2 (h x hx).1

/-- The checks of `parse_entry` (42_decoder.md R164) are that the entry may follow those of the table. -/
theorem Holds.accepts_iff {e : Byte × Bits} :
    (e.2 ≠ [] ∧ e.2.length ≤ 255 ∧ atSymbol table e.1 = [] ∧ conflicts table e.2 = false) ↔ ValidEntries (es ++ [e]) := by
  rw [validEntries_snoc, ht.free_iff hv, ht.conflicts_eq_false hv, Nat.one_le_iff_ne_zero, ne_eq, ne_eq,
    List.length_eq_zero_iff]
  tauto

end

/-! ### The lines and the container -/

/-- Entry lines and the padding line (30_encoding.md R101), read by a loop that has entered the entries `es`. -/
structure LinesText (es more : List (Byte × Bits)) (n : Nat) (bytes : List Byte) (l : Lines) : Prop where
  text : bytes = more.flatMap entryText ++ (dec l.pad ++ Ascii.LF :: l.raw)
  pad_le : l.pad ≤ 999
  valid : ValidEntries (es ++ more)
  entries : l.entries = n + more.length
  holds : Holds l.table (es ++ more)

theorem linesText_of_linesLoop {fuel n : Nat} {table : Vector Bits 256} {es : List (Byte × Bits)} {bytes : List Byte}
    {l : Lines} (hv : ValidEntries es) (ht : Holds table es) (h : linesLoop fuel table n bytes = .ok l) :
    ∃ more, LinesText es more n bytes l := by
  induction fuel generalizing table es n bytes with
  | zero => cases h
  | succ fuel ih =>
    rcases linesLoop_succ_ok h with ⟨v, raw, hpad, rfl, rfl⟩ | ⟨e, rest, rfl, hne, hl, hnew, hc, h⟩
    · exact ⟨[], rfl, hpad, by simpa using hv, rfl, by simpa using ht⟩
    · have hv' := (ht.accepts_iff hv).1 ⟨hne, hl, hnew, hc⟩
      obtain ⟨more, htext, hpad, hvalid, hn, hholds⟩ := ih hv' (ht.store ((ht.free_iff hv).1 hnew)) h
      rw [List.append_assoc] at hvalid hholds
      exact ⟨e :: more, by simp [htext], hpad, hvalid, by rw [hn, List.length_cons]; omega, hholds⟩

theorem linesLoop_of_linesText {fuel n : Nat} {table : Vector Bits 256} {es more : List (Byte × Bits)}
    {bytes : List Byte} {l : Lines} (hv : ValidEntries es) (ht : Holds table es) (hfuel : bytes.length < fuel)
    (h : LinesText es more n bytes l) : linesLoop fuel table n bytes = .ok l := by
  obtain ⟨rfl, hpad, hvalid, hn, hholds⟩ := h
  induction more generalizing table es n fuel with
  | nil =>
    obtain ⟨fuel, rfl⟩ : ∃ f, fuel = f + 1 := ⟨fuel - 1, by omega⟩
    rw [List.append_nil] at hholds
    obtain rfl := ht.unique hholds
    obtain rfl : l.entries = n := hn
    exact linesLoop_padding hpad l.raw
  | cons e more ih =>
    obtain ⟨fuel, rfl⟩ : ∃ f, fuel = f + 1 := ⟨fuel - 1, by omega⟩
    rw [List.append_cons] at hvalid hholds
    have hv' : ValidEntries (es ++ [e]) := hvalid.sublist (List.sublist_append_left _ _)
    obtain ⟨hne, hl, hnew, hc⟩ := (ht.accepts_iff hv).2 hv'
    have hshort : 1 ≤ (entryText e).length := by simp only [entryText, List.length_append, List.length_cons]; omega
    rw [List.length_cons] at hn
    rw [List.flatMap_cons, List.append_assoc] at hfuel ⊢
    rw [List.length_append] at hfuel
    rw [linesLoop_entryText _ hne hl hnew hc]
    exact ih hv' (ht.store ((ht.free_iff hv).1 hnew)) hvalid (by omega) hholds (by omega)

/-- The line loop from the empty table, with the fuel PARSE gives it, accepts exactly the lines of valid entries and a
padding line. -/
theorem linesLoop_ok_iff {bytes : List Byte} {l : Lines} :
    linesLoop (bytes.length + 1) emptyTable 0 bytes = .ok l ↔ ∃ es, LinesText [] es 0 bytes l :=
  ⟨linesText_of_linesLoop .nil .empty,
    fun ⟨_, h⟩ => linesLoop_of_linesText .nil .empty (Nat.lt_succ_self _) h⟩

theorem parseCountLine_ok_iff {bytes rest : List Byte} {count : Nat} :
    parseCountLine bytes = .ok (count, rest) ↔ bytes = dec count ++ Ascii.LF :: rest ∧ 1 ≤ count ∧ count ≤ 256 := by
  rw [parseCountLine_ok, parseNum_ok_cons_iff (by decide)]
  constructor
  · rintro ⟨⟨-, hb⟩, hcount⟩
    exact ⟨hb, hcount⟩
  · rintro ⟨hb, hcount⟩
    exact ⟨⟨by omega, hb⟩, hcount⟩

/-- A container (30_encoding.md R101 to R105), with the entries of the parser's answer. -/
theorem parseContainer_ok_iff {bytes : List Byte} {l : Lines} :
    parseContainer bytes = .ok l ↔ ∃ es : List (Byte × Bits),
      bytes = dec es.length ++ Ascii.LF :: (es.flatMap entryText ++ (dec l.pad ++ Ascii.LF :: l.raw)) ∧
      1 ≤ es.length ∧ es.length ≤ 256 ∧ ValidEntries es ∧ l.pad ≤ 7 ∧ (l.raw = [] → l.pad = 0) ∧
      l.entries = es.length ∧ Holds l.table es := by
  rw [parseContainer_ok]
  constructor
  · rintro ⟨count, rest, hcount, hlines, hn, hpad, hraw⟩
    obtain ⟨rfl, hpos, hle⟩ := parseCountLine_ok_iff.1 hcount
    obtain ⟨es, rfl, -, hvalid, hlen, hholds⟩ := linesLoop_ok_iff.1 hlines
    obtain rfl : count = es.length := by omega
    exact ⟨es, rfl, hpos, hle, hvalid, hpad, hraw, hn, hholds⟩
  · rintro ⟨es, rfl, hpos, hle, hvalid, hpad, hraw, hn, hholds⟩
    exact ⟨es.length, _, parseCountLine_ok_iff.2 ⟨rfl, hpos, hle⟩,
      linesLoop_ok_iff.2 ⟨es, rfl, by omega, hvalid, by omega, hholds⟩, hn, hpad, hraw⟩

/-- Settles O29: `parseContainer_ok_iff`, with the entries' conditions written out. -/
theorem parserAcceptsExactlyTheGrammar : Obligations.ParserAcceptsExactlyTheGrammar := by
  intro bytes l
  rw [parseContainer_ok_iff]
  unfold entryText
  simp only [List.append_assoc, List.singleton_append]
  refine exists_congr fun es => ⟨?_, ?_⟩
  · rintro ⟨hbytes, hpos, hle, hvalid, hpad, hraw, hn, hholds⟩
    exact ⟨hbytes, hpos, hle, hvalid.symbols, hvalid.lengths, hvalid.codes, hpad, hraw, hn, hholds.entry, hholds.absent⟩
  · rintro ⟨hbytes, hpos, hle, hsym, hlen, hcode, hpad, hraw, hn, hentry, habsent⟩
    exact ⟨hbytes, hpos, hle, ⟨hsym, hlen, hcode⟩, hpad, hraw, hn, ⟨hentry, habsent⟩⟩

end Sys2Proof.Machine
end

section
/-! PROOFS. COUNT (41_encoder.md R121). -/

namespace Sys2Proof.Machine

/-- Settles O10: an input has fewer than 2^32 bytes, so no count wraps. -/
theorem countTakesTheFrequencies : Obligations.CountTakesTheFrequencies := fun s hp =>
  ⟨countTable s.input, countTable_toNat (by rw [State.input_length]; exact s.inLen.isLt), exec_busy .count hp⟩

end Sys2Proof.Machine
end

section
/-! PROOFS. BUILD: the leaves first, the least keys extracted, and the tree the merges make (41_encoder.md R124 to R130). -/

namespace Sys2Proof.Machine

/-! ### The leaves -/

theorem leafNode_toNat (b : Byte) (weight : Word) :
    leafNode b.toNat weight = ⟨true, weight, b, Config.NIL, Config.NIL⟩ := by
  rw [leafNode, BitVec.ofNat_toNat, BitVec.setWidth_eq]

/-- The merge loop only adds nodes after those it began with (41_encoder.md R128). -/
theorem mergeAll_prefix (fuel : Nat) (q : List Cand) (nodes : List Node) : nodes <+: mergeAll fuel q nodes := by
  induction fuel generalizing q nodes with
  | zero => exact List.prefix_rfl
  | succ fuel ih =>
    unfold mergeAll
    split
    · exact List.prefix_rfl
    · split
      · exact List.prefix_rfl
      · exact (List.prefix_append _ _).trans (ih _ _)

/-- The arena begins with the leaves, however many there are (41_encoder.md R124). -/
theorem leafNodes_prefix_buildNodes (freq : Vector Word 256) : leafNodes 0 freq.toList <+: buildNodes freq := by
  unfold buildNodes
  dsimp only
  split
  · rename_i hone
    rw [hone]
    exact List.prefix_append [_] [_]
  · exact mergeAll_prefix _ _ _

/-- Settles O13: the symbols are `presentList`. -/
theorem buildPutsTheLeavesFirst : Obligations.BuildPutsTheLeavesFirst := by
  intro freq
  refine ⟨presentList freq, presentList_ascending freq, mem_presentList freq, fun i b hb => ?_⟩
  have hleaf : (leafNodes 0 freq.toList)[i]? = some (leafNode b.toNat (atSymbol freq b)) := by
    rw [leafNodes_eq, List.getElem?_map, hb, Option.map_some]
  obtain ⟨hi, hget⟩ := List.getElem?_eq_some_iff.1 hleaf
  rw [List.prefix_iff_getElem?.1 (leafNodes_prefix_buildNodes freq) i hi, hget, leafNode_toNat]
  rfl

/-! ### Extraction -/

/-- Settles O14: `leastCand` is a least member, and extraction erases one occurrence of it. -/
theorem extractionTakesTheLeastKey : Obligations.ExtractionTakesTheLeastKey := by
  refine fun q => ⟨extractLeast_eq_none, fun c q' h => ?_⟩
  obtain ⟨hleast, hperm⟩ := extractLeast_perm h
  exact ⟨hperm, fun d hd => leastCand_le hleast d (hperm.mem_iff.2 (List.mem_cons_of_mem _ hd))⟩

/-! ### The tree -/

/-- With one symbol present its leaf and a one-child parent are built (41_encoder.md R127). -/
theorem buildNodes_of_presentSymbols_one {freq : Vector Word 256} (h : presentSymbols freq = 1) :
    ∃ leaf : Node, leaf.leaf = true ∧ buildNodes freq = [leaf, singleNode leaf] := by
  obtain ⟨b, hb⟩ := List.length_eq_one_iff.1 ((presentList_length freq).trans h)
  exact ⟨_, rfl, buildNodes_one hb⟩

/-- With two symbols or more every node but the last is the child of exactly one node (41_encoder.md R130): the last one is
all that is left in the collection. -/
theorem childIndices_buildNodes {freq : Vector Word 256} (h : 2 ≤ presentSymbols freq) :
    (childIndices ((buildNodes freq).drop (presentSymbols freq))).Perm (List.range ((buildNodes freq).length - 1)) := by
  obtain ⟨c, m, hc⟩ := buildNodes_spec h
  have hlen := m.length
  have honce := m.once
  rw [leafNodes_length, List.length_singleton] at hlen
  rw [leafNodes_length, List.map_singleton, hc, List.singleton_append] at honce
  have hrange : (List.range (buildNodes freq).length).Perm
      (((buildNodes freq).length - 1) :: List.range ((buildNodes freq).length - 1)) := by
    rw [show (buildNodes freq).length = (buildNodes freq).length - 1 + 1 by omega, List.range_succ]
    exact List.perm_append_singleton _ _
  exact (honce.trans hrange).cons_inv

/-- Settles O15: the merge loop's invariant `Merging` when one member is left. -/
theorem builtTreeIsAStrictTree : Obligations.BuiltTreeIsAStrictTree := by
  intro freq
  refine ⟨buildNodes_of_presentSymbols_one, fun h => ?_⟩
  obtain ⟨c, m, -⟩ := buildNodes_spec h
  have hlen := m.length
  have hinternal := m.internal
  have hleast := m.least
  rw [leafNodes_length] at hlen hinternal hleast
  have hlen : (buildNodes freq).length = 2 * presentSymbols freq - 1 := by
    rw [List.length_singleton] at hlen; omega
  refine ⟨hlen, hinternal, hleast, ?_⟩
  have hchildren := childIndices_buildNodes h
  rwa [hlen] at hchildren

/-! ### The command -/

/-- Settles O11: BUILD raises, and R207 names what it leaves UNSPEC. -/
theorem buildRefusesAnEmptyTable : Obligations.BuildRefusesAnEmptyTable := fun s hp h =>
  ⟨_, _, _, _, by rw [exec_busy .build hp, bodyOf, buildBody_empty h]; rfl⟩

/-- Settles O12: the arena of the built nodes. -/
theorem buildStoresTheTree : Obligations.BuildStoresTheTree := fun s hp h =>
  ⟨arenaOf (buildNodes s.freq), fun _ => arenaOf_getElem?, by rw [exec_busy .build hp, bodyOf, buildBody_some h]; rfl⟩

end Sys2Proof.Machine
end

section
/-! PROOFS. GENCODE: a leaf's path from the root is its symbol's code (41_encoder.md R133, R134). -/

namespace Sys2Proof.Machine

/-- Settles O16: GENCODE's pseudocode, its counts written out. -/
theorem gencodeStoresTheCodeTable : Obligations.GencodeStoresTheCodeTable := fun _ hp => exec_busy .gencode hp

/-- A leaf at most 255 levels down, reached by the bits `p`, has the symbol `b` (41_encoder.md R133). -/
def LeafPath (nodes : Vector Node 511) (root : BitVec 9) (b : Byte) (p : Bits) : Prop :=
  p.length ≤ 255 ∧ ∃ (i : BitVec 9) (nd : Node), TreePath nodes root p i ∧ nodes[i.toNat]? = some nd ∧
    nd.leaf = true ∧ nd.symbol = b

/-- The entries GENCODE's walk collects are the leaves with their paths. -/
theorem mem_visit_root {nodes : Vector Node 511} {root : BitVec 9} {b : Byte} {p : Bits} :
    (b, p) ∈ visit nodes (Config.maxCodeLen + 1) root [] ↔ LeafPath nodes root b p := by
  simp only [mem_visit, LeafPath, treePath_iff_walk, List.nil_append, Config.maxCodeLen, Prod.mk.injEq]
  constructor
  · rintro ⟨r, i, nd, ⟨rfl, rfl⟩, hlen, hwalk, hnode, hleaf⟩
    exact ⟨by omega, i, nd, hwalk, hnode, hleaf, rfl⟩
  · rintro ⟨hlen, i, nd, hwalk, hnode, hleaf, rfl⟩
    exact ⟨p, i, nd, ⟨rfl, rfl⟩, by omega, hwalk, hnode, hleaf⟩

/-- A symbol some leaf has gets the path of one of its leaves. -/
theorem leafPath_genTable {nodes : Vector Node 511} {root : BitVec 9} {b : Byte} {p : Bits}
    (h : LeafPath nodes root b p) : LeafPath nodes root b (atSymbol (genTable nodes root) b) :=
  mem_visit_root.1 (tableOf_entry (List.mem_map_of_mem (f := Prod.fst) (mem_visit_root.2 h)))

/-- A symbol no leaf has gets no code. -/
theorem genTable_eq_nil {nodes : Vector Node 511} {root : BitVec 9} {b : Byte} (h : ∀ p, ¬ LeafPath nodes root b p) :
    atSymbol (genTable nodes root) b = [] := by
  refine tableOf_not_mem fun hb => ?_
  obtain ⟨⟨_, p⟩, hmem, rfl⟩ := List.mem_map.1 hb
  exact h p (mem_visit_root.1 hmem)

/-- Settles O17: the code is the path of some leaf with the symbol, and there is only one such path. -/
theorem codesAreTheTreePaths : Obligations.CodesAreTheTreePaths := by
  refine fun nodes root => ⟨fun p i nd hpath hnode hleaf hlen honly => ?_, fun b hnone => ?_⟩
  · obtain ⟨-, j, nd', hpath', hnode', hleaf', hsym⟩ := leafPath_genTable ⟨hlen, i, nd, hpath, hnode, hleaf, rfl⟩
    exact honly _ j nd' hpath' hnode' hleaf' hsym
  · exact genTable_eq_nil fun p ⟨_, i, nd, hpath, hnode, hleaf, hsym⟩ => hnone p i nd hpath hnode hleaf hsym

/-! ### The lone symbol -/

theorem presentList_eq_singleton {freq : Vector Word 256} {b : Byte} (h : ∀ c, atSymbol freq c ≠ 0 ↔ c = b) :
    presentList freq = [b] := by
  refine List.perm_singleton.1 ((List.perm_ext_iff_of_nodup (presentList_nodup freq) (List.nodup_singleton b)).2 ?_)
  intro c
  rw [mem_presentList, h, List.mem_singleton]

/-- The walk from a one-child node over a leaf goes LEFT once (41_encoder.md R127, R134). -/
theorem visit_singleNode {arena : Vector Node 511} {root : BitVec 9} {leaf : Node}
    (hroot : arena[root.toNat]? = some (singleNode leaf)) (hleaf : arena[0]? = some leaf) (hl : leaf.leaf = true)
    (depth : Nat) : visit arena (depth + 2) root [] = [(leaf.symbol, [false])] := by
  rw [visit, hroot]
  simp only [singleNode, Bool.false_eq_true, if_false, ne_eq, not_true_eq_false, List.append_nil]
  rw [visit, show (0 : BitVec 9).toNat = 0 from rfl, hleaf]
  simp only [hl, if_true, List.nil_append]

/-- The code table of a tree of one symbol has the one entry "0". -/
theorem genTable_of_singleton {freq : Vector Word 256} {b : Byte} (h : presentList freq = [b]) :
    genTable (arenaOf (buildNodes freq)) (BitVec.ofNat 9 ((buildNodes freq).length - 1)) =
      setSymbol emptyTable b [false] := by
  have hroot : (arenaOf (buildNodes freq))[1]? = some (singleNode (leafNode b.toNat (atSymbol freq b))) := by
    rw [arenaOf_getElem? (by decide), buildNodes_one h]; rfl
  have hleaf : (arenaOf (buildNodes freq))[0]? = some (leafNode b.toNat (atSymbol freq b)) := by
    rw [arenaOf_getElem? (by decide), buildNodes_one h]; rfl
  have hindex : BitVec.ofNat 9 ((buildNodes freq).length - 1) = 1#9 := by rw [buildNodes_one h]; rfl
  rw [hindex, genTable, show Config.maxCodeLen + 1 = 254 + 2 from rfl, visit_singleNode hroot hleaf rfl]
  simp only [tableOf, List.foldl_cons, List.foldl_nil, leafNode_toNat]

/-- A table whose only entry has one bit has the greatest code length 1. -/
theorem tableMaxLen_setSymbol_emptyTable (b : Byte) (c : Bits) : tableMaxLen (setSymbol emptyTable b c) = c.length := by
  apply Nat.le_antisymm
  · refine tableMaxLen_le fun d => ?_
    by_cases hd : b = d <;> simp [atSymbol_setSymbol, hd]
  · simpa using length_le_tableMaxLen (setSymbol emptyTable b c) b

/-- Settles O18: one present symbol gives one entry. -/
theorem loneSymbolGetsCodeZero : Obligations.LoneSymbolGetsCodeZero := by
  intro s b hp hlone hnode hroot
  have hpresent := presentList_eq_singleton hlone
  have hcount : presentSymbols s.freq = 1 := by rw [← presentList_length, hpresent, List.length_singleton]
  refine ⟨genTable s.node s.root, fun c => ?_, ?_⟩
  · rw [hnode, hroot, genTable_of_singleton hpresent, atSymbol_setSymbol, atSymbol_emptyTable]
    simp only [eq_comm]
  · have hsize : tableSize (genTable s.node s.root) = 1 := by
      rw [hnode, hroot, tableSize_genTable hcount.ge, hcount]
    have hmax : tableMaxLen (genTable s.node s.root) = 1 := by
      rw [hnode, hroot, genTable_of_singleton hpresent, tableMaxLen_setSymbol_emptyTable, List.length_singleton]
    rw [exec_busy .gencode hp, bodyOf, gencodeBody]
    simp only [hsize, hmax]
    rfl

end Sys2Proof.Machine
end

section
/-! PROOFS. PACK: the bit total, the padding and the container (41_encoder.md R140 to R145). -/

namespace Sys2Proof.Machine

/-! ### The bit total -/

/-- Settles O19: arithmetic on the total's remainder by 8. -/
theorem paddingFillsTheLastByte : Obligations.PaddingFillsTheLastByte := by
  refine fun freq code => ⟨bitTotal_eq_sum freq code, rfl, ?_⟩
  simp only [padOf]
  omega

/-- A sum over the symbols in order is the sum over the alphabet. -/
theorem sum_symbols (f : Byte → Nat) : ((List.range 256).map fun i => f (BitVec.ofNat 8 i)).sum = ∑ b : Byte, f b := by
  have hinv : ∀ i ∈ Finset.range 256, (BitVec.ofNat 8 i).toNat = i := fun i hi =>
    (BitVec.toNat_ofNat i 8).trans (Nat.mod_eq_of_lt (Finset.mem_range.1 hi))
  have hrange : ∀ (n : Nat) (g : Nat → Nat), ((List.range n).map g).sum = ∑ i ∈ Finset.range n, g i := fun _ _ => rfl
  rw [hrange]
  exact Finset.sum_nbij' (BitVec.ofNat 8) BitVec.toNat (fun _ _ => Finset.mem_univ _)
    (fun b _ => Finset.mem_range.2 b.isLt) hinv (fun b _ => by simp) (fun _ _ => rfl)

/-- A sum over a list counts each byte value as often as it occurs. -/
theorem sum_map_eq_sum_count (bytes : List Byte) (f : Byte → Nat) :
    (bytes.map f).sum = ∑ b : Byte, bytes.count b * f b := by
  rw [Finset.sum_list_map_count]
  refine Finset.sum_subset (Finset.subset_univ _) fun b _ hb => ?_
  rw [List.count_eq_zero_of_not_mem (fun h => hb (List.mem_toFinset.2 h)), zero_smul]

/-- Settles O23: both are the sum over the alphabet of occurrences times code length. -/
theorem bitTotalIsTheStreamLength : Obligations.BitTotalIsTheStreamLength := by
  intro s hcount
  calc (s.input.flatMap (atSymbol s.code)).length
      = (s.input.map fun b => (atSymbol s.code b).length).sum := List.length_flatMap
    _ = ∑ b : Byte, s.input.count b * (atSymbol s.code b).length := sum_map_eq_sum_count _ _
    _ = ∑ b : Byte, (atSymbol s.freq b).toNat * (atSymbol s.code b).length := by simp only [hcount]
    _ = bitTotal s.freq s.code := by
      rw [bitTotal_eq_sum]
      exact (sum_symbols fun b => (atSymbol s.freq b).toNat * (atSymbol s.code b).length).symm

/-! ### The container -/

theorem State.container_length (s : State) : s.container.length =
    (header s.ncode.toNat (padOf (bitTotal s.freq s.code)) s.code).length +
      (bitTotal s.freq s.code + padOf (bitTotal s.freq s.code)) / 8 := by
  rw [State.container, List.length_append, packBytes_length]

/-- A byte of OBUF after bytes are stored from offset 0. -/
theorem obufByte_putBytes {s t : State} {bs : List Byte} (h : t.obuf = s.obuf.putBytes 0 bs) (k : Nat) :
    t.obufByte k = bs[k]?.getD (s.obufByte k) := by
  rw [State.obufByte, h, Memory.putBytes_get?, Memory.putBytes_epoch]
  by_cases hk : k < bs.length
  · simp [hk]
  · simp [hk, State.obufByte]

/-- Settles O20: the container is stored from offset 0. -/
theorem packWritesTheContainer : Obligations.PackWritesTheContainer := by
  intro s hp
  rw [← bitTotal_eq_sum]
  intro total pad hdr bytes hfits
  have hbytes : bytes = s.container := rfl
  have hlen : s.container.length = hdr.length + (total + pad) / 8 := s.container_length
  have hexec := exec_busy .pack hp
  rw [bodyOf, packBody_fits (hlen ▸ hfits), hlen] at hexec
  refine ⟨_, hexec, rfl, fun k b hb => ?_, fun k hk => ?_⟩
  · rw [obufByte_putBytes rfl, ← hbytes, hb, Option.getD_some]
  · rw [obufByte_putBytes rfl, List.getElem?_eq_none (hlen ▸ hk), Option.getD_none]

/-- Settles O21: PACK raises, and R207 names what it leaves UNSPEC. -/
theorem packRefusesAContainerTooLong : Obligations.PackRefusesAContainerTooLong := fun s hp h =>
  ⟨_, _, _, _, _, _, by rw [exec_busy .pack hp, bodyOf, packBody_overflows (s.container_length ▸ h)]; rfl⟩

end Sys2Proof.Machine
end

section
/-! PROOFS. COMPRESS: the four stages in order (41_encoder.md R150; 60_exceptions.md R203). -/

namespace Sys2Proof.Machine

/-- COUNT of an empty input leaves all frequencies zero. -/
theorem countTable_of_inLen_zero {s : State} (h : s.inLen = 0) : countTable s.input = Vector.replicate 256 0 := by
  have hinput : s.input = [] := List.eq_nil_of_length_eq_zero (by rw [State.input_length, h]; rfl)
  rw [hinput]
  rfl

theorem presentSymbols_replicate_zero : presentSymbols (Vector.replicate 256 0) = 0 :=
  (countP_toList_eq_zero _ _).2 fun b => by simp

/-- COMPRESS of an empty input ends in BUILD (41_encoder.md R125, R150). -/
theorem compressBody_empty {s : State} (h : s.inLen = 0) :
    compressBody s = .raised .emptyInput (State.unspecTree { s with
      freq := Vector.replicate 256 0, nsym := 0, freqV := true, treeV := false, codeV := false }) := by
  simp only [compressBody, countBody, Run.andThen_done, countTable_of_inLen_zero h, presentSymbols_replicate_zero]
  rw [buildBody_empty rfl]
  rfl

/-- Settles O26: BUILD raises, and R207 names what it leaves UNSPEC. -/
theorem compressRefusesAnEmptyInput : Obligations.CompressRefusesAnEmptyInput := fun s hp h =>
  ⟨_, _, _, _, by rw [exec_busy .compress hp, bodyOf, compressBody_empty h]; rfl⟩

theorem State.encoded_ncode_toNat (s : State) : s.encoded.ncode.toNat = tableSize s.encoded.code := by
  refine (BitVec.toNat_ofNat _ 9).trans (Nat.mod_eq_of_lt ?_)
  exact (tableSize_le s.encoded.code).trans_lt (by decide)

/-- Settles O27: COMPRESS packs in the state `State.encoded`, whose NCODE is the number of its codes. -/
theorem compressLeavesEveryStageResult : Obligations.CompressLeavesEveryStageResult := by
  intro s hp h freq nodes root code total hdr nout hfits
  have hcontainer : s.encoded.container =
      hdr ++ packBytes ((total + padOf total) / 8) (packedBits code s.input (padOf total)) := by
    rw [State.container, State.encoded_ncode_toNat]; rfl
  have hlen : s.encoded.container.length = nout := by
    rw [hcontainer, List.length_append, packBytes_length]
  rw [exec_busy .compress hp, bodyOf, compressBody_nonempty h, packBody_fits (hlen ▸ hfits), hlen, hcontainer,
    State.encoded_ncode_toNat]
  rfl

/-- PACK reads nothing that its launch changes (60_exceptions.md R204). -/
theorem packBody_launch_finish {s : State} (op : Instr) (he : s.err = false) (hc : s.errcode = 0)
    (hi : s.errinfo = 0) : (packBody (s.launch op)).finish = (packBody s).finish := by
  rcases Nat.lt_or_ge s.params.obufBytes s.container.length with h | h
  · rw [packBody_overflows h, packBody_overflows (s := s.launch op) h]
    rfl
  · rw [packBody_fits h, packBody_fits (s := s.launch op) h]
    simp only [Run.finish_done, State.complete, State.launch_err, State.launch_errcode, State.launch_errinfo, he, hc, hi]
    rfl

/-- Settles O25: BUILD completes only on a non-empty input, and then PACK is launched in `State.encoded`. -/
theorem compressIsTheFourStagesInOrder : Obligations.CompressIsTheFourStagesInOrder := by
  intro s t1 t2 t3 hp he hc hi hcount hbuild herr hgencode
  rw [exec_busy .count hp, Host.Outcome.next.injEq] at hcount
  rw [exec_busy .build (State.launch_phase _ _), Host.Outcome.next.injEq, ← hcount] at hbuild
  rw [exec_busy .gencode (State.launch_phase _ _), Host.Outcome.next.injEq] at hgencode
  simp only [bodyOf] at hbuild
  have hlen : s.inLen ≠ 0 := by
    intro hzero
    have hnone : ((countBody s).finish.launch .build).nsym = 0 := by
      simp only [countBody, Run.finish_done, State.launch_nsym, State.complete_nsym, countTable_of_inLen_zero hzero,
        presentSymbols_replicate_zero]
      rfl
    rw [buildBody_empty hnone] at hbuild
    rw [← hbuild] at herr
    simp only [Run.finish_raised, State.takeError_err, reduceCtorEq] at herr
  have hsome : ((countBody s).finish.launch .build).nsym ≠ 0 := count_nsym_ne_zero hlen
  rw [buildBody_some hsome] at hbuild
  have hlaunch : t3.launch .pack = s.encoded.launch .pack := by
    rw [← hgencode, ← hbuild]
    rfl
  rw [exec_busy .compress hp, exec_busy .pack (State.launch_phase _ _), hlaunch]
  simp only [bodyOf]
  rw [compressBody_nonempty hlen, packBody_launch_finish (s := s.encoded) .pack he hc hi]

end Sys2Proof.Machine
end

section
/-! PROOFS. PARSE: the number lexer, and what the command stores or reports (42_decoder.md R160 to R166). -/

namespace Sys2Proof.Machine

/-- Settles O28: the lexer's own lemma, for every byte string. -/
theorem parseNumAcceptsExactlyCanonicalNumbers : Obligations.ParseNumAcceptsExactlyCanonicalNumbers :=
  fun _ _ _ => parseNum_ok_iff

/-- Settles O30: a parse that succeeds raises nothing. -/
theorem parseStoresTheTable : Obligations.ParseStoresTheTable := fun s l hp h => by
  rw [exec_busy .parse hp, bodyOf, parseBody_ok h]; rfl

/-- Settles O31: PARSE raises the parser's cause, and R207 names what it leaves UNSPEC. -/
theorem parseReportsTheFormatError : Obligations.ParseReportsTheFormatError :=
  ⟨rfl, fun s e hp h => ⟨_, _, _, _, _, _, _, by rw [exec_busy .parse hp, bodyOf, parseBody_error h]; rfl⟩⟩

end Sys2Proof.Machine
end

section
/-! PROOFS. The bits of packed bytes: the stream DECODE reads, and the bytes PACK writes read back (20_memory.md R66;
42_decoder.md R171). -/

namespace Sys2Proof.Machine

/-- Settles O32: the bytes of `streamBits` are just enough for its bits. -/
theorem streamBitsAreMostSignificantBitFirst : Obligations.StreamBitsAreMostSignificantBitFirst := by
  intro s k n
  have henough : n ≤ 8 * (s.ibufBytes k ((n + 7) / 8)).length := by rw [State.ibufBytes_length]; omega
  refine ⟨?_, fun j hj => ?_⟩
  · rw [State.streamBits, List.length_take, flatMap_byteBits_length, Nat.min_eq_left henough]
  · rw [State.streamBits, List.getElem?_take_of_lt hj, flatMap_byteBits_getElem? _ _ (hj.trans_le henough),
      State.ibufBytes_getElem? s (by omega), Option.map_some]

/-- Packing eight bits into a byte loses none (20_memory.md R66). -/
theorem byteBits_pack8 {bits : Bits} (h : bits.length = 8) : byteBits (pack8 bits) = bits := by
  refine List.ext_getElem (by simp [byteBits, h]) fun t ht ht' => ?_
  simp only [byteBits, List.getElem_map, List.getElem_range]
  rw [pack8_getLsbD bits (h ▸ ht'), List.getElem?_eq_getElem ht', Option.getD_some]

/-- Packing whole bytes of bits loses none (41_encoder.md R144). -/
theorem flatMap_byteBits_packBytes {n : Nat} {bits : Bits} (h : bits.length = 8 * n) :
    (packBytes n bits).flatMap byteBits = bits := by
  induction n generalizing bits with
  | zero => exact (List.eq_nil_of_length_eq_zero h).symm
  | succ n ih =>
    rw [packBytes, List.flatMap_cons, byteBits_pack8 (by rw [List.length_take]; omega),
      ih (by rw [List.length_drop]; omega), List.take_append_drop]

end Sys2Proof.Machine
end

section
/-! PROOFS. DECODE on a `PrefixFree` table: whole codes are emitted, then the first error in bit order is reported
(42_decoder.md R170 to R174). -/

namespace Sys2Proof.Machine

/-- A stream of whole codes decodes to their symbols (42_decoder.md R170). -/
theorem decodeLoop_flatMap {table : Vector Bits 256} (hp : PrefixFree table) {cap : Nat} {syms : List Byte}
    (hs : ∀ b ∈ syms, atSymbol table b ≠ []) (hcap : syms.length ≤ cap) :
    decodeLoop table cap 0 [] (syms.flatMap (atSymbol table)) = .ok syms := by
  have h := decodeLoop_codes hp (cap := cap) syms hs (o := 0) (by omega) []
  rw [List.append_nil] at h
  rw [h, decodeLoop, if_pos rfl]
  exact congrArg Except.ok (List.append_nil syms)

/-- Settles O33: the symbols are stored from offset 0. -/
theorem decodeEmitsTheSymbols : Obligations.DecodeEmitsTheSymbols := by
  intro s syms hp hfree hs hcap hstream
  have hdecoded : s.decoded = .ok syms := by
    rw [State.decoded, hstream]
    exact decodeLoop_flatMap hfree hs hcap
  have hexec := exec_busy .decode hp
  rw [bodyOf, decodeBody_ok hdecoded] at hexec
  refine ⟨_, hexec, rfl, fun k b hb => ?_, fun k hk => ?_⟩
  · rw [obufByte_putBytes rfl, hb, Option.getD_some]
  · rw [obufByte_putBytes rfl, List.getElem?_eq_none hk, Option.getD_none]

section

variable {table : Vector Bits 256} (hp : PrefixFree table) {cap : Nat}
include hp

/-- A non-empty proper beginning of a code at the end of the stream is left over (42_decoder.md R174). -/
theorem decodeLoop_leftover {o : Nat} {b : Byte} {tail more : Bits} {x : Bool} (hne : tail ≠ [])
    (hb : atSymbol table b = tail ++ x :: more) : decodeLoop table cap o [] tail = .error .leftover := by
  have h := decodeLoop_through hp (cap := cap) (o := o) tail [] hb []
  rw [List.append_nil, List.nil_append] at h
  rw [h, decodeLoop, if_neg hne]

/-- The bit after which no code begins with the candidate is dead (42_decoder.md R173). -/
theorem decodeLoop_dead {o : Nat} {u rest : Bits} {x : Bool}
    (hu : u = [] ∨ ∃ (b : Byte) (y : Bool) (more : Bits), atSymbol table b = u ++ y :: more)
    (hx : ∀ b : Byte, ¬ (u ++ [x]) <+: atSymbol table b) :
    decodeLoop table cap o [] (u ++ x :: rest) = .error .dead := by
  have hthrough : decodeLoop table cap o [] (u ++ x :: rest) = decodeLoop table cap o u (x :: rest) := by
    rcases hu with rfl | ⟨b, y, more, hb⟩
    · rfl
    · exact decodeLoop_through hp u [] hb (x :: rest)
  have hnone : matchCode table (u ++ [x]) = none :=
    matchCode_none.2 fun b => .inr fun hb => hx b (hb ▸ List.prefix_rfl)
  have hdead : isLive table (u ++ [x]) = false := (isLive_false (by simp)).2 hx
  rw [hthrough, decodeLoop, hnone]
  simp only [hdead, Bool.false_eq_true, if_false]

/-- A whole code with the output full does not fit (42_decoder.md R170, R174). -/
theorem decodeLoop_full {b : Byte} {tail : Bits} (hb : atSymbol table b ≠ []) (ht : atSymbol table b <+: tail) :
    decodeLoop table cap cap [] tail = .error .capacityOut := by
  obtain ⟨rest, rfl⟩ := ht
  rw [decodeLoop_code hp hb, if_pos rfl]

end

/-- DECODE raises the loop's error, and R207 names what it leaves UNSPEC. -/
theorem exec_decode_error {s : State} {e : Error} (hp : s.phase = .busy .decode) (h : s.decoded = .error e) :
    ∃ (obuf : Memory) (outLen : Word) (draw : Nat),
      exec .decode s = .next { s with
        obuf := obuf, outLen := outLen, draw := draw
        phase := .idle, done := true, err := true, errcode := e.code, errinfo := e.info } :=
  ⟨_, _, _, by rw [exec_busy .decode hp, bodyOf, decodeBody_error h]; rfl⟩

/-- Settles O34: the loop passes the whole codes, then each tail has its error. -/
theorem decodeReportsTheFirstError : Obligations.DecodeReportsTheFirstError := by
  intro s syms tail hp hfree hs hcap hstream
  have herror {e : Error} (h : decodeLoop s.code s.params.obufBytes syms.length [] tail = .error e) :
      s.decoded = .error e := by
    rw [State.decoded, hstream, decodeLoop_codes hfree syms hs (by omega), Nat.zero_add, h]; rfl
  refine ⟨fun b x more hne hb => ?_, fun u rest x ht hu hx => ?_, fun b hfull hne hb => ?_⟩
  · exact exec_decode_error hp (herror (decodeLoop_leftover hfree hne hb))
  · exact exec_decode_error hp (herror (ht ▸ decodeLoop_dead hfree hu hx))
  · rw [hfull] at herror
    exact exec_decode_error hp (herror (decodeLoop_full hfree hne hb))

end Sys2Proof.Machine
end

section
/-! PROOFS. DECOMPRESS: PARSE, and then DECODE of the raw section, which is the end of the input (42_decoder.md R165,
R180; 60_exceptions.md R203). -/

namespace Sys2Proof.Machine

/-- What a successful PARSE leaves, before the command's completion (42_decoder.md R165). -/
def State.parsed (s : State) (l : Lines) : State :=
  { s with
    code := l.table, ncode := BitVec.ofNat 9 l.entries, maxlen := BitVec.ofNat 8 (tableMaxLen l.table)
    pad := BitVec.ofNat 3 l.pad, hdrLen := BitVec.ofNat 32 (s.inLen.toNat - l.raw.length)
    totalBits := BitVec.ofNat 32 (8 * l.raw.length - l.pad), csrc := true, codeV := true }

theorem parseBody_parsed {s : State} {l : Lines} (h : parseContainer s.input = .ok l) :
    parseBody s = .done (s.parsed l) := parseBody_ok h

theorem decompressBody_parsed {s : State} {l : Lines} (h : parseContainer s.input = .ok l) :
    decompressBody s = decodeBody (s.parsed l) := by
  rw [decompressBody, parseBody_parsed h, Run.andThen_done]

theorem decompressBody_error {s : State} {e : FormatError} (h : parseContainer s.input = .error e) :
    decompressBody s = parseBody s := by
  rw [decompressBody, parseBody_error h, Run.andThen_raised]

/-- DECODE reads nothing that a completion and a launch change (60_exceptions.md R204, R206). -/
theorem decodeBody_launch_finish {s : State} (op : Instr) (he : s.err = false) (hc : s.errcode = 0)
    (hi : s.errinfo = 0) : (decodeBody (s.complete.launch op)).finish = (decodeBody s).finish := by
  cases h : s.decoded with
  | error e =>
    rw [decodeBody_error h, decodeBody_error (s := s.complete.launch op) h]
    rfl
  | ok out =>
    rw [decodeBody_ok h, decodeBody_ok (s := s.complete.launch op) h]
    simp only [Run.finish_done, State.complete, State.launch, he, hc, hi]

/-- Settles O35: by whether the input parses. -/
theorem decompressIsParseThenDecode : Obligations.DecompressIsParseThenDecode := by
  intro s t1 hp he hc hi hparse
  rw [exec_busy .parse hp, Host.Outcome.next.injEq] at hparse
  simp only [bodyOf] at hparse
  rw [exec_busy .decompress hp, exec_busy .decode (State.launch_phase _ _)]
  simp only [bodyOf]
  cases hl : parseContainer s.input with
  | error e =>
    have herr : t1.err = true := by rw [← hparse, parseBody_error hl]; rfl
    rw [decompressBody_error hl, hparse]
    exact ⟨fun hno => absurd (herr.symm.trans hno) (by decide), fun _ => rfl⟩
  | ok l =>
    obtain rfl : (s.parsed l).complete = t1 := by rw [← hparse, parseBody_parsed hl]; rfl
    have hno : (s.parsed l).complete.err = false := he
    rw [decompressBody_parsed hl, decodeBody_launch_finish (s := s.parsed l) .decode he hc hi]
    exact ⟨fun _ => rfl, fun herr => absurd (herr.symm.trans hno) (by decide)⟩

/-! ### The raw section in IBUF -/

theorem State.ibufBytes_add (s : State) (k m n : Nat) :
    s.ibufBytes k (m + n) = s.ibufBytes k m ++ s.ibufBytes (k + m) n := by
  simp only [State.ibufBytes, List.range_add, List.map_append, List.map_map, Function.comp_def, Nat.add_assoc]

/-- The end of the input stands in IBUF behind what comes before it. -/
theorem State.ibufBytes_of_input_eq_append {s : State} {front raw : List Byte} (h : s.input = front ++ raw) :
    s.ibufBytes front.length raw.length = raw := by
  have hlen : s.inLen.toNat = front.length + raw.length := by rw [← State.input_length, h, List.length_append]
  rw [State.input, hlen, State.ibufBytes_add, Nat.zero_add] at h
  exact (List.append_inj h (State.ibufBytes_length _ _ _)).2

/-- After PARSE, DECODE's stream is the raw section without its padding (42_decoder.md R165, R171). -/
theorem State.parsed_streamBits {s : State} {l : Lines} (hwf : s.params.wf = true)
    (hin : s.inLen.toNat ≤ s.params.ibufBytes) (h : parseContainer s.input = .ok l) :
    (s.parsed l).streamBits (s.parsed l).hdrLen.toNat (s.parsed l).totalBits.toNat =
      (l.raw.flatMap byteBits).take (8 * l.raw.length - l.pad) := by
  obtain ⟨front, hfront⟩ := parseContainer_raw h
  obtain ⟨-, -, -, -, -, hpad, -⟩ := parseContainer_ok.1 h
  obtain ⟨-, hibuf, -, -⟩ := params_bounds hwf
  have hlen : s.inLen.toNat = front.length + l.raw.length := by rw [← State.input_length, hfront, List.length_append]
  have hhdr : (s.parsed l).hdrLen.toNat = front.length := by
    simp only [State.parsed, BitVec.toNat_ofNat]; omega
  have hbits : (s.parsed l).totalBits.toNat = 8 * l.raw.length - l.pad := by
    simp only [State.parsed, BitVec.toNat_ofNat]; omega
  have hbytes : (8 * l.raw.length - l.pad + 7) / 8 = l.raw.length := by omega
  rw [hhdr, hbits, State.streamBits, hbytes, State.ibufBytes_of_input_eq_append (s := s.parsed l) hfront]

theorem State.parsed_decoded {s : State} {l : Lines} (hwf : s.params.wf = true)
    (hin : s.inLen.toNat ≤ s.params.ibufBytes) (h : parseContainer s.input = .ok l) :
    (s.parsed l).decoded =
      decodeLoop l.table s.params.obufBytes 0 [] ((l.raw.flatMap byteBits).take (8 * l.raw.length - l.pad)) := by
  rw [State.decoded, State.parsed_streamBits hwf hin h]
  rfl

/-- Settles O36: DECODE of the state PARSE leaves. -/
theorem decompressLeavesTableAndOutput : Obligations.DecompressLeavesTableAndOutput := by
  intro s l out hp hwf hin hparse hdecode
  have hdecoded := (State.parsed_decoded hwf hin hparse).trans hdecode
  rw [exec_busy .decompress hp, bodyOf, decompressBody_parsed hparse, decodeBody_ok hdecoded]
  rfl

/-- Settles O37: DECODE of the state PARSE leaves raises, and R207 names what it leaves UNSPEC. -/
theorem decompressKeepsTheTableAfterADecodeError : Obligations.DecompressKeepsTheTableAfterADecodeError := by
  intro s l e hp hwf hin hparse hdecode
  have hdecoded := (State.parsed_decoded hwf hin hparse).trans hdecode
  have hexec := exec_busy .decompress hp
  rw [bodyOf, decompressBody_parsed hparse, decodeBody_error hdecoded] at hexec
  exact ⟨_, _, _, hexec⟩

end Sys2Proof.Machine
end

section
/-! PROOFS. The parser reports the first violation in reading order (42_decoder.md R161 to R166; 60_exceptions.md R203):
in a number, in the code of an entry line, in an entry line or the padding line, and, by induction over the lines, in
a container. -/

namespace Sys2Proof.Machine

/-! ### Numbers -/

/-- `parse_num` on the spelling of a number: the loop stands behind it. -/
theorem parseNum_dec_append {v : Nat} (hv : v ≤ 999) (rest : List Byte) :
    parseNum (dec v ++ rest) = numLoop v (dec v).length rest := by
  unfold dec
  split_ifs with h1 h2 <;> simp only [List.cons_append, List.nil_append, List.length_cons, List.length_nil]
  · rw [parseNum_digit h1]
  · rw [parseNum_digit (by omega), numLoop_digit (by omega), if_neg (by omega)]
    congr 1; omega
  · rw [parseNum_digit (by omega), numLoop_digit (by omega), if_neg (by omega), numLoop_digit (by omega),
      if_neg (by omega)]
    congr 1; omega

theorem dec_length_eq_three {v : Nat} : (dec v).length = 3 ↔ 100 ≤ v := by
  unfold dec
  split_ifs <;> simp <;> omega

/-- Having read the spelling of `v`, the number loop fails where the number has a violation (42_decoder.md R161). -/
theorem numberViolation_of_numLoop {v : Nat} {bytes : List Byte} {e : FormatError} (hv : v ≤ 999)
    (h : numLoop v (dec v).length bytes = .error e) : NumberViolation (dec v ++ bytes) e := by
  induction bytes generalizing v with
  | nil =>
    cases h
    rw [List.append_nil]
    exact .ends hv
  | cons c bytes ih =>
    cases hc : isDigit c with
    | false =>
      rw [numLoop_stop hc] at h
      cases h
    | true =>
      obtain ⟨k, hk, rfl⟩ := isDigit_spec hc
      rw [numLoop_digit hk] at h
      split_ifs at h with hlast
      · cases h
        rcases hlast with h3 | ⟨-, rfl⟩
        · exact .fourthDigit (dec_length_eq_three.1 h3) hv hc
        · exact .leadingZero hc
      · rw [not_or, dec_length_eq_three, not_and'] at hlast
        obtain ⟨h3, hzero⟩ := hlast
        have hpos : 1 ≤ v := Nat.one_le_iff_ne_zero.2 fun h0 => hzero h0 (by rw [h0]; rfl)
        have hdec := dec_snoc_digit hpos (by omega) hk
        have := ih (v := 10 * v + k) (by omega) (by rw [hdec]; simpa using h)
        rwa [hdec, List.append_assoc] at this

theorem NumberViolation.parseNum_error {bytes : List Byte} {e : FormatError} (h : NumberViolation bytes e) :
    parseNum bytes = .error e := by
  cases h with
  | missing => rfl
  | @ends v hv =>
    rw [← List.append_nil (dec v), parseNum_dec_append hv]
    rfl
  | noDigit hc => rw [parseNum, if_neg (by simp [hc])]
  | @leadingZero c rest hc =>
    obtain ⟨k, hk, rfl⟩ := isDigit_spec hc
    have hzero : Ascii.zero :: digit k :: rest = dec 0 ++ digit k :: rest := rfl
    rw [hzero, parseNum_dec_append (by decide), numLoop_digit hk, if_pos (.inr ⟨rfl, rfl⟩)]
  | fourthDigit hv hv' hc =>
    obtain ⟨k, hk, rfl⟩ := isDigit_spec hc
    rw [parseNum_dec_append hv', numLoop_digit hk, if_pos (.inl (dec_length_eq_three.2 hv))]

/-- `parse_num` fails with the violation of the number (42_decoder.md R161). -/
theorem parseNum_error_iff {bytes : List Byte} {e : FormatError} :
    parseNum bytes = .error e ↔ NumberViolation bytes e := by
  refine ⟨fun h => ?_, NumberViolation.parseNum_error⟩
  cases bytes with
  | nil => cases h; exact .missing
  | cons c rest =>
    cases hc : isDigit c with
    | false =>
      rw [parseNum, if_neg (by simp [hc])] at h
      cases h
      exact .noDigit hc
    | true =>
      obtain ⟨k, hk, rfl⟩ := isDigit_spec hc
      have hdec : dec k = [digit k] := if_pos hk
      rw [parseNum_digit hk] at h
      have := numberViolation_of_numLoop (v := k) (by omega) (by rw [hdec]; exact h)
      rwa [hdec] at this

/-! ### Codes -/

theorem asciiCode_append (c d : Bits) : asciiCode (c ++ d) = asciiCode c ++ asciiCode d := List.map_append

/-- A code character is the text of the bit it stands for (30_encoding.md R104). -/
theorem asciiCode_singleton {b : Byte} (h : ¬ (b ≠ Ascii.zero ∧ b ≠ Ascii.one)) :
    asciiCode [decide (b = Ascii.one)] = [b] := by
  by_cases h1 : b = Ascii.one
  · rw [h1]; rfl
  · obtain rfl : b = Ascii.zero := by tauto
    rfl

/-- Having read the code `c`, the code loop fails where the entry line has a violation (42_decoder.md R163). -/
theorem lineViolation_of_codeLoop {c : Bits} {bytes : List Byte} {e : FormatError} (hc : c.length ≤ 255)
    (h : codeLoop c bytes = .error e) (count : Nat) (es : List (Byte × Bits)) (s : Byte) :
    LineViolation count es (dec s.toNat ++ Ascii.SP :: (asciiCode c ++ bytes)) e := by
  induction bytes generalizing c with
  | nil =>
    cases h
    rw [List.append_nil]
    exact .codeEnds hc
  | cons b bytes ih =>
    rw [codeLoop] at h
    split_ifs at h with hlf hnil hbit hlen
    · cases h
      subst hlf hnil
      have := LineViolation.emptyCode (count := count) (es := es) (s := s) (rest := bytes)
      simpa [entryText] using this
    · cases h
      exact .codeCharacter hc hlf hbit.1 hbit.2
    all_goals
      have hsnoc : asciiCode c ++ b :: bytes = asciiCode (c ++ [decide (b = Ascii.one)]) ++ bytes := by
        rw [asciiCode_append, asciiCode_singleton hbit, List.append_cons]
      rw [hsnoc]
    · cases h
      exact .codeTooLong (by rw [List.length_append, hlen]; rfl)
    · have hlen : c.length ≠ 255 := hlen
      exact ih (by rw [List.length_append, List.length_singleton]; omega) h

/-! ### One pass of the line loop -/

theorem entryText_length_pos (x : Byte × Bits) : 1 ≤ (entryText x).length := by
  rw [entryText, List.length_append, List.length_cons]
  omega

theorem length_le_flatMap_entryText (es : List (Byte × Bits)) : es.length ≤ (es.flatMap entryText).length := by
  induction es with
  | nil => exact Nat.le_refl _
  | cons x es ih =>
    have := entryText_length_pos x
    rw [List.flatMap_cons, List.length_append, List.length_cons]
    omega

theorem entryText_append (s : Byte) (c : Bits) (rest : List Byte) :
    entryText (s, c) ++ rest = dec s.toNat ++ Ascii.SP :: (asciiCode c ++ Ascii.LF :: rest) := by
  simp [entryText]

/-- An entry the table refuses is a violation (42_decoder.md R164). -/
theorem lineViolation_of_storeEntry {table : Vector Bits 256} {es : List (Byte × Bits)} (hv : ValidEntries es)
    (ht : Holds table es) {s : Byte} {c : Bits} {e : FormatError} (hne : c ≠ []) (hl : c.length ≤ 255)
    (h : storeEntry table s c = .error e) (count : Nat) (rest : List Byte) :
    LineViolation count es (entryText (s, c) ++ rest) e := by
  have hpos : 1 ≤ c.length := List.length_pos_iff.2 hne
  unfold storeEntry at h
  split_ifs at h with hnew hconf
  · cases h
    exact .dupSymbol hpos hl (not_not.1 fun hs => hnew ((ht.free_iff hv).2 hs))
  · cases h
    refine .prefixConflict hpos hl ((ht.free_iff hv).1 (not_not.1 hnew)) ?_
    by_contra hno
    rw [(ht.conflicts_eq_false hv).2 fun x hx =>
      ⟨fun hp => hno ⟨x, hx, .inr hp⟩, fun hp => hno ⟨x, hx, .inl hp⟩⟩] at hconf
    cases hconf

theorem lineViolation_of_parseEntry {table : Vector Bits 256} {es : List (Byte × Bits)} (hv : ValidEntries es)
    (ht : Holds table es) {v : Nat} {b : Byte} {tail : List Byte} {e : FormatError} (hle : v ≤ 999)
    (hb : isDigit b = false) (hlf : b ≠ Ascii.LF) (h : parseEntry table v (b :: tail) = .error e) (count : Nat) :
    LineViolation count es (dec v ++ b :: tail) e := by
  by_cases hsp : b = Ascii.SP
  · subst hsp
    simp only [parseEntry, expectByte, if_true, bind, Except.bind] at h
    split_ifs at h with hsym
    · cases h
      exact .symbol hsym hle
    · have hto : dec v = dec (BitVec.ofNat 8 v).toNat := by rw [BitVec.toNat_ofNat, Nat.mod_eq_of_lt (by omega)]
      rw [hto]
      cases hcode : codeLoop [] tail with
      | error e' =>
        simp only [hcode] at h
        cases h
        exact lineViolation_of_codeLoop (by simp) hcode count es _
      | ok x =>
        obtain ⟨c, rest⟩ := x
        obtain ⟨_, rfl, rfl, hne, hl⟩ := (codeLoop_ok (by simp)).1 hcode
        simp only [hcode] at h
        cases hstore : storeEntry table (BitVec.ofNat 8 v) c with
        | error e' =>
          simp only [hstore] at h
          cases h
          rw [← entryText_append]
          exact lineViolation_of_storeEntry hv ht hne hl hstore count rest
        | ok table' =>
          simp only [hstore] at h
          cases h
  · simp only [parseEntry, expectByte, if_neg hsp, bind, Except.bind] at h
    cases h
    exact .separator hle hb hlf hsp

/-- Where the line loop fails, the line has a violation, or it is an entry line whose entry `parse_entry` accepts. -/
theorem linesLoop_succ_error {fuel n : Nat} {table : Vector Bits 256} {es : List (Byte × Bits)} {bytes : List Byte}
    {e : FormatError} (hv : ValidEntries es) (ht : Holds table es)
    (h : linesLoop (fuel + 1) table n bytes = .error e) (count : Nat) :
    LineViolation count es bytes e ∨
    ∃ (x : Byte × Bits) (rest : List Byte), bytes = entryText x ++ rest ∧ ValidEntries (es ++ [x]) ∧
      Holds (setSymbol table x.1 x.2) (es ++ [x]) ∧
      linesLoop fuel (setSymbol table x.1 x.2) (n + 1) rest = .error e := by
  rw [linesLoop] at h
  split at h
  · rename_i hnum
    cases h
    exact .inl (.number (parseNum_error_iff.1 hnum))
  · rename_i v rest hnum
    obtain ⟨hle, rfl, b, tail, rfl, hb⟩ := parseNum_ok_iff.1 hnum
    split at h
    · cases h
    · rename_i hlf
      split at h
      · rename_i hentry
        cases h
        exact .inl (lineViolation_of_parseEntry hv ht hle hb (by simpa using hlf) hentry count)
      · rename_i table' rest hentry
        obtain ⟨hsym, c, hline, hne, hl, hnew, hc, rfl⟩ := parseEntry_ok.1 hentry
        have hto : (BitVec.ofNat 8 v).toNat = v := by rw [BitVec.toNat_ofNat]; omega
        refine .inr ⟨(BitVec.ofNat 8 v, c), rest, ?_, (ht.accepts_iff hv).1 ⟨hne, hl, hnew, hc⟩,
          ht.store ((ht.free_iff hv).1 hnew), h⟩
        rw [entryText_append, hline, hto]

/-- A violation of the padding line (42_decoder.md R165). -/
theorem lineViolation_of_checkLines {count : Nat} {es : List (Byte × Bits)} {l : Lines} {e : FormatError}
    (hpad : l.pad ≤ 999) (hn : l.entries = es.length) (h : checkLines count l = .error e) :
    LineViolation count es (dec l.pad ++ Ascii.LF :: l.raw) e := by
  unfold checkLines at h
  rw [hn] at h
  split_ifs at h with hcount hbig hraw
  · cases h
    exact .countMismatch hpad hcount
  · cases h
    exact .badPad (not_not.1 hcount) hbig hpad
  · cases h
    rw [List.eq_nil_of_length_eq_zero hraw.1]
    exact .padNoData (not_not.1 hcount) (Nat.one_le_iff_ne_zero.2 hraw.2) (by omega)

/-- A violation in the code of an entry line stops the line loop. -/
theorem linesLoop_code_error {fuel n : Nat} {table : Vector Bits 256} {s : Byte} {bytes : List Byte} {e : FormatError}
    (h : codeLoop [] bytes = .error e) :
    linesLoop (fuel + 1) table n (dec s.toNat ++ Ascii.SP :: bytes) = .error e := by
  rw [linesLoop_entry, h]

/-- An entry the table refuses (42_decoder.md R164) stops the line loop. -/
theorem linesLoop_store_error {fuel n : Nat} {table : Vector Bits 256} {s : Byte} {c : Bits} {rest : List Byte}
    {e : FormatError} (hpos : 1 ≤ c.length) (hl : c.length ≤ 255) (h : storeEntry table s c = .error e) :
    linesLoop (fuel + 1) table n (entryText (s, c) ++ rest) = .error e := by
  have hcode : codeLoop [] (asciiCode c ++ Ascii.LF :: rest) = .ok (c, rest) :=
    (codeLoop_ok (by simp)).2 ⟨c, rfl, rfl, List.length_pos_iff.1 hpos, hl⟩
  rw [entryText_append, linesLoop_entry, hcode]
  simp only [h]

/-- The 256th character of a code is one too many (42_decoder.md R163). -/
theorem codeLoop_tooLong {c : Bits} (h : c.length = 256) (rest : List Byte) :
    codeLoop [] (asciiCode c ++ rest) = .error .codeTooLong := by
  obtain ⟨c', x, rfl⟩ : ∃ c' x, c = c' ++ [x] :=
    ⟨_, _, (List.dropLast_append_getLast (List.length_pos_iff.1 (by omega))).symm⟩
  rw [List.length_append, List.length_singleton] at h
  obtain ⟨b, hb, hlf, hbit⟩ : ∃ b, asciiCode [x] = [b] ∧ b ≠ Ascii.LF ∧ ¬ (b ≠ Ascii.zero ∧ b ≠ Ascii.one) := by
    cases x
    · exact ⟨_, rfl, by decide⟩
    · exact ⟨_, rfl, by decide⟩
  rw [asciiCode_append, hb, List.append_assoc, codeLoop_code (by simp; omega), List.singleton_append, codeLoop,
    if_neg hlf, if_neg hbit]
  exact if_pos (by simpa [Config.maxCodeLen] using h)

section

variable {count : Nat} {table : Vector Bits 256} {es : List (Byte × Bits)} (hv : ValidEntries es) (ht : Holds table es)
include hv ht

theorem storeEntry_dupSymbol {s : Byte} {c : Bits} (hs : s ∈ es.map Prod.fst) :
    storeEntry table s c = .error .dupSymbol := by
  rw [storeEntry, if_pos fun h => (ht.free_iff hv).1 h hs]

theorem storeEntry_prefixConflict {s : Byte} {c : Bits} (hs : s ∉ es.map Prod.fst)
    (hp : ∃ x ∈ es, c <+: x.2 ∨ x.2 <+: c) : storeEntry table s c = .error .prefixConflict := by
  have hconf : conflicts table c = true := by
    obtain ⟨x, hx, hp⟩ := hp
    by_contra hno
    obtain ⟨h1, h2⟩ := (ht.conflicts_eq_false hv).1 (Bool.not_eq_true _ ▸ hno) x hx
    exact hp.elim h2 h1
  rw [storeEntry, if_neg (not_not.2 ((ht.free_iff hv).2 hs)), if_pos hconf]

/-- A line with a violation stops the line loop, or is a padding line that does not pass the checks. -/
theorem LineViolation.lines_error {fuel : Nat} {bytes : List Byte} {e : FormatError} (h : LineViolation count es bytes e) :
    linesLoop (fuel + 1) table es.length bytes = .error e ∨
      ∃ l, linesLoop (fuel + 1) table es.length bytes = .ok l ∧ checkLines count l = .error e := by
  cases h with
  | number h => exact .inl (by rw [linesLoop, h.parseNum_error])
  | separator hle hc hlf hsp =>
    left
    rw [linesLoop, parseNum_dec hle hc]
    simp [parseEntry, expectByte, hlf, hsp, bind, Except.bind]
  | symbol hlt hle =>
    left
    rw [linesLoop, parseNum_dec hle (by decide)]
    simp [parseEntry, expectByte, hlt, bind, Except.bind, show Ascii.SP ≠ Ascii.LF by decide]
  | @codeEnds s c hl =>
    refine .inl (linesLoop_code_error ?_)
    rw [← List.append_nil (asciiCode c), codeLoop_code (by simpa using hl)]
    rfl
  | codeCharacter hl hlf h0 h1 =>
    refine .inl (linesLoop_code_error ?_)
    rw [codeLoop_code (by simpa using hl), codeLoop, if_neg hlf, if_pos ⟨h0, h1⟩]
  | codeTooLong hl => exact .inl (linesLoop_code_error (codeLoop_tooLong hl _))
  | emptyCode =>
    rw [entryText_append]
    exact .inl (linesLoop_code_error rfl)
  | dupSymbol hpos hl hs => exact .inl (linesLoop_store_error hpos hl (storeEntry_dupSymbol hv ht hs))
  | prefixConflict hpos hl hs hp =>
    exact .inl (linesLoop_store_error hpos hl (storeEntry_prefixConflict hv ht hs hp))
  | countMismatch hle hn => exact .inr ⟨_, linesLoop_padding hle _, if_pos hn⟩
  | badPad hn hlt hle =>
    exact .inr ⟨_, linesLoop_padding hle _, (if_neg (not_not.2 hn)).trans (if_pos hlt)⟩
  | padNoData hn hpos hle =>
    exact .inr ⟨_, linesLoop_padding (by omega) _, (if_neg (not_not.2 hn)).trans
      ((if_neg (Nat.not_lt.2 hle)).trans (if_pos ⟨rfl, Nat.one_le_iff_ne_zero.1 hpos⟩))⟩

/-! ### The lines and the container -/

/-- Where the line loop fails, a line after some valid entry lines has a violation. -/
theorem lineViolation_of_linesLoop {fuel n : Nat} {bytes : List Byte} {e : FormatError} (hfuel : bytes.length < fuel)
    (h : linesLoop fuel table n bytes = .error e) :
    ∃ (more : List (Byte × Bits)) (rest : List Byte), bytes = more.flatMap entryText ++ rest ∧
      ValidEntries (es ++ more) ∧ LineViolation count (es ++ more) rest e := by
  induction fuel generalizing table es n bytes with
  | zero => omega
  | succ fuel ih =>
    rcases linesLoop_succ_error hv ht h count with hline | ⟨x, rest, rfl, hv', ht', h⟩
    · exact ⟨[], bytes, rfl, by simpa using hv, by simpa using hline⟩
    · have hshort := entryText_length_pos x
      rw [List.length_append] at hfuel
      obtain ⟨more, rest', rfl, hvalid, hline⟩ := ih hv' ht' (by omega) h
      rw [List.append_assoc] at hvalid hline
      exact ⟨x :: more, rest', by simp, hvalid, hline⟩

/-- The line loop passes valid entry lines. -/
theorem linesLoop_flatMap_entryText {fuel : Nat} {more : List (Byte × Bits)} {rest : List Byte}
    (hvalid : ValidEntries (es ++ more)) (hfuel : more.length < fuel) :
    ∃ (fuel' : Nat) (table' : Vector Bits 256), Holds table' (es ++ more) ∧
      linesLoop fuel table es.length (more.flatMap entryText ++ rest) =
        linesLoop (fuel' + 1) table' (es ++ more).length rest := by
  obtain ⟨fuel, rfl⟩ : ∃ f, fuel = f + 1 := ⟨fuel - 1, by omega⟩
  induction more generalizing table es fuel with
  | nil => exact ⟨fuel, table, by simpa using ht, by simp⟩
  | cons x more ih =>
    obtain ⟨fuel, rfl⟩ : ∃ f, fuel = f + 1 := ⟨fuel - 1, by rw [List.length_cons] at hfuel; omega⟩
    rw [List.append_cons] at hvalid ⊢
    have hv' : ValidEntries (es ++ [x]) := hvalid.sublist (List.sublist_append_left _ _)
    obtain ⟨hne, hl, hnew, hc⟩ := (ht.accepts_iff hv).2 hv'
    obtain ⟨fuel', table', hholds, hloop⟩ := ih hv' (ht.store ((ht.free_iff hv).1 hnew)) hvalid fuel
      (by rw [List.length_cons] at hfuel; omega)
    refine ⟨fuel', table', hholds, ?_⟩
    rw [← hloop, List.flatMap_cons, List.append_assoc, linesLoop_entryText _ hne hl hnew hc, List.length_append]
    rfl

end

/-- A container fails in its count line, in a line after it, or in the checks at the padding line. -/
theorem parseContainer_error_iff {bytes : List Byte} {e : FormatError} :
    parseContainer bytes = .error e ↔ parseCountLine bytes = .error e ∨
      ∃ (count : Nat) (rest : List Byte), parseCountLine bytes = .ok (count, rest) ∧
        (linesLoop (rest.length + 1) emptyTable 0 rest = .error e ∨
          ∃ l, linesLoop (rest.length + 1) emptyTable 0 rest = .ok l ∧ checkLines count l = .error e) := by
  unfold parseContainer
  cases parseCountLine bytes with
  | error e' => simp [bind, Except.bind]
  | ok x =>
    obtain ⟨count, rest⟩ := x
    cases hlines : linesLoop (rest.length + 1) emptyTable 0 rest with
    | error e' => simp [bind, Except.bind, hlines]
    | ok l => simp [bind, Except.bind, hlines]

/-- The count line fails with its violation (42_decoder.md R162). -/
theorem violation_of_parseCountLine {bytes : List Byte} {e : FormatError} (h : parseCountLine bytes = .error e) :
    Violation bytes e := by
  unfold parseCountLine at h
  cases hnum : parseNum bytes with
  | error e' =>
    simp only [hnum, bind, Except.bind] at h
    cases h
    exact .number (parseNum_error_iff.1 hnum)
  | ok x =>
    obtain ⟨v, rest⟩ := x
    obtain ⟨hle, rfl, c, tail, rfl, hc⟩ := parseNum_ok_iff.1 hnum
    by_cases hlf : c = Ascii.LF
    · subst hlf
      simp only [hnum, expectByte, if_true, bind, Except.bind] at h
      split_ifs at h with hcount
      · cases h
        exact .badCount hcount hle
    · simp only [hnum, expectByte, if_neg hlf, bind, Except.bind] at h
      cases h
      exact .separator hle hc hlf

theorem violation_of_parseContainer {bytes : List Byte} {e : FormatError} (h : parseContainer bytes = .error e) :
    Violation bytes e := by
  rcases parseContainer_error_iff.1 h with hline | ⟨count, rest, hcount, hlines | ⟨l, hlines, hcheck⟩⟩
  · exact violation_of_parseCountLine hline
  · obtain ⟨rfl, hpos, hle⟩ := parseCountLine_ok_iff.1 hcount
    obtain ⟨es, rest, rfl, hvalid, hline⟩ :=
      lineViolation_of_linesLoop (count := count) .nil .empty (Nat.lt_succ_self _) hlines
    exact .line hpos hle hvalid hline
  · obtain ⟨rfl, hpos, hle⟩ := parseCountLine_ok_iff.1 hcount
    obtain ⟨es, rfl, hpad, hvalid, hn, -⟩ := linesLoop_ok_iff.1 hlines
    exact .line hpos hle hvalid (lineViolation_of_checkLines hpad (hn.trans (Nat.zero_add _)) hcheck)

theorem Violation.parseContainer_error {bytes : List Byte} {e : FormatError} (h : Violation bytes e) :
    parseContainer bytes = .error e := by
  cases h with
  | number h => exact parseContainer_error_iff.2 (.inl (by rw [parseCountLine, h.parseNum_error]; rfl))
  | separator hle hc hlf =>
    refine parseContainer_error_iff.2 (.inl ?_)
    simp [parseCountLine, parseNum_dec hle hc, expectByte, hlf, bind, Except.bind]
  | badCount hcount hle =>
    refine parseContainer_error_iff.2 (.inl ?_)
    simp [parseCountLine, parseNum_dec hle (show isDigit Ascii.LF = false by decide), expectByte, hcount, bind,
      Except.bind]
  | @line count es bytes e hpos hle hvalid hline =>
    have hfuel : es.length < (es.flatMap entryText ++ bytes).length + 1 := by
      have := length_le_flatMap_entryText es
      rw [List.length_append]
      omega
    obtain ⟨fuel, table, hholds, hloop⟩ :=
      linesLoop_flatMap_entryText .nil .empty (more := es) (rest := bytes) hvalid hfuel
    refine parseContainer_error_iff.2 (.inr ⟨count, _, parseCountLine_ok_iff.2 ⟨rfl, hpos, hle⟩, ?_⟩)
    rw [List.length_nil] at hloop
    rw [hloop]
    exact hline.lines_error hvalid hholds

/-- Settles O60: both directions by the cases of a violation. -/
theorem parserReportsTheFirstViolation : Obligations.ParserReportsTheFirstViolation :=
  fun _ _ => ⟨violation_of_parseContainer, Violation.parseContainer_error⟩

end Sys2Proof.Machine
end

section
/-! PROOFS. The round trip (42_decoder.md R167, R181): what PACK writes is a container of the grammar, whose entries are
the table's in ascending order; its raw section is the codes of the input and the padding. -/

namespace Sys2Proof.Machine

/-! ### The header is one of the grammar -/

/-- The symbols in ascending order. -/
def allSymbols : List Byte := (List.range 256).map (BitVec.ofNat 8)

theorem toNat_ofNat_of_mem_range {i : Nat} (hi : i ∈ List.range 256) : (BitVec.ofNat 8 i).toNat = i :=
  (BitVec.toNat_ofNat i 8).trans (Nat.mod_eq_of_lt (List.mem_range.1 hi))

theorem mem_allSymbols (b : Byte) : b ∈ allSymbols :=
  List.mem_map.2 ⟨b.toNat, List.mem_range.2 b.isLt, by simp⟩

theorem allSymbols_nodup : allSymbols.Nodup := by
  refine List.Nodup.map_on (fun i hi j hj hij => ?_) List.nodup_range
  rw [← toNat_ofNat_of_mem_range hi, hij, toNat_ofNat_of_mem_range hj]

theorem toList_eq_map_allSymbols (code : Vector Bits 256) : code.toList = allSymbols.map (atSymbol code) := by
  rw [toList_eq_map, allSymbols, List.map_map]; rfl

/-- The entries of a code table in ascending order of their symbols (30_encoding.md R102). -/
def tableEntries (code : Vector Bits 256) : List (Byte × Bits) :=
  (allSymbols.filter fun b => atSymbol code b ≠ []).map fun b => (b, atSymbol code b)

theorem tableEntries_symbols (code : Vector Bits 256) :
    (tableEntries code).map Prod.fst = allSymbols.filter fun b => atSymbol code b ≠ [] := by
  rw [tableEntries, List.map_map]
  exact List.map_id _

theorem mem_tableEntries {code : Vector Bits 256} {e : Byte × Bits} :
    e ∈ tableEntries code ↔ atSymbol code e.1 = e.2 ∧ e.2 ≠ [] := by
  simp only [tableEntries, List.mem_map, List.mem_filter, mem_allSymbols, true_and, decide_eq_true_eq]
  constructor
  · rintro ⟨b, hb, rfl⟩
    exact ⟨rfl, hb⟩
  · rintro ⟨he, hne⟩
    exact ⟨e.1, he ▸ hne, by rw [he]⟩

theorem tableEntries_length (code : Vector Bits 256) : (tableEntries code).length = tableSize code := by
  rw [tableEntries, List.length_map, tableSize, toList_eq_map_allSymbols, List.countP_map,
    List.countP_eq_length_filter]
  rfl

theorem holds_tableEntries (code : Vector Bits 256) : Holds code (tableEntries code) where
  entry e he := (mem_tableEntries.1 he).1
  absent b hb := by
    by_contra hne
    exact hb (List.mem_map_of_mem (f := Prod.fst) (mem_tableEntries (e := (b, atSymbol code b)).2 ⟨rfl, hne⟩))

/-- The entries of a `TableOf` are valid: two of them have different symbols. -/
theorem validEntries_tableEntries {code : Vector Bits 256} {n : Nat} (h : TableOf code n) :
    ValidEntries (tableEntries code) where
  symbols := tableEntries_symbols code ▸ allSymbols_nodup.filter _
  lengths e he := by
    obtain ⟨hcode, hne⟩ := mem_tableEntries.1 he
    exact ⟨List.length_pos_iff.2 hne, hcode ▸ h.short e.1⟩
  codes := by
    have hne : (tableEntries code).Pairwise fun a b => a.1 ≠ b.1 :=
      List.pairwise_map.1 (tableEntries_symbols code ▸ allSymbols_nodup.filter _)
    refine hne.imp_of_mem fun {a b} ha hb hab => ?_
    obtain ⟨hacode, hane⟩ := mem_tableEntries.1 ha
    obtain ⟨hbcode, hbne⟩ := mem_tableEntries.1 hb
    rw [← hacode] at hane ⊢
    rw [← hbcode] at hbne ⊢
    exact ⟨fun hp => hab (h.prefixFree _ _ hane hbne hp), fun hp => hab (h.prefixFree _ _ hbne hane hp).symm⟩

theorem tableEntries_flatMap (code : Vector Bits 256) (f : Byte × Bits → List Byte) : (tableEntries code).flatMap f =
    allSymbols.flatMap fun b => if atSymbol code b = [] then [] else f (b, atSymbol code b) := by
  rw [tableEntries, List.flatMap_map]
  induction allSymbols with
  | nil => rfl
  | cons b l ih => by_cases hb : atSymbol code b = [] <;> simp [hb, ← ih]

/-- The entry lines PACK writes are those of the table's entries (41_encoder.md R142). -/
theorem entryLines_eq_tableEntries (code : Vector Bits 256) :
    entryLines 0 code.toList = (tableEntries code).flatMap entryText := by
  rw [entryLines_eq_flatMap, tableEntries_flatMap, allSymbols, List.flatMap_map]
  refine List.flatMap_congr fun i hi => ?_
  simp only [entryText, entryLine, toNat_ofNat_of_mem_range hi, List.append_assoc, List.cons_append,
    List.nil_append]

/-- PARSE accepts a header PACK writes and any raw section after it that the padding allows, and reads the table back
(42_decoder.md R167). -/
theorem parseContainer_header {code : Vector Bits 256} {n pad : Nat} {raw : List Byte} (h : TableOf code n)
    (hn : 1 ≤ n) (hpad : pad ≤ 7) (hraw : raw = [] → pad = 0) :
    parseContainer (header n pad code ++ raw) = .ok ⟨code, n, pad, raw⟩ := by
  have hlen : (tableEntries code).length = n := (tableEntries_length code).trans h.size
  refine parseContainer_ok_iff.2 ⟨tableEntries code, ?_, hlen ▸ hn, ?_, validEntries_tableEntries h, hpad, hraw,
    hlen.symm, holds_tableEntries code⟩
  · simp only [header, entryLines_eq_tableEntries, hlen, List.append_assoc, List.cons_append, List.nil_append]
  · rw [tableEntries_length]
    exact tableSize_le code

/-! ### The container COMPRESS writes -/

section

variable {s : State} (h : s.input ≠ [])
include h

theorem State.presentSymbols_input_pos : 1 ≤ presentSymbols (countTable s.input) :=
  presentSymbols_pos (by rw [State.input_length]; exact s.inLen.isLt) h

/-- Every symbol of the input has a code (41_encoder.md R135). -/
theorem State.encoded_covers {b : Byte} (hb : b ∈ s.input) : atSymbol s.encoded.code b ≠ [] :=
  (genTable_covers (State.presentSymbols_input_pos h) b).2
    ((countTable_ne_zero (by rw [State.input_length]; exact s.inLen.isLt) b).2 hb)

theorem State.encoded_tableSize_pos : 1 ≤ tableSize s.encoded.code :=
  (State.presentSymbols_input_pos h).trans_eq (tableSize_genTable (State.presentSymbols_input_pos h)).symm

end

theorem State.encoded_tableOf (s : State) : TableOf s.encoded.code (tableSize s.encoded.code) :=
  ⟨genTable_prefixFree _ _, rfl, genTable_length_le _ _⟩

/-- The bit total COMPRESS computes. -/
def State.encodedTotal (s : State) : Nat := bitTotal s.encoded.freq s.encoded.code

/-- The raw section COMPRESS writes (41_encoder.md R144). -/
def State.encodedRaw (s : State) : List Byte :=
  packBytes ((s.encodedTotal + padOf s.encodedTotal) / 8) (packedBits s.encoded.code s.input (padOf s.encodedTotal))

theorem State.encoded_container (s : State) : s.encoded.container =
    header (tableSize s.encoded.code) (padOf s.encodedTotal) s.encoded.code ++ s.encodedRaw := by
  rw [State.container, State.encoded_ncode_toNat]; rfl

theorem State.encodedTotal_eq (s : State) : s.encodedTotal = (s.input.flatMap (atSymbol s.encoded.code)).length :=
  (bitTotalIsTheStreamLength s.encoded
    (countTable_toNat (by rw [State.input_length]; exact s.inLen.isLt))).symm

/-- The padding fills the last byte of the raw section (41_encoder.md R141). -/
theorem State.encodedRaw_length (s : State) : 8 * s.encodedRaw.length = s.encodedTotal + padOf s.encodedTotal := by
  obtain ⟨-, -, -, hmod, -⟩ := paddingFillsTheLastByte s.encoded.freq s.encoded.code
  have hmod : (s.encodedTotal + padOf s.encodedTotal) % 8 = 0 := hmod
  rw [State.encodedRaw, packBytes_length]
  omega

/-- The raw section without its padding is the codes of the input (41_encoder.md R144; 42_decoder.md R171). -/
theorem State.encodedRaw_bits (s : State) :
    (s.encodedRaw.flatMap byteBits).take (8 * s.encodedRaw.length - padOf s.encodedTotal) =
      s.input.flatMap (atSymbol s.encoded.code) := by
  have hlen := s.encodedRaw_length
  have hraw : s.encodedRaw.flatMap byteBits = packedBits s.encoded.code s.input (padOf s.encodedTotal) := by
    refine flatMap_byteBits_packBytes ?_
    rw [← packBytes_length ((s.encodedTotal + padOf s.encodedTotal) / 8)]
    rw [packedBits, List.length_append, List.length_replicate, ← State.encodedTotal_eq]
    exact hlen.symm
  rw [hraw, hlen, Nat.add_sub_cancel, State.encodedTotal_eq, packedBits, List.take_left]

/-- What COMPRESS writes for a non-empty input parses to its table and raw section. -/
theorem State.parseContainer_encoded {s : State} (h : s.input ≠ []) : parseContainer s.encoded.container =
    .ok ⟨s.encoded.code, tableSize s.encoded.code, padOf s.encodedTotal, s.encodedRaw⟩ := by
  have hlen := s.encodedRaw_length
  rw [State.encoded_container]
  refine parseContainer_header s.encoded_tableOf (State.encoded_tableSize_pos h) ?_ fun hraw => ?_
  · rw [padOf]; omega
  · rw [hraw, List.length_nil] at hlen; omega

/-! ### The commands -/

/-- Bytes stored from offset 0 with their number in OUT_LEN are the output. -/
theorem output_putBytes {s t : State} {bs : List Byte} (ho : t.obuf = s.obuf.putBytes 0 bs)
    (hl : t.outLen = BitVec.ofNat 32 bs.length) (hlt : bs.length < 2 ^ 32) : t.output = bs := by
  have hlen : t.outLen.toNat = bs.length := by rw [hl, BitVec.toNat_ofNat, Nat.mod_eq_of_lt hlt]
  refine List.ext_getElem (by simp [State.output, hlen]) fun k hk hk' => ?_
  simp only [State.output, List.getElem_map, List.getElem_range]
  rw [obufByte_putBytes ho, List.getElem?_eq_getElem hk', Option.getD_some]

/-- COMPRESS of a non-empty input that ends without error outputs the container. -/
theorem compress_output {s t : State} (hwf : s.params.wf = true) (hp : s.phase = .busy .compress) (h : s.inLen ≠ 0)
    (hexec : exec .compress s = .next t) (herr : t.err = false) : t.output = s.encoded.container := by
  obtain ⟨-, -, -, hobuf⟩ := params_bounds hwf
  rw [exec_busy .compress hp, Host.Outcome.next.injEq] at hexec
  simp only [bodyOf, compressBody_nonempty h] at hexec
  rcases Nat.lt_or_ge s.params.obufBytes s.encoded.container.length with hn | hn
  · rw [packBody_overflows (s := s.encoded) hn] at hexec
    rw [← hexec, Run.finish_raised, State.takeError_err] at herr
    cases herr
  · rw [packBody_fits (s := s.encoded) hn] at hexec
    have hstored : t.obuf = s.encoded.obuf.putBytes 0 s.encoded.container := by
      rw [← hexec, Run.finish_done, State.complete_obuf]
    have houtLen : t.outLen = BitVec.ofNat 32 s.encoded.container.length := by
      rw [← hexec, Run.finish_done, State.complete_outLen]
    exact output_putBytes hstored houtLen (by omega)

/-- Settles O38: the container parses to COMPRESS's table and raw section, whose bits are the codes of the input, and a
`PrefixFree` table decodes those to the input. -/
theorem compressThenDecompressGivesTheInputBack : Obligations.CompressThenDecompressGivesTheInputBack := by
  intro s t s' hinv hp hpos hcompress herr hinv' hp' hinput hcap
  have hne : s.input ≠ [] := List.length_pos_iff.1 hpos
  have hinLen : s.inLen ≠ 0 := by
    rw [State.input_length] at hpos
    rintro h0
    rw [h0] at hpos
    exact absurd hpos (by decide)
  rw [compress_output hinv.params_wf hp hinLen hcompress herr] at hinput
  have hparse := State.parseContainer_encoded hne
  rw [← hinput] at hparse
  obtain ⟨-, hlaunch, -, herr'⟩ := hinv'.busy_launched .decompress hp'
  have hdecode := decodeLoop_flatMap s.encoded_tableOf.prefixFree (fun b hb => State.encoded_covers hne hb) hcap
  rw [← s.encodedRaw_bits] at hdecode
  have hexec := decompressLeavesTableAndOutput s' _ s.input hp' hinv'.params_wf (checkInput_eq_none.1 hlaunch) hparse
    hdecode
  exact ⟨_, hexec, herr', output_putBytes (s := s') rfl rfl (by rw [State.input_length]; exact s.inLen.isLt)⟩

end Sys2Proof.Machine
end

section
/-! PROOFS. The control commands NOP and CLEAR (43_control.md R190, R191), neither of which can raise an error. -/

namespace Sys2Proof.Machine

/-- While busy, a command whose pseudocode reaches its end completes in the state the pseudocode leaves (60_exceptions.md
R206). -/
theorem exec_busy_of_done {i j : Instr} {s t : State} (hp : s.phase = .busy j) (hbody : bodyOf i s = .done t) :
    exec i s = .next t.complete := by
  rw [exec_busy i hp, hbody, Run.finish_done]

/-- Settles O8: NOP's pseudocode ends in the state it starts from. -/
theorem nopOnlyCompletes : Obligations.NopOnlyCompletes := by
  intro s hp
  have hbody : bodyOf .nop s = .done s := rfl
  exact exec_busy_of_done hp hbody

/-- Settles O9: CLEAR's pseudocode reaches its end, and `clearBody` names every field it stores. -/
theorem clearEmptiesTheStageResults : Obligations.ClearEmptiesTheStageResults := by
  intro s hp
  have hbody : bodyOf .clear s = .done _ := rfl
  exact exec_busy_of_done hp hbody

end Sys2Proof.Machine
end

section
/-! PROOFS. A CMD write launches its command or is rejected, and the engine's turn ends the command in progress
(60_exceptions.md R202 to R207, R218). -/

namespace Sys2Proof.Machine

variable {s : State} {op : Instr}

/-! ### Launch or launch error -/

theorem launchOrReject_of_none (h : launchCheck op s = none) : launchOrReject op s = s.launch op := by
  rw [launchOrReject, h]

theorem launchOrReject_of_some {e : Error} (h : launchCheck op s = some e) : launchOrReject op s = s.takeError e := by
  rw [launchOrReject, h]

/-- A launch error finds the engine idle and leaves it so: it writes STATUS alone (R205). -/
theorem State.takeError_idle (e : Error) (h : s.phase = .idle) :
    s.takeError e = { s with done := true, err := true, errcode := e.code, errinfo := e.info } := by
  rw [State.takeError, ← h]

/-- A stage command is launched when its valid bits hold, else it is a SequenceError (R202). -/
theorem launchOrReject_stage {ready : Bool} (h : launchCheck op s = checkStage ready) :
    launchOrReject op s = if ready then s.launch op else s.takeError .sequence := by
  cases ready with
  | true => exact launchOrReject_of_none h
  | false => exact launchOrReject_of_some h

/-- A command that reads the input is a CapacityError when IN_LEN exceeds the input buffer, else it is launched (R202). -/
theorem launchOrReject_input (h : launchCheck op s = s.checkInput) :
    launchOrReject op s =
      if s.params.ibufBytes < s.inLen.toNat then s.takeError .capacityIn else s.launch op := by
  split
  · next hlong => exact launchOrReject_of_some (h.trans (if_pos hlong))
  · next hfits => exact launchOrReject_of_none (h.trans (if_neg hfits))

/-! ### The CMD write -/

/-- The state whose CMD write of `w` was answered OK, the word stored and not yet executed (10_state.md R24). -/
def State.cmdStored (s : State) (w : Word) (rest : List Event) : State :=
  { s with events := rest, resp := some ⟨true, none⟩, cmd := w }

/-- A CMD write of a command's word while idle is that command's launch or launch error (R202). -/
theorem step_cmdWrite_command {w : Word} {rest : List Event} (hp : s.phase = .idle) (he : s.events = cmdWrite w :: rest)
    (hw : w = encode op) : step s = .next (launchOrReject op (s.cmdStored w rest)) := by
  obtain ⟨hdispatch, -⟩ := stepRunsTheDecodedCommand
  have hd : decode w = .ok op := hw ▸ decode_encode op
  rw [hdispatch s w op rest hp he hd]
  exact exec_idle op hp

/-- A CMD write of an illegal word while idle is an IllegalCommand (R202). -/
theorem step_cmdWrite_illegal {w : Word} {rest : List Event} {e : Illegal} (hp : s.phase = .idle)
    (he : s.events = cmdWrite w :: rest) (hd : decode w = .error e) :
    step s = .next ((s.cmdStored w rest).takeError .illegalCommand) := by
  rw [step_cmdWrite_idle hp he, State.writeCmd, hd]
  rfl

/-- A set bit among 31:4 or a reserved opcode makes a word illegal (30_encoding.md R93, R94). -/
theorem decode_error_of_reserved {w : Word}
    (h : w.extractLsb' 4 28 ≠ 0 ∨ w ∈ [0x6#32, 0x7#32, 0xB#32, 0xC#32, 0xD#32, 0xE#32]) :
    ∃ e, decode w = .error e := by
  rcases h with hbits | hop
  · exact ⟨.reservedBits, if_neg hbits⟩
  · simp only [List.mem_cons, List.not_mem_nil, or_false] at hop
    rcases hop with rfl | rfl | rfl | rfl | rfl | rfl <;> exact ⟨_, rfl⟩

/-- Settles O5: the word decides between IllegalCommand and a command's launch, whose launch check decides the rest. -/
theorem cmdWriteLaunchesOrRejects : Obligations.CmdWriteLaunchesOrRejects := by
  intro s w rest he s1 launched rejected onInput
  refine ⟨fun op hp => step_cmdWrite_busy hp he, fun hp => ?_⟩
  have hreject (e : Error) : s1.takeError e = rejected e.code e.info := s1.takeError_idle e hp
  have hfree {op : Instr} (hc : launchCheck op s1 = none) (hw : w = encode op) : step s = .next (launched op) :=
    (step_cmdWrite_command hp he hw).trans (congrArg _ (launchOrReject_of_none hc))
  have hstage {op : Instr} {ready : Bool} (hc : launchCheck op s1 = checkStage ready) (hw : w = encode op) :
      step s = .next (if ready then launched op else rejected 6 0) := by
    rw [step_cmdWrite_command hp he hw]
    exact congrArg _ ((launchOrReject_stage hc).trans (by rw [hreject]; rfl))
  have hinput {op : Instr} (hc : launchCheck op s1 = s1.checkInput) (hw : w = encode op) :
      step s = .next (onInput op) := by
    rw [step_cmdWrite_command hp he hw]
    exact congrArg _ ((launchOrReject_input hc).trans (by rw [hreject]; rfl))
  refine ⟨fun hillegal => ?_, hfree (op := .nop) rfl, hinput (op := .count) rfl, hstage (op := .build) rfl,
    hstage (op := .gencode) rfl, fun hw => ?_, hinput (op := .compress) rfl, hinput (op := .parse) rfl, fun hw => ?_,
    hinput (op := .decompress) rfl, hfree (op := .clear) rfl⟩
  · obtain ⟨e, hd⟩ := decode_error_of_reserved hillegal
    exact (step_cmdWrite_illegal hp he hd).trans (congrArg _ (hreject .illegalCommand))
  · simpa [and_assoc] using hstage (op := .pack) rfl hw
  · simpa using hstage (op := .decode) rfl hw

/-! ### The engine's turn -/

/-- With an engine event next, or no event left, the step is the engine's turn (20_memory.md R74; log 2). -/
theorem step_engineTurn (h : s.events.head? = none ∨ s.events.head? = some .engine) :
    step s = State.engineTurn { s with events := s.events.tail } := by
  rcases h with hnone | hengine
  · rw [List.head?_eq_none_iff] at hnone
    rw [step_noEvent hnone, hnone, List.tail_nil, ← hnone]
  · exact step_engine (List.eq_cons_of_mem_head? hengine)

@[simp] theorem Run.finish_sets_done (r : Run) : r.finish.done = true := by cases r <;> rfl

/-- Settles O7: the turn is the engine step of the command in progress, and both ways a pseudocode can end complete it. -/
theorem engineTurnCompletesTheCommand : Obligations.EngineTurnCompletesTheCommand := by
  intro s op hp hturn
  have hp' : State.phase { s with events := s.events.tail } = .busy op := hp
  have hstep := (step_engineTurn hturn).trans ((engineTurn_busy hp').trans (exec_busy op hp'))
  refine ⟨_, hstep, Run.finish_phase _, Run.finish_sets_done _, ?_, ?_⟩
  · rw [State.statusWord_busy, State.isBusy_idle (Run.finish_phase _)]
  · rw [State.statusWord_done, Run.finish_sets_done]

/-! ### A command's two steps -/

theorem run_succ_of_next {n : Nat} {t : State} (h : step s = .next t) :
    Host.Core.run core (n + 1) s = Host.Core.run core n t := by rw [run_succ, h]

theorem run_one (s : State) : Host.Core.run core 1 s = step s := by
  rw [run_succ]
  cases step s <;> rfl

/-- Settles O6: the CMD write launches the command, and the engine's turn executes the launched one. -/
theorem commandRunsInTwoSteps : Obligations.CommandRunsInTwoSteps := by
  intro s i rest hp he hc
  have hcheck : launchCheck i (s.cmdStored (encode i) (.engine :: rest)) = none :=
    (launchCheck_congr i rfl rfl rfl rfl rfl rfl).trans hc
  have hlaunch := step_cmdWrite_command hp he rfl
  rw [launchOrReject_of_none hcheck] at hlaunch
  rw [run_succ_of_next hlaunch, run_one, step_engine rfl]
  exact engineTurn_busy rfl

end Sys2Proof.Machine
end

section
/-! PROOFS. The valid bits after each command (10_state.md R31; 60_exceptions.md R205, R207; 70_reset_and_hazards.md
R241). -/

namespace Sys2Proof.Machine

variable {s t : State}

/-- The valid bits have the values `freq`, `tree`, `code` and `src` (10_state.md R31). -/
def State.ValidBits (s : State) (freq tree code src : Bool) : Prop :=
  s.freqV = freq ∧ s.treeV = tree ∧ s.codeV = code ∧ s.csrc = src

/-- Completion and the taking of an error write no valid bit (60_exceptions.md R206, R207). -/
theorem Run.finish_validBits {r : Run} {freq tree code src : Bool} (h : r.state.ValidBits freq tree code src) :
    r.finish.ValidBits freq tree code src := by
  rw [Run.finish_eq]
  exact h

/-- A launch or launch error writes no valid bit (60_exceptions.md R204, R205). -/
theorem launchOrReject_validBits (op : Instr) (s : State) :
    (launchOrReject op s).ValidBits s.freqV s.treeV s.codeV s.csrc := by
  rcases launchOrReject_cases op s with ⟨-, h⟩ | ⟨e, -, h⟩
  · rw [h]
    exact ⟨rfl, rfl, rfl, rfl⟩
  · rw [h]
    exact ⟨rfl, rfl, rfl, rfl⟩

/-- An executed command leaves the valid bits its pseudocode leaves. -/
theorem validBits_of_exec {i : Instr} {freq tree code src : Bool} (hp : s.phase ≠ .idle) (hexec : exec i s = .next t)
    (hbody : (bodyOf i s).state.ValidBits freq tree code src) : t.ValidBits freq tree code src := by
  rw [exec_not_idle i hp, Host.Outcome.next.injEq] at hexec
  exact hexec ▸ Run.finish_validBits hbody

/-- BUILD leaves the tree valid exactly where there is a symbol (41_encoder.md R124, R125). -/
theorem buildBody_validBits (s : State) :
    (buildBody s).state.ValidBits s.freqV (s.nsym != 0) false s.csrc := by
  by_cases h : s.nsym = 0
  · rw [buildBody_empty h, h]
    exact ⟨rfl, rfl, rfl, rfl⟩
  · rw [buildBody_some h, bne_iff_ne.2 h]
    exact ⟨rfl, rfl, rfl, rfl⟩

theorem packBody_validBits (s : State) : (packBody s).state.ValidBits s.freqV s.treeV s.codeV s.csrc := by
  rcases Nat.lt_or_ge s.params.obufBytes s.container.length with h | h
  · rw [packBody_overflows h]
    exact ⟨rfl, rfl, rfl, rfl⟩
  · rw [packBody_fits h]
    exact ⟨rfl, rfl, rfl, rfl⟩

theorem decodeBody_validBits (s : State) : (decodeBody s).state.ValidBits s.freqV s.treeV s.codeV s.csrc := by
  cases h : s.decoded with
  | error e =>
    rw [decodeBody_error h]
    exact ⟨rfl, rfl, rfl, rfl⟩
  | ok out =>
    rw [decodeBody_ok h]
    exact ⟨rfl, rfl, rfl, rfl⟩

/-- NOP, PACK and DECODE write no valid bit. -/
theorem bodyOf_keeps_validBits {i : Instr} (hi : i ∈ [Instr.nop, .pack, .decode]) (s : State) :
    (bodyOf i s).state.ValidBits s.freqV s.treeV s.codeV s.csrc := by
  simp only [List.mem_cons, List.not_mem_nil, or_false] at hi
  rcases hi with rfl | rfl | rfl
  · exact ⟨rfl, rfl, rfl, rfl⟩
  · exact packBody_validBits s
  · exact decodeBody_validBits s

/-- COMPRESS of a non-empty input reaches PACK, which keeps the bits of the stages before it (41_encoder.md R150). -/
theorem compressBody_nonempty_validBits (h : s.inLen ≠ 0) : (compressBody s).state.ValidBits true true true false := by
  rw [compressBody_nonempty h]
  exact packBody_validBits s.encoded

theorem compressBody_empty_validBits (h : s.inLen = 0) :
    (compressBody s).state.ValidBits true false false s.csrc := by
  rw [compressBody_empty h]
  exact ⟨rfl, rfl, rfl, rfl⟩

/-- A parsed table is valid, and remains so after an error of DECOMPRESS's decode part (60_exceptions.md R207). -/
theorem bodyOf_parsed_validBits {i : Instr} {l : Lines} (hi : i = .parse ∨ i = .decompress)
    (h : parseContainer s.input = .ok l) : (bodyOf i s).state.ValidBits s.freqV s.treeV true true := by
  rcases hi with rfl | rfl
  · rw [bodyOf, parseBody_parsed h]
    exact ⟨rfl, rfl, rfl, rfl⟩
  · rw [bodyOf, decompressBody_parsed h]
    exact decodeBody_validBits (s.parsed l)

/-- A FormatError leaves no valid table, whether of PARSE or of DECOMPRESS. -/
theorem bodyOf_formatError_validBits {i : Instr} {e : FormatError} (hi : i = .parse ∨ i = .decompress)
    (h : parseContainer s.input = .error e) : (bodyOf i s).state.ValidBits s.freqV s.treeV false s.csrc := by
  have hbody : bodyOf i s = parseBody s := by
    rcases hi with rfl | rfl
    · rfl
    · exact decompressBody_error h
  rw [hbody, parseBody_error h]
  exact ⟨rfl, rfl, rfl, rfl⟩

/-- PARSE and DECOMPRESS leave FREQ_V and TREE_V, and CODE_V and CSRC by whether the input parses. -/
theorem validBits_of_exec_parser {i : Instr} (hi : i = .parse ∨ i = .decompress) (hp : s.phase ≠ .idle)
    (hexec : exec i s = .next t) : t.freqV = s.freqV ∧ t.treeV = s.treeV ∧
      (∀ l, parseContainer s.input = .ok l → t.codeV = true ∧ t.csrc = true) ∧
      (∀ e, parseContainer s.input = .error e → t.codeV = false ∧ t.csrc = s.csrc) := by
  cases h : parseContainer s.input with
  | error e =>
    obtain ⟨hfreq, htree, hsource⟩ := validBits_of_exec hp hexec (bodyOf_formatError_validBits hi h)
    exact ⟨hfreq, htree, nofun, fun _ _ => hsource⟩
  | ok l =>
    obtain ⟨hfreq, htree, hsource⟩ := validBits_of_exec hp hexec (bodyOf_parsed_validBits hi h)
    exact ⟨hfreq, htree, fun _ _ => hsource, nofun⟩

/-- Settles O40: the launch row, and each command's row by the valid bits its pseudocode leaves. -/
theorem validBitsFollowTheTable : Obligations.ValidBitsFollowTheTable := by
  refine fun s t => ⟨fun hp i hexec => ?_, fun hp => ⟨fun i hi hexec => ?_, fun hclear => ?_, fun hcount => ?_,
    fun hbuild => ?_, fun hgencode => ?_, fun hparser => ?_, fun hcompress h => ?_, fun hcompress h => ?_⟩⟩
  · rw [exec_idle i hp, Host.Outcome.next.injEq] at hexec
    exact hexec ▸ launchOrReject_validBits i s
  · exact validBits_of_exec hp hexec (bodyOf_keeps_validBits hi s)
  · exact validBits_of_exec hp hclear ⟨rfl, rfl, rfl, rfl⟩
  · exact validBits_of_exec hp hcount ⟨rfl, rfl, rfl, rfl⟩
  · exact validBits_of_exec hp hbuild (buildBody_validBits s)
  · exact validBits_of_exec hp hgencode ⟨rfl, rfl, rfl, rfl⟩
  · rcases hparser with hparse | hdecompress
    · exact validBits_of_exec_parser (.inl rfl) hp hparse
    · exact validBits_of_exec_parser (.inr rfl) hp hdecompress
  · exact validBits_of_exec hp hcompress (compressBody_nonempty_validBits h)
  · exact validBits_of_exec hp hcompress (compressBody_empty_validBits h)

end Sys2Proof.Machine
end

section
/-! PROOFS. A stage repeated after a success gives the same result again (70_reset_and_hazards.md R242). -/

namespace Sys2Proof.Machine

variable {op : Instr} {s t u : State} {bs : List Byte}

/-- No error is reported (10_state.md R25, R28). -/
def State.NoError (s : State) : Prop := s.err = false ∧ s.errcode = 0 ∧ s.errinfo = 0

/-- The stage's pseudocode went from `s` to `u`, storing the bytes `bs` in OBUF, and launched again on `u` completed it
stores those bytes and changes nothing else. STATUS's error fields stay as they were. -/
structure StoresAgain (op : Instr) (s u : State) (bs : List Byte) : Prop where
  stored : u.obuf = s.obuf.putBytes 0 bs
  again : bodyOf op (u.complete.launch op) = .done { u.complete.launch op with obuf := u.obuf.putBytes 0 bs }
  noError : s.NoError → u.NoError

/-- Where no error is reported, a launch changes the phase and DONE only, and a completion sets them back
(60_exceptions.md R204, R206). -/
theorem State.NoError.complete_launch_complete (h : u.NoError) (op : Instr) :
    (u.complete.launch op).complete = u.complete := by
  obtain ⟨herr, hcode, hinfo⟩ := h
  simp only [State.complete, State.launch, herr, hcode, hinfo]

/-- Storing the same bytes a second time changes no byte of OBUF. -/
theorem obufByte_putBytes_again (h : u.obuf = s.obuf.putBytes 0 bs) (ht : t.obuf = u.obuf.putBytes 0 bs) (k : Nat) :
    t.obufByte k = u.obufByte k := by
  rw [obufByte_putBytes ht, obufByte_putBytes h]
  cases bs[k]? <;> rfl

theorem StoresAgain.exec_launch (h : StoresAgain op s u bs) (hs : s.NoError) :
    exec op (u.complete.launch op) = .next { u.complete with obuf := u.obuf.putBytes 0 bs } := by
  rw [exec_busy_of_done (State.launch_phase _ _) h.again]
  exact congrArg (fun v : State => Host.Outcome.next { v with obuf := u.obuf.putBytes 0 bs })
    ((h.noError hs).complete_launch_complete op)

/-- The repeated stage answers the same state, OBUF compared byte by byte. -/
theorem StoresAgain.exec_launch_obufByte (h : StoresAgain op s u bs) (hs : s.NoError) :
    ∃ t', exec op (u.complete.launch op) = .next t' ∧ t' = { u.complete with obuf := t'.obuf } ∧
      ∀ k, t'.obufByte k = u.complete.obufByte k :=
  ⟨_, h.exec_launch hs, rfl, obufByte_putBytes_again (u := u.complete) h.stored rfl⟩

/-- A command that ends without error reached the end of its pseudocode (60_exceptions.md R206, R207). -/
theorem exec_busy_noError {j : Instr} (hp : s.phase = .busy j) (hexec : exec op s = .next t) (ht : t.err = false) :
    ∃ u, bodyOf op s = .done u ∧ u.complete = t := by
  rw [exec_busy op hp, Host.Outcome.next.injEq] at hexec
  subst hexec
  cases hbody : bodyOf op s with
  | done u => exact ⟨u, rfl, rfl⟩
  | raised e u =>
    rw [hbody, Run.finish_raised, State.takeError_err] at ht
    cases ht

/-- BUILD reads NSYM and FREQ, which it leaves (41_encoder.md R124). -/
theorem buildBody_storesAgain (h : bodyOf .build s = .done u) : StoresAgain .build s u [] := by
  rw [bodyOf] at h
  by_cases h0 : s.nsym = 0
  · rw [buildBody_empty h0] at h
    cases h
  · rw [buildBody_some h0, Run.done.injEq] at h
    subst h
    exact ⟨rfl, buildBody_some (s := State.launch _ _) h0, id⟩

/-- GENCODE reads NODE and ROOT, which it leaves (41_encoder.md R133). -/
theorem gencodeBody_storesAgain (h : bodyOf .gencode s = .done u) : StoresAgain .gencode s u [] := by
  cases h
  exact ⟨rfl, rfl, id⟩

/-- PACK reads FREQ, NCODE, the code table and the input, which it leaves (41_encoder.md R140). -/
theorem packBody_storesAgain (h : bodyOf .pack s = .done u) : StoresAgain .pack s u s.container := by
  rw [bodyOf] at h
  rcases Nat.lt_or_ge s.params.obufBytes s.container.length with hn | hn
  · rw [packBody_overflows hn] at h
    cases h
  · rw [packBody_fits hn, Run.done.injEq] at h
    subst h
    exact ⟨rfl, packBody_fits (s := State.launch _ _) hn, id⟩

/-- DECODE reads the code table and the stream in IBUF, which it leaves (42_decoder.md R170). -/
theorem decodeBody_storesAgain (h : bodyOf .decode s = .done u) : ∃ out, StoresAgain .decode s u out := by
  rw [bodyOf] at h
  cases hd : s.decoded with
  | error e =>
    rw [decodeBody_error hd] at h
    cases h
  | ok out =>
    rw [decodeBody_ok hd, Run.done.injEq] at h
    subst h
    exact ⟨out, rfl, decodeBody_ok (s := State.launch _ _) hd, id⟩

/-- Settles O41: without an error the stage reached its end, and BUILD and GENCODE store nothing in OBUF. -/
theorem stagesMayBeRepeated : Obligations.StagesMayBeRepeated := by
  intro s t herr hcode hinfo ht
  have hs : s.NoError := ⟨herr, hcode, hinfo⟩
  refine ⟨fun hp hexec => ?_, fun hp hexec => ?_, fun hp hexec => ?_, fun hp hexec => ?_⟩ <;>
    obtain ⟨u, hbody, rfl⟩ := exec_busy_noError hp hexec ht
  · exact (buildBody_storesAgain hbody).exec_launch hs
  · exact (gencodeBody_storesAgain hbody).exec_launch hs
  · exact (packBody_storesAgain hbody).exec_launch_obufByte hs
  · obtain ⟨out, h⟩ := decodeBody_storesAgain hbody
    exact h.exec_launch_obufByte hs

end Sys2Proof.Machine
end

section
/-! PROOFS. Hard reset (70_reset_and_hazards.md R230, R231). -/

namespace Sys2Proof.Machine

theorem step_hardReset {s : State} {rest : List Event} (h : s.events = .hardReset :: rest) :
    step s = .next (State.hardReset { s with events := rest }) := by simp only [step, h, State.handle]

/-- Settles O55: a hard reset reads no phase, and takes the next draw for its free values. -/
theorem hardResetAbandonsTheCommand : Obligations.HardResetAbandonsTheCommand := fun s _ he =>
  ⟨s.draw, step_hardReset he⟩

end Sys2Proof.Machine
end

section
/-! PROOFS. No step faults or refuses (60_exceptions.md R205 to R209), so that what reset meets and every step keeps holds
in every state a run reaches. -/

namespace Sys2Proof.Machine

/-! ### Every step answers a next state -/

theorem engineTurn_answers (s : State) : ∃ t, s.engineTurn = .next t := by
  cases hp : s.phase with
  | idle => exact ⟨s, engineTurn_idle hp⟩
  | busy op => exact engineTurn_busy hp ▸ exec_answers op s

/-- An illegal word is a launch error, and any other goes to `exec` (60_exceptions.md R202). -/
theorem writeCmd_answers (s : State) (v : Word) : ∃ t, s.writeCmd v = .next t := by
  unfold State.writeCmd
  cases decode v with
  | error _ => exact ⟨_, rfl⟩
  | ok i => exact exec_answers i _

theorem writeOk_answers (s : State) (tgt : Target) (size : Size) (v : Word) :
    ∃ t, s.writeOk tgt size v = .next t := by
  rcases writeOk_cases s tgt size v with ⟨-, -, e⟩ | ⟨-, -, e⟩ | ⟨-, -, e⟩
  · exact ⟨_, e⟩
  · exact e ▸ writeCmd_answers s v
  · exact ⟨_, e⟩

/-- A bad access is answered with ERR (20_memory.md R61, R62, R64). -/
theorem transact_answers (s : State) (txn : Txn) : ∃ t, s.transact txn = .next t := by
  cases txn with
  | read addr size => exact ⟨s.hostRead addr size, rfl⟩
  | write addr size v =>
    change ∃ t, s.hostWrite addr size v = .next t
    unfold State.hostWrite
    cases resolve s.params addr size with
    | none => exact ⟨_, rfl⟩
    | some tgt => exact writeOk_answers _ tgt size v

/-- Settles O4: by the cases of a step, each of which answers. -/
theorem everyStepAnswersANextState : Obligations.EveryStepAnswersANextState := by
  intro s
  rcases step_cases s with ⟨-, e⟩ | ⟨rest, ⟨-, e⟩ | ⟨-, e⟩ | ⟨txn, -, e⟩⟩
  · exact e ▸ engineTurn_answers s
  · exact e ▸ engineTurn_answers _
  · exact ⟨_, e⟩
  · exact e ▸ transact_answers _ txn

/-! ### Runs -/

/-- What every step keeps, a run of any length keeps. -/
theorem run_keeps {P : State → Prop} (hstep : ∀ s t : State, P s → step s = .next t → P t) (n : Nat) {s t : State}
    (h : P s) (hrun : Host.Core.run core n s = .next t) : P t := by
  induction n generalizing s with
  | zero => exact Host.Outcome.next.inj hrun ▸ h
  | succ n ih =>
    obtain ⟨u, hu⟩ := everyStepAnswersANextState s
    exact ih (hstep s u h hu) (run_succ_of_next hu ▸ hrun)

/-- Settles O58: reset meets the invariant and every step keeps it. -/
theorem reachableStatesMeetTheInvariant : Obligations.ReachableStatesMeetTheInvariant := by
  rintro s ⟨p, d, events, n, hp, hrun⟩
  exact run_keeps everyStepKeepsTheInvariant n (resetWith_inv hp d events) hrun

end Sys2Proof.Machine
end
